-- ==== Sys2Proof/Word.lean ====
section
/-!
DEFINITION. The word and byte types, and the one narrowing operation of the spec's notation
(spec/00_scope.md rules R6 to R8). The spec's `u(v)` is `BitVec.toNat`, its `s(v)` is `BitVec.toInt`,
`v << k` is `<<<`, `v >>u k` is `>>>`, `v >>s k` is `BitVec.sshiftRight`, and `v[hi:lo]` is
`BitVec.extractLsb' lo (hi - lo + 1)`.
-/

namespace Sys2Proof

/-- A `Word32` (R7): registers, HI, LO, pc, addresses and instruction words. -/
abbrev Word := BitVec 32

/-- One byte of memory (spec/20_memory.md R40). -/
abbrev Byte := BitVec 8

/-- The number of a general register, 0 to 31 (spec/10_state.md R20). -/
abbrev Reg := Fin 32

/-- `wrap32(n)` (R7): the word whose unsigned value is `n mod 2^32`. -/
def wrap32 (n : Int) : Word := BitVec.ofInt 32 n

end Sys2Proof
end

