-- ==== Sys2Proof/Syntax.lean ====
section
/-!
DEFINITION. The 51 instructions of spec/00_scope.md rule R2, one constructor per row of
spec/opcode_table.json. Operands stand in the assembler's order (spec/30_encoding.md rule R81).
Register numbers, the shift amount, the 16-bit immediate and the 26-bit target are exactly as wide as
their fields (R62), so every value of this type is an instruction some word encodes.
-/

namespace Sys2Proof

/-- The instruction formats (spec/30_encoding.md R61, R62). -/
inductive Format where
  | r
  | i
  | j
  deriving DecidableEq, Repr

/-- The instructions. `brk` is the row `break`: `break` is a word of Lean's own. -/
inductive Instr where
  -- R-format shifts (42_r_shift.md)
  | sll (rd rt : Reg) (shamt : BitVec 5)
  | srl (rd rt : Reg) (shamt : BitVec 5)
  | sra (rd rt : Reg) (shamt : BitVec 5)
  | sllv (rd rt rs : Reg)
  | srlv (rd rt rs : Reg)
  | srav (rd rt rs : Reg)
  -- R-format control and system (44_r_control_system.md)
  | jr (rs : Reg)
  | syscall
  | brk
  -- HI/LO transfer, multiply and divide (43_muldiv.md)
  | mfhi (rd : Reg)
  | mflo (rd : Reg)
  | mult (rs rt : Reg)
  | multu (rs rt : Reg)
  | div (rs rt : Reg)
  | divu (rs rt : Reg)
  -- R-format arithmetic, logical and compare (41_r_alu.md)
  | add (rd rs rt : Reg)
  | addu (rd rs rt : Reg)
  | sub (rd rs rt : Reg)
  | subu (rd rs rt : Reg)
  | and (rd rs rt : Reg)
  | or (rd rs rt : Reg)
  | xor (rd rs rt : Reg)
  | nor (rd rs rt : Reg)
  | slt (rd rs rt : Reg)
  | sltu (rd rs rt : Reg)
  -- J-format jumps (48_jumps.md)
  | j (target : BitVec 26)
  | jal (target : BitVec 26)
  -- I-format conditional branches (46_branches.md)
  | beq (rs rt : Reg) (imm : BitVec 16)
  | bne (rs rt : Reg) (imm : BitVec 16)
  | blez (rs : Reg) (imm : BitVec 16)
  | bgtz (rs : Reg) (imm : BitVec 16)
  -- I-format arithmetic, logical and compare-immediate (45_i_alu.md)
  | addi (rt rs : Reg) (imm : BitVec 16)
  | addiu (rt rs : Reg) (imm : BitVec 16)
  | slti (rt rs : Reg) (imm : BitVec 16)
  | sltiu (rt rs : Reg) (imm : BitVec 16)
  | andi (rt rs : Reg) (imm : BitVec 16)
  | ori (rt rs : Reg) (imm : BitVec 16)
  | xori (rt rs : Reg) (imm : BitVec 16)
  | lui (rt : Reg) (imm : BitVec 16)
  -- I-format loads and stores (47_loadstore.md): `op rt,imm(rs)`
  | lb (rt : Reg) (imm : BitVec 16) (rs : Reg)
  | lh (rt : Reg) (imm : BitVec 16) (rs : Reg)
  | lw (rt : Reg) (imm : BitVec 16) (rs : Reg)
  | lbu (rt : Reg) (imm : BitVec 16) (rs : Reg)
  | lhu (rt : Reg) (imm : BitVec 16) (rs : Reg)
  | sb (rt : Reg) (imm : BitVec 16) (rs : Reg)
  | sh (rt : Reg) (imm : BitVec 16) (rs : Reg)
  | sw (rt : Reg) (imm : BitVec 16) (rs : Reg)
  -- I-format branches under opcode 1, REGIMM (46_branches.md)
  | bltz (rs : Reg) (imm : BitVec 16)
  | bgez (rs : Reg) (imm : BitVec 16)
  | bltzal (rs : Reg) (imm : BitVec 16)
  | bgezal (rs : Reg) (imm : BitVec 16)
  deriving DecidableEq, Repr

end Sys2Proof
end

