-- ==== Sys2Proof/Decode.lean ====
section
/-!
DEFINITION. The instruction codec and the dispatch decoder: formats, field getters and setters, the
encoders of the three formats (spec/30_encoding.md R60 to R69), the opcode map (R71 to R77;
spec/40_dispatch.md R102), and an encoder of instructions written from the same tables. Decoding is
total: a word whose key has no row is rejected by a name that says which key it was (R74). Fields an
instruction does not use are ignored by the decoder (R75) and written as 0 by the encoder (R81).
-/

namespace Sys2Proof

/-! ### Field getters (R63 to R65, R68): total functions of the word, whatever its format. -/

def getOpcode (w : Word) : BitVec 6 := w.extractLsb' 26 6
def getRs (w : Word) : Reg := (w.extractLsb' 21 5).toFin
def getRt (w : Word) : Reg := (w.extractLsb' 16 5).toFin
def getRd (w : Word) : Reg := (w.extractLsb' 11 5).toFin
def getShamt (w : Word) : BitVec 5 := w.extractLsb' 6 5
def getFunct (w : Word) : BitVec 6 := w.extractLsb' 0 6

/-- The immediate field `w[15:0]`, before any extension. -/
def getImmField (w : Word) : BitVec 16 := w.extractLsb' 0 16

/-- The J-format target field (R65). -/
def getTarget (w : Word) : BitVec 26 := w.extractLsb' 0 26

/-- `get_imm(w) = sext_16(w[15:0])` (R64). -/
def getImm (w : Word) : Word := (getImmField w).signExtend 32

/-- `decode_format(w)`: opcode 0 is R, 2 and 3 are J, anything else is I (R61). -/
def decodeFormat (w : Word) : Format :=
  if getOpcode w = 0 then .r
  else if getOpcode w = 2 ∨ getOpcode w = 3 then .j
  else .i

/-! ### Field setters and the format encoders (R66, R67). -/

/-- `set_f(v) = (v mod 2^width) << lo` (R66). -/
def setField (lo width : Nat) (v : Int) : Word :=
  (BitVec.ofInt width v).setWidth 32 <<< lo

def setOpcode (v : Int) : Word := setField 26 6 v
def setRs (v : Int) : Word := setField 21 5 v
def setRt (v : Int) : Word := setField 16 5 v
def setRd (v : Int) : Word := setField 11 5 v
def setShamt (v : Int) : Word := setField 6 5 v
def setFunct (v : Int) : Word := setField 0 6 v
def setImm (v : Int) : Word := setField 0 16 v
def setTarget (v : Int) : Word := setField 0 26 v

/-- `encode_R` (R67). -/
def encodeR (op rs rt rd sh fn : Int) : Word :=
  setOpcode op ||| setRs rs ||| setRt rt ||| setRd rd ||| setShamt sh ||| setFunct fn

/-- The I form of R67. -/
def encodeI (op rs rt imm : Int) : Word :=
  setOpcode op ||| setRs rs ||| setRt rt ||| setImm imm

/-- The J form of R67. -/
def encodeJ (op target : Int) : Word :=
  setOpcode op ||| setTarget target

/-! ### The dispatch decoder. -/

/-- Why bytes are no instruction (R74). -/
inductive DecodeError where
  /-- Fewer than four bytes are left (R60). -/
  | truncated
  /-- An opcode outside R71. -/
  | illegalOpcode (op : BitVec 6)
  /-- Opcode 0 with a funct outside R72. -/
  | illegalFunct (funct : BitVec 6)
  /-- Opcode 1 with an rt outside R73. -/
  | illegalRegimm (rt : Reg)
  deriving DecidableEq, Repr

/-- Opcode 0, SPECIAL: the table of R72. -/
def decodeSpecial (w : Word) : Except DecodeError Instr :=
  match (getFunct w).toNat with
  | 0x00 => .ok (.sll (getRd w) (getRt w) (getShamt w))
  | 0x02 => .ok (.srl (getRd w) (getRt w) (getShamt w))
  | 0x03 => .ok (.sra (getRd w) (getRt w) (getShamt w))
  | 0x04 => .ok (.sllv (getRd w) (getRt w) (getRs w))
  | 0x06 => .ok (.srlv (getRd w) (getRt w) (getRs w))
  | 0x07 => .ok (.srav (getRd w) (getRt w) (getRs w))
  | 0x08 => .ok (.jr (getRs w))
  | 0x0C => .ok .syscall
  | 0x0D => .ok .brk
  | 0x10 => .ok (.mfhi (getRd w))
  | 0x12 => .ok (.mflo (getRd w))
  | 0x18 => .ok (.mult (getRs w) (getRt w))
  | 0x19 => .ok (.multu (getRs w) (getRt w))
  | 0x1A => .ok (.div (getRs w) (getRt w))
  | 0x1B => .ok (.divu (getRs w) (getRt w))
  | 0x20 => .ok (.add (getRd w) (getRs w) (getRt w))
  | 0x21 => .ok (.addu (getRd w) (getRs w) (getRt w))
  | 0x22 => .ok (.sub (getRd w) (getRs w) (getRt w))
  | 0x23 => .ok (.subu (getRd w) (getRs w) (getRt w))
  | 0x24 => .ok (.and (getRd w) (getRs w) (getRt w))
  | 0x25 => .ok (.or (getRd w) (getRs w) (getRt w))
  | 0x26 => .ok (.xor (getRd w) (getRs w) (getRt w))
  | 0x27 => .ok (.nor (getRd w) (getRs w) (getRt w))
  | 0x2A => .ok (.slt (getRd w) (getRs w) (getRt w))
  | 0x2B => .ok (.sltu (getRd w) (getRs w) (getRt w))
  | _ => .error (.illegalFunct (getFunct w))

/-- Opcode 1, REGIMM: the table of R73, keyed by the rt field. -/
def decodeRegimm (w : Word) : Except DecodeError Instr :=
  match (getRt w).val with
  | 0x00 => .ok (.bltz (getRs w) (getImmField w))
  | 0x01 => .ok (.bgez (getRs w) (getImmField w))
  | 0x10 => .ok (.bltzal (getRs w) (getImmField w))
  | 0x11 => .ok (.bgezal (getRs w) (getImmField w))
  | _ => .error (.illegalRegimm (getRt w))

/-- The primary opcode map (R71). Opcodes 2 and 3 are the J format (spec/40_dispatch.md R102). -/
def decode (w : Word) : Except DecodeError Instr :=
  match (getOpcode w).toNat with
  | 0x00 => decodeSpecial w
  | 0x01 => decodeRegimm w
  | 0x02 => .ok (.j (getTarget w))
  | 0x03 => .ok (.jal (getTarget w))
  | 0x04 => .ok (.beq (getRs w) (getRt w) (getImmField w))
  | 0x05 => .ok (.bne (getRs w) (getRt w) (getImmField w))
  | 0x06 => .ok (.blez (getRs w) (getImmField w))
  | 0x07 => .ok (.bgtz (getRs w) (getImmField w))
  | 0x08 => .ok (.addi (getRt w) (getRs w) (getImmField w))
  | 0x09 => .ok (.addiu (getRt w) (getRs w) (getImmField w))
  | 0x0A => .ok (.slti (getRt w) (getRs w) (getImmField w))
  | 0x0B => .ok (.sltiu (getRt w) (getRs w) (getImmField w))
  | 0x0C => .ok (.andi (getRt w) (getRs w) (getImmField w))
  | 0x0D => .ok (.ori (getRt w) (getRs w) (getImmField w))
  | 0x0E => .ok (.xori (getRt w) (getRs w) (getImmField w))
  | 0x0F => .ok (.lui (getRt w) (getImmField w))
  | 0x20 => .ok (.lb (getRt w) (getImmField w) (getRs w))
  | 0x21 => .ok (.lh (getRt w) (getImmField w) (getRs w))
  | 0x23 => .ok (.lw (getRt w) (getImmField w) (getRs w))
  | 0x24 => .ok (.lbu (getRt w) (getImmField w) (getRs w))
  | 0x25 => .ok (.lhu (getRt w) (getImmField w) (getRs w))
  | 0x28 => .ok (.sb (getRt w) (getImmField w) (getRs w))
  | 0x29 => .ok (.sh (getRt w) (getImmField w) (getRs w))
  | 0x2B => .ok (.sw (getRt w) (getImmField w) (getRs w))
  | _ => .error (.illegalOpcode (getOpcode w))

/-! ### Bytes: a word lies little-endian in memory and in the container (spec/20_memory.md R46). -/

/-- The word whose bytes, lowest address first, are `b0 b1 b2 b3`. -/
def wordOfBytes (b0 b1 b2 b3 : Byte) : Word := b3 ++ b2 ++ b1 ++ b0

/-- The bytes of a word, lowest address first. -/
def bytesOfWord (w : Word) : List Byte :=
  [w.extractLsb' 0 8, w.extractLsb' 8 8, w.extractLsb' 16 8, w.extractLsb' 24 8]

/-- Read one instruction from the front of a byte string; every instruction is 4 bytes (R60, R77). -/
def decodeBytes : List Byte → Except DecodeError (Instr × List Byte)
  | b0 :: b1 :: b2 :: b3 :: rest =>
    match decode (wordOfBytes b0 b1 b2 b3) with
    | .ok i => .ok (i, rest)
    | .error e => .error e
  | _ => .error .truncated

/-- The instruction read from a word whose bits are numbered as spec/opcode_table.json numbers them:
the low `nbits` bits of `w`, laid out as bytes and given to `decodeBytes`. -/
def decodeTableWord (nbits w : Nat) : Option Instr :=
  match decodeBytes (bytesOfWord (BitVec.ofNat 32 (w % 2 ^ nbits))) with
  | .ok (i, _) => some i
  | .error _ => none

/-! ### The encoder of instructions (R67, R71 to R73, R81). -/

/-- An R-format word with opcode 0 and the given register fields, shift amount and funct. -/
def encodeSpecial (rs rt rd : Reg) (sh : BitVec 5) (fn : Int) : Word :=
  encodeR 0 rs.val rt.val rd.val sh.toNat fn

/-- An I-format word with the given opcode, register fields and 16-bit field. -/
def encodeImm (op : Int) (rs rt : Reg) (imm : BitVec 16) : Word :=
  encodeI op rs.val rt.val imm.toInt

/-- The word the assembler writes for an instruction: unused fields are 0 (R81). -/
def encode : Instr → Word
  | .sll rd rt sh => encodeSpecial 0 rt rd sh 0x00
  | .srl rd rt sh => encodeSpecial 0 rt rd sh 0x02
  | .sra rd rt sh => encodeSpecial 0 rt rd sh 0x03
  | .sllv rd rt rs => encodeSpecial rs rt rd 0 0x04
  | .srlv rd rt rs => encodeSpecial rs rt rd 0 0x06
  | .srav rd rt rs => encodeSpecial rs rt rd 0 0x07
  | .jr rs => encodeSpecial rs 0 0 0 0x08
  | .syscall => encodeSpecial 0 0 0 0 0x0C
  | .brk => encodeSpecial 0 0 0 0 0x0D
  | .mfhi rd => encodeSpecial 0 0 rd 0 0x10
  | .mflo rd => encodeSpecial 0 0 rd 0 0x12
  | .mult rs rt => encodeSpecial rs rt 0 0 0x18
  | .multu rs rt => encodeSpecial rs rt 0 0 0x19
  | .div rs rt => encodeSpecial rs rt 0 0 0x1A
  | .divu rs rt => encodeSpecial rs rt 0 0 0x1B
  | .add rd rs rt => encodeSpecial rs rt rd 0 0x20
  | .addu rd rs rt => encodeSpecial rs rt rd 0 0x21
  | .sub rd rs rt => encodeSpecial rs rt rd 0 0x22
  | .subu rd rs rt => encodeSpecial rs rt rd 0 0x23
  | .and rd rs rt => encodeSpecial rs rt rd 0 0x24
  | .or rd rs rt => encodeSpecial rs rt rd 0 0x25
  | .xor rd rs rt => encodeSpecial rs rt rd 0 0x26
  | .nor rd rs rt => encodeSpecial rs rt rd 0 0x27
  | .slt rd rs rt => encodeSpecial rs rt rd 0 0x2A
  | .sltu rd rs rt => encodeSpecial rs rt rd 0 0x2B
  | .j target => encodeJ 0x02 target.toNat
  | .jal target => encodeJ 0x03 target.toNat
  | .beq rs rt imm => encodeImm 0x04 rs rt imm
  | .bne rs rt imm => encodeImm 0x05 rs rt imm
  | .blez rs imm => encodeImm 0x06 rs 0 imm
  | .bgtz rs imm => encodeImm 0x07 rs 0 imm
  | .addi rt rs imm => encodeImm 0x08 rs rt imm
  | .addiu rt rs imm => encodeImm 0x09 rs rt imm
  | .slti rt rs imm => encodeImm 0x0A rs rt imm
  | .sltiu rt rs imm => encodeImm 0x0B rs rt imm
  | .andi rt rs imm => encodeImm 0x0C rs rt imm
  | .ori rt rs imm => encodeImm 0x0D rs rt imm
  | .xori rt rs imm => encodeImm 0x0E rs rt imm
  | .lui rt imm => encodeImm 0x0F 0 rt imm
  | .lb rt imm rs => encodeImm 0x20 rs rt imm
  | .lh rt imm rs => encodeImm 0x21 rs rt imm
  | .lw rt imm rs => encodeImm 0x23 rs rt imm
  | .lbu rt imm rs => encodeImm 0x24 rs rt imm
  | .lhu rt imm rs => encodeImm 0x25 rs rt imm
  | .sb rt imm rs => encodeImm 0x28 rs rt imm
  | .sh rt imm rs => encodeImm 0x29 rs rt imm
  | .sw rt imm rs => encodeImm 0x2B rs rt imm
  | .bltz rs imm => encodeImm 0x01 rs 0x00 imm
  | .bgez rs imm => encodeImm 0x01 rs 0x01 imm
  | .bltzal rs imm => encodeImm 0x01 rs 0x10 imm
  | .bgezal rs imm => encodeImm 0x01 rs 0x11 imm

/-- The bytes of an instruction as they lie in memory and in a container. -/
def encodeBytes (i : Instr) : List Byte := bytesOfWord (encode i)

end Sys2Proof
end

