-- ==== Sys2Proof/Config.lean ====
section
/-!
DEFINITION. What is fixed outside the running machine: the construction parameters of
spec/00_scope.md rule R5, and the free values the spec leaves to the host or to nobody
(spec/92_eei_decisions.md D14, D30; spec/93_implementation_defined.md B4, B9, B10). A free value is an
opaque constant with no body, applied to the counter `State.draws`: nothing can be proved of its value
(notes/assumptions/9.md).
-/

namespace Sys2Proof

/-- What the host's debugger answers to a suspended run (spec/44_r_control_system.md R165). -/
inductive DebugAnswer where
  /-- Run exactly one instruction, then suspend again. -/
  | step
  /-- Run on. -/
  | resume
  deriving DecidableEq, Repr

/-- The construction parameters of the engine (R5). The spec gives defaults for MEM_SIZE and INIT_PC
only; `initGpr` (used for registers 1 to 31), `initHi`, `initLo` and `initMem` are its OPEN parameters
(spec/70_reset_and_hazards.md R243). -/
structure Config.Params where
  memSize : Nat := 8192
  initPc  : Int := 0x0040
  initGpr : Reg → Word
  initHi  : Word
  initLo  : Word
  initMem : Nat → Byte

/-- The parameters of the assembler (R5). -/
structure Config.AsmParams where
  progBase : Nat := 0x0040
  dataBase : Nat := 0x0FFF
  /-- Whether an unknown mnemonic ends the assembly (spec/30_encoding.md R88). -/
  unknownMnemonicFatal : Bool := false
  deriving DecidableEq, Repr

/-- A program image: what a container holds (R12, R241). Load addresses are the container's int32
fields, so they are integers. -/
structure Config.Image where
  text     : List Byte
  progBase : Int
  data     : Option (List Byte × Int)
  deriving DecidableEq, Repr

/-- FREE VALUE. A word the host answers, or one that no rule states: services 12, 13, 14 and 15
(spec/44_r_control_system.md R166, R169, R170), HI and LO of the one overflowing quotient
(spec/43_muldiv.md R152). -/
opaque Config.drawWord : Nat → Word

/-- FREE VALUE. The integer the host answers to service 5 (R166, R169). -/
opaque Config.drawInt : Nat → Int

/-- FREE VALUE. The byte string the host answers to services 8 and 14 (R166, R169). -/
opaque Config.drawBytes : Nat → List Byte

/-- FREE VALUE. The 64-bit time the host answers to service 30 (R166, R174). -/
opaque Config.drawTime : Nat → BitVec 64

/-- FREE VALUE. The debugger's answer to a suspended run; `none` while it has not answered
(R165; spec/93_implementation_defined.md B10). -/
opaque Config.drawDebug : Nat → Option DebugAnswer

end Sys2Proof
end

