-- ==== Sys2Proof/Machine/State.lean ====
section
/-!
DEFINITION. The state of the machine (spec/10_state.md), the reasons a step can stop, and the state
after reset. Everything is plain data.
-/

namespace Sys2Proof.Machine

/-- Who made a memory access (spec/20_memory.md R42). -/
inductive AccessKind where
  | fetch
  | load
  | store
  | syscall
  deriving DecidableEq, Repr

/-- The fault kinds of the spec with their arguments (spec/60_exceptions.md R221). A fault ends the run
by setting the run status (R220): it is recorded in the state, so the step that raises it answers a next
state (notes/assumptions/6.md). -/
inductive FaultKind where
  /-- Code 1: a word whose key has no row in the opcode map. -/
  | illegalInstruction (pcI : Word) (w : Word)
  /-- Code 2: add, sub, addi. -/
  | integerOverflow (pcI : Word)
  /-- Code 3: an access of `n` bytes at `a` that is not inside memory. The address is `u(a)`. -/
  | memoryFault (a : Nat) (n : Nat) (kind : AccessKind)
  /-- Code 4: a fetch at a pc that is no multiple of 4. -/
  | fetchMisaligned (pc : Word)
  /-- Code 5: div, divu. -/
  | divideByZero (pcI : Word)
  /-- Code 6: syscall service 9. -/
  | unimplementedSyscall (pcI : Word)
  deriving DecidableEq, Repr

/-- The run status (spec/10_state.md R28). -/
inductive RunStatus where
  | running
  /-- A `break` handed control to the debugger. -/
  | suspended
  | exited (status : Word)
  | faulted (kind : FaultKind) (pcFault : Word)
  deriving DecidableEq, Repr

/-- The byte array `mem` (spec/20_memory.md R40): `size` is MEM_SIZE, and `cells` lists, by strictly
rising address, the bytes that differ from what an unlisted address reads as. -/
structure Memory where
  size  : Nat
  cells : List Host.Cell
  deriving DecidableEq, Repr

/-- What an address that no cell lists reads as. Any initial contents can be listed, so this is a
choice only where `State.reset` lists nothing (notes/assumptions/3.md). DESIGN CHOICE, unsafe. -/
def Memory.unlisted : Byte := 0

/-- The canonical form: addresses strictly rising and inside the array, no entry equal to what an
unlisted address reads as. -/
abbrev Memory.wf (m : Memory) : Prop :=
  m.cells.Pairwise (fun c d => c.1 < d.1) ∧
    ∀ c ∈ m.cells, c.1 < m.size ∧ c.2 ≠ Memory.unlisted

/-- A snapshot: "a full independent copy" of the registers, HI, LO, pc and memory
(spec/10_state.md R29; spec/44_r_control_system.md R173). -/
structure Snapshot where
  regs : Vector Word 32
  hi   : Word
  lo   : Word
  pc   : Word
  mem  : Memory
  deriving DecidableEq, Repr

/-- A request handed to the host (spec/44_r_control_system.md R164 to R166), with what the block gives
it. How the host prints a value is the host's (spec/93_implementation_defined.md B11). -/
inductive HostRequest where
  /-- 1: print `s(x[4])` in decimal. -/
  | printInt (value : Int)
  /-- 4: print the bytes before the 0x00. -/
  | printString (bytes : List Byte)
  /-- 5 -/
  | readInt
  /-- 8: at most `len` bytes at `addr`. -/
  | readLine (addr len : Word)
  /-- 11 -/
  | printChar (byte : Byte)
  /-- 12 -/
  | readChar
  /-- 13 -/
  | openFile (path : List Byte) (mode access : Word)
  /-- 14: at most `len` bytes at `addr`. -/
  | readFile (handle addr len : Word)
  /-- 15 -/
  | writeFile (handle : Word) (bytes : List Byte)
  /-- 16 -/
  | closeFile (handle : Word)
  /-- 18: the flag that the snapshot just replaced was never compared. -/
  | snapshotNeverCompared
  /-- 19: how many of x[0..31], how many of HI, LO and pc, and how many memory bytes differ. -/
  | snapshotDiff (generalRegs specialRegs memoryBytes : Nat)
  /-- 30 -/
  | readTime
  /-- 31 and 33: `service` says which. -/
  | tone (service frequency duration : Word)
  /-- 32 -/
  | sleep (milliseconds : Word)
  /-- 34: 8 hexadecimal digits of `w`. -/
  | printHex (w : Word)
  /-- 35: 32 binary digits of `w`. -/
  | printBinary (w : Word)
  /-- 36: print `u(x[4])` in decimal. -/
  | printUnsigned (value : Nat)
  /-- `Host(Debug, state)` of a `break` (R161). -/
  | debug
  deriving DecidableEq, Repr

/-- The state. `draws` and `requests` are the model's own fields, no state of the block
(notes/assumptions/9.md, notes/assumptions/11.md); no instruction's effect on the block depends on
`requests`. -/
structure State where
  /-- `x[0]` to `x[31]` (R20); `x[0]` is an ordinary register (R22). -/
  regs : Vector Word 32
  /-- HI and LO (R24). -/
  hi : Word
  lo : Word
  /-- The program counter (R25). -/
  pc : Word
  mem : Memory
  status : RunStatus
  /-- The mark of spec/40_dispatch.md R108 on the state after a refused step. -/
  refused : Bool
  /-- R29. -/
  snap : Option Snapshot
  snapCompared : Bool
  /-- The debugger answered `Step`: the next instruction is the only one to run (R165). -/
  stepping : Bool
  /-- How many free values have been drawn. -/
  draws : Nat
  /-- The requests handed to the host so far, newest first. -/
  requests : List HostRequest
  deriving DecidableEq, Repr

/-- Why `step` answers a fault: only because the run is over, so that no step is enabled
(spec/10_state.md R28; spec/40_dispatch.md R100). Safe: the hardware does nothing more either. -/
inductive Fault where
  /-- Raised by `step` in a state that syscall 10 or 17 left. Safe: `Exited` is final. -/
  | runExited (status : Word)
  /-- Raised by `step` in a state that a fault of the spec left. Safe: `Faulted` is final. -/
  | runFaulted (kind : FaultKind) (pcFault : Word)
  deriving DecidableEq, Repr

/-- Why `step` refuses. -/
inductive Refusal where
  /-- Raised by an arm of `exec` whose instruction has no meaning yet; no arm does. Safe: the model
  stops where the hardware goes on. -/
  | notModelled (mnemonic : String)
  /-- Raised by `step` in the state that syscall service 9 left: "A refused step has no successor"
  (spec/40_dispatch.md R107, R108). Safe: the model stops. -/
  | unimplementedSyscall (pcFault : Word)
  deriving DecidableEq, Repr

/-- The machine right after construction with the default MEM_SIZE and PROG_BASE, before a program is
copied into its memory (spec/70_reset_and_hazards.md R243; notes/assumptions/4.md and 5.md). `x[0] = 0`,
`pc`, `status`, `snap` and `snapCompared` are the spec's; the OPEN parameters `init_gpr`, `init_hi`,
`init_lo` and `init_mem` are given the value 0 here (notes/assumptions/1.md to 3.md; DESIGN CHOICE,
unsafe); `construct` (Machine/Loader.lean) builds the state for any value of them. -/
def State.reset : State where
  regs := Vector.replicate 32 0
  hi := 0
  lo := 0
  pc := 0x00000040
  mem := { size := 8192, cells := [] }
  status := .running
  refused := false
  snap := none
  snapCompared := false
  stepping := false
  draws := 0
  requests := []

end Sys2Proof.Machine
end

