-- ==== Sys2Proof/Machine/Ops.lean ====
section
/-!
DEFINITION. The named operations over registers, memory, the program counter, the run status and the
host boundary. Everything that touches the state goes through these. Ending a run by a fault, and the
resumption of a suspended run, are one shared operation each (spec/60_exceptions.md R220, R225).
-/

namespace Sys2Proof.Machine

/-! ### Registers (spec/10_state.md R20, R22, R24) -/

/-- `x[i]`. -/
def State.reg (s : State) (i : Reg) : Word := s.regs[i]

/-- `x[i] <- v`: every register, number 0 included, takes the value (R22). -/
def State.setReg (s : State) (i : Reg) (v : Word) : State :=
  { s with regs := s.regs.set i v }

/-- `HI <- h; LO <- l`. -/
def State.setHiLo (s : State) (h l : Word) : State := { s with hi := h, lo := l }

/-! ### The program counter (R25; spec/40_dispatch.md R101) -/

/-- `pc <- target`. -/
def State.setPc (s : State) (target : Word) : State := { s with pc := target }

/-- The advance before every instruction body: `pc <- wrap32(u(pc_i) + 4)`. -/
def State.advance (s : State) : State := s.setPc (s.pc + 4)

/-- `pc_i` inside an instruction body, where `pc` is `pc_i + 4` (spec/00_scope.md R9). -/
def State.pcI (s : State) : Word := s.pc - 4

/-! ### Memory (spec/20_memory.md R40 to R49) -/

/-- The byte a list of cells gives at an address. -/
def Memory.lookup : List Host.Cell → Nat → Byte
  | [], _ => Memory.unlisted
  | (b, v) :: rest, a => if b = a then v else Memory.lookup rest a

/-- `mem[a]`. -/
def Memory.byte (m : Memory) (a : Nat) : Byte := Memory.lookup m.cells a

/-- Put a cell in front of a list, unless it says what an unlisted address reads as. -/
def Memory.putCell (a : Nat) (v : Byte) (rest : List Host.Cell) : List Host.Cell :=
  if v = Memory.unlisted then rest else (a, v) :: rest

/-- Write one byte into a list of cells: the cells below the address, then the new one, then the cells
above it. A rising list stays rising. -/
def Memory.insert (cells : List Host.Cell) (a : Nat) (v : Byte) : List Host.Cell :=
  cells.filter (fun c => decide (c.1 < a)) ++
    Memory.putCell a v (cells.filter (fun c => decide (a < c.1)))

/-- `mem[a] <- v`. -/
def Memory.setByte (m : Memory) (a : Nat) (v : Byte) : Memory :=
  { m with cells := Memory.insert m.cells a v }

/-- Write bytes at consecutive addresses, the first at `a`. -/
def Memory.setBytes (m : Memory) (a : Nat) : List Byte → Memory
  | [] => m
  | v :: vs => (m.setByte a v).setBytes (a + 1) vs

/-- The bytes at `n` consecutive addresses, the first at `a`. -/
def Memory.bytes (m : Memory) (a : Nat) : Nat → List Byte
  | 0 => []
  | n + 1 => m.byte a :: m.bytes (a + 1) n

/-- The array of `size` bytes whose byte at `a` is `f a`. -/
def Memory.ofFn (size : Nat) (f : Nat → Byte) : Memory where
  size := size
  cells := (List.range size).filterMap fun a =>
    if f a = Memory.unlisted then none else some (a, f a)

/-- An access of `n` bytes at `a` is in range: `u(a) + n <= MEM_SIZE` on unbounded integers (R42). -/
def Memory.inRange (m : Memory) (a n : Nat) : Bool := decide (a + n ≤ m.size)

/-- The little-endian value of `n` bytes at `a`:
`mem[a] | mem[a+1] << 8 | ... | mem[a+n-1] << 8(n-1)` (R43). -/
def Memory.littleEndian (m : Memory) (a : Nat) : Nat → Word
  | 0 => 0
  | n + 1 => (m.byte a).setWidth 32 ||| (m.littleEndian (a + 1) n <<< 8)

/-- `v[8k+7:8k]` for `k = 0 .. n-1` (R44). -/
def Memory.bytesOf (v : Word) (n : Nat) : List Byte :=
  (List.range n).map fun k => v.extractLsb' (8 * k) 8

/-- `MemRead(a, n)` (R43): nothing when the access is out of range. -/
def Memory.read (m : Memory) (a n : Nat) : Option Word :=
  if m.inRange a n then some (m.littleEndian a n) else none

/-- `MemWrite(a, n, v)` (R44): nothing when the access is out of range. -/
def Memory.write (m : Memory) (a n : Nat) (v : Word) : Option Memory :=
  if m.inRange a n then some (m.setBytes a (Memory.bytesOf v n)) else none

/-- The bytes from `a` up to the first 0x00, which is not among them, looking at `fuel` addresses. -/
def Memory.scan (m : Memory) : Nat → Nat → Option (List Byte)
  | 0, _ => none
  | fuel + 1, a =>
    if m.byte a = 0 then some []
    else match m.scan fuel (a + 1) with
      | some bytes => some (m.byte a :: bytes)
      | none => none

/-- The NUL-terminated string at `a`; nothing when no 0x00 lies between `a` and the end of memory
(spec/44_r_control_system.md R172). -/
def Memory.cString (m : Memory) (a : Nat) : Option (List Byte) := m.scan (m.size - a) a

/-- How many bytes of two memories of one size differ (spec/44_r_control_system.md R173). -/
def Memory.countDiff (m other : Memory) : Nat :=
  (List.range m.size).countP fun a => decide (m.byte a ≠ other.byte a)

/-- The state with another memory. -/
def State.setMem (s : State) (m : Memory) : State := { s with mem := m }

/-! ### Faults, the end of a run, suspension -/

/-- The code of a fault kind (spec/60_exceptions.md R221). -/
def FaultKind.code : FaultKind → Nat
  | .illegalInstruction _ _ => 1
  | .integerOverflow _ => 2
  | .memoryFault _ _ _ => 3
  | .fetchMisaligned _ => 4
  | .divideByZero _ => 5
  | .unimplementedSyscall _ => 6

/-- End the run by a fault: the status records the kind and `pc_fault`, and nothing else changes
(spec/60_exceptions.md R220, R222). -/
def State.endFaulted (s : State) (k : FaultKind) (pcFault : Word) : State :=
  { s with status := .faulted k pcFault }

/-- A fault raised in an instruction body: `pc_fault = pc_i`, and `pc` stays `pc_i + 4` (R222). -/
def State.raise (s : State) (k : FaultKind) : State := s.endFaulted k s.pcI

/-- The outcome `Refused(UnimplementedSyscall)` (spec/44_r_control_system.md R171; spec/40_dispatch.md
R108): the fault is recorded and the state is marked refused. -/
def State.refuse (s : State) : State :=
  { s.raise (.unimplementedSyscall s.pcI) with refused := true }

/-- End the run normally (spec/44_r_control_system.md R168). -/
def State.exit (s : State) (status : Word) : State := { s with status := .exited status }

/-- Hand one request to the host (spec/44_r_control_system.md R166). -/
def State.ask (s : State) (r : HostRequest) : State := { s with requests := r :: s.requests }

/-- Count `n` free values as drawn. -/
def State.drew (s : State) (n : Nat) : State := { s with draws := s.draws + n }

/-- `status <- Suspended; Host(Debug, state)` (spec/44_r_control_system.md R161). -/
def State.suspend (s : State) : State := { s with status := .suspended }.ask .debug

/-- One turn of a suspended run: the debugger answers `Step`, `Resume` or nothing yet (R165). It
restores nothing, because nothing changed (spec/60_exceptions.md R225). -/
def State.debuggerTurn (s : State) : State :=
  match Config.drawDebug s.draws with
  | none => s.drew 1
  | some .step => { s with status := .running, stepping := true }.drew 1
  | some .resume => { s with status := .running, stepping := false }.drew 1

/-- After an instruction that ran because the debugger answered `Step`, "the status then returns to
Suspended, unless that step ended the run" (R165). The spec hands the host `Host(Debug, state)` for a break only, so
no request is recorded here (notes/assumptions/12.md; DESIGN CHOICE, safe). -/
def State.afterStep (s : State) : State :=
  if s.stepping then
    { s with
      stepping := false
      status := if s.status = .running then .suspended else s.status }
  else s

/-! ### Fetch (spec/40_dispatch.md R100) -/

/-- Fetch the word at `pc`: first the alignment, then the range (spec/60_exceptions.md R223). -/
def State.fetch (s : State) : Except FaultKind Word :=
  if s.pc.toNat % 4 ≠ 0 then .error (.fetchMisaligned s.pc)
  else match s.mem.read s.pc.toNat 4 with
    | some w => .ok w
    | none => .error (.memoryFault s.pc.toNat 4 .fetch)

/-! ### Snapshots (spec/10_state.md R29; spec/44_r_control_system.md R173) -/

/-- A full independent copy of the registers, HI, LO, pc and memory. -/
def State.takeSnapshot (s : State) : Snapshot where
  regs := s.regs
  hi := s.hi
  lo := s.lo
  pc := s.pc
  mem := s.mem

/-- How many of `x[0..31]` differ from the snapshot. -/
def State.countRegDiff (s : State) (k : Snapshot) : Nat :=
  (List.finRange 32).countP fun i => decide (s.regs[i] ≠ k.regs[i])

/-- How many of HI, LO and pc differ from the snapshot. -/
def State.countSpecialDiff (s : State) (k : Snapshot) : Nat :=
  (if s.hi ≠ k.hi then 1 else 0) + (if s.lo ≠ k.lo then 1 else 0) + (if s.pc ≠ k.pc then 1 else 0)

end Sys2Proof.Machine
end

