-- ==== Sys2Proof/Machine/Flags.lean ====
section
/-!
DEFINITION. The computations a machine with flags would set flags by. This block has no flags
(spec/10_state.md R26): a comparison writes 0 or 1 to a register, and an overflow faults.
-/

namespace Sys2Proof.Machine

/-- The exact result does not fit: `n < -2^31 or n > 2^31 - 1` (spec/41_r_alu.md R120). -/
def overflows (n : Int) : Bool := decide (n < -2 ^ 31) || decide (n > 2 ^ 31 - 1)

/-- `if c then 1 else 0`, as a 32-bit word (R128). -/
def boolWord (c : Bool) : Word := if c then 1 else 0

/-- `s(a) < s(b)`. -/
def signedLess (a b : Word) : Bool := decide (a.toInt < b.toInt)

/-- `u(a) < u(b)`. -/
def unsignedLess (a b : Word) : Bool := decide (a.toNat < b.toNat)

/-- Write the exact result `n` to a register, or raise `IntegerOverflow(pc_i)` and write nothing
(spec/41_r_alu.md R120, R122; spec/45_i_alu.md R180). -/
def State.setRegChecked (s : State) (r : Reg) (n : Int) : State :=
  if overflows n then s.raise (.integerOverflow s.pcI) else s.setReg r (wrap32 n)

end Sys2Proof.Machine
end

