-- ==== Sys2Proof/Machine/Operands.lean ====
section
/-!
DEFINITION. Every operand form: how an immediate, a shift amount, an address or a target is assembled
from the instruction and the state (spec/30_encoding.md R70), and the loads and stores through an
address (spec/47_loadstore.md R200).
-/

namespace Sys2Proof.Machine

/-- `sext_16(w[15:0])`: the signed immediate (R70). -/
def signedImm (imm : BitVec 16) : Word := imm.signExtend 32

/-- `zext_16(w[15:0])`: the immediate of andi, ori and xori (R70). -/
def zeroImm (imm : BitVec 16) : Word := imm.setWidth 32

/-- `w[15:0] ++ 0x0000`: the upper immediate of lui (R70). -/
def upperImm (imm : BitVec 16) : Word := imm ++ (0 : BitVec 16)

/-- `x[rs][4:0]`: the variable shift amount (R70). -/
def shiftAmount (v : Word) : BitVec 5 := v.extractLsb' 0 5

/-- `a = wrap32(u(x[rs]) + u(sext_16(w[15:0])))` (spec/47_loadstore.md R200; spec/20_memory.md R41). -/
def State.effAddr (s : State) (rs : Reg) (imm : BitVec 16) : Word := s.reg rs + signedImm imm

/-- The branch target `T = wrap32(u(pc_i + 4) + u(sext_16(w[15:0]) << 2))` (spec/46_branches.md), where
`pc` is already `pc_i + 4`. -/
def State.branchTarget (s : State) (imm : BitVec 16) : Word := s.pc + (signedImm imm <<< 2)

/-- The jump target `(pc_i + 4)[31:28] ++ w[25:0] ++ 0b00` (spec/48_jumps.md). -/
def State.jumpTarget (s : State) (target : BitVec 26) : Word :=
  s.pc.extractLsb' 28 4 ++ target ++ (0 : BitVec 2)

/-- `if c then pc <- T`. -/
def State.branchIf (s : State) (c : Bool) (imm : BitVec 16) : State :=
  if c then s.setPc (s.branchTarget imm) else s

/-- The link write `x[31] <- pc_i + 4` (spec/46_branches.md R196, R197; spec/48_jumps.md R211). -/
def State.link (s : State) : State := s.setReg 31 s.pc

/-- A load of `n` bytes from `imm(rs)` into `rt` through the extension `ext`; out of range it raises
`MemoryFault(a, n, load)` and writes nothing (spec/47_loadstore.md). -/
def State.load (s : State) (rt rs : Reg) (imm : BitVec 16) (n : Nat) (ext : Word → Word) : State :=
  match s.mem.read (s.effAddr rs imm).toNat n with
  | some v => s.setReg rt (ext v)
  | none => s.raise (.memoryFault (s.effAddr rs imm).toNat n .load)

/-- A store of the low `n` bytes of `x[rt]` to `imm(rs)`; out of range it raises
`MemoryFault(a, n, store)` and writes nothing (spec/47_loadstore.md). -/
def State.store (s : State) (rt rs : Reg) (imm : BitVec 16) (n : Nat) : State :=
  match s.mem.write (s.effAddr rs imm).toNat n (s.reg rt) with
  | some m => s.setMem m
  | none => s.raise (.memoryFault (s.effAddr rs imm).toNat n .store)

/-- `sext_8(v[7:0])`. -/
def signByte (v : Word) : Word := (v.extractLsb' 0 8).signExtend 32
/-- `sext_16(v[15:0])`. -/
def signHalf (v : Word) : Word := (v.extractLsb' 0 16).signExtend 32
/-- `zext_8(v[7:0])`. -/
def zeroByte (v : Word) : Word := (v.extractLsb' 0 8).setWidth 32
/-- `zext_16(v[15:0])`. -/
def zeroHalf (v : Word) : Word := (v.extractLsb' 0 16).setWidth 32

end Sys2Proof.Machine
end

