-- ==== Sys2Proof/Machine/Alu.lean ====
section
/-!
DEFINITION. R-format arithmetic, logical and compare instructions (spec/41_r_alu.md). No flags, no memory,
no HI or LO; `pc` is left at `pc_i + 4`.
-/

namespace Sys2Proof.Machine

/-- `add rd,rs,rt` (R120): signed add, `IntegerOverflow` when the sum does not fit. -/
def execAdd (rd rs rt : Reg) (s : State) :
    Host.Outcome State Fault Refusal :=
  .next (s.setRegChecked rd ((s.reg rs).toInt + (s.reg rt).toInt))

/-- `addu rd,rs,rt` (R121): add modulo 2^32. -/
def execAddu (rd rs rt : Reg) (s : State) :
    Host.Outcome State Fault Refusal :=
  .next (s.setReg rd (s.reg rs + s.reg rt))

/-- `sub rd,rs,rt` (R122): signed subtract, `IntegerOverflow` when the difference does not fit. -/
def execSub (rd rs rt : Reg) (s : State) :
    Host.Outcome State Fault Refusal :=
  .next (s.setRegChecked rd ((s.reg rs).toInt - (s.reg rt).toInt))

/-- `subu rd,rs,rt` (R123): subtract modulo 2^32. -/
def execSubu (rd rs rt : Reg) (s : State) :
    Host.Outcome State Fault Refusal :=
  .next (s.setReg rd (s.reg rs - s.reg rt))

/-- `and rd,rs,rt` (R124). -/
def execAnd (rd rs rt : Reg) (s : State) :
    Host.Outcome State Fault Refusal :=
  .next (s.setReg rd (s.reg rs &&& s.reg rt))

/-- `or rd,rs,rt` (R125). -/
def execOr (rd rs rt : Reg) (s : State) :
    Host.Outcome State Fault Refusal :=
  .next (s.setReg rd (s.reg rs ||| s.reg rt))

/-- `xor rd,rs,rt` (R126). -/
def execXor (rd rs rt : Reg) (s : State) :
    Host.Outcome State Fault Refusal :=
  .next (s.setReg rd (s.reg rs ^^^ s.reg rt))

/-- `nor rd,rs,rt` (R127). -/
def execNor (rd rs rt : Reg) (s : State) :
    Host.Outcome State Fault Refusal :=
  .next (s.setReg rd (~~~(s.reg rs ||| s.reg rt)))

/-- `slt rd,rs,rt` (R128): signed less-than. -/
def execSlt (rd rs rt : Reg) (s : State) :
    Host.Outcome State Fault Refusal :=
  .next (s.setReg rd (boolWord (signedLess (s.reg rs) (s.reg rt))))

/-- `sltu rd,rs,rt` (R129): unsigned less-than. -/
def execSltu (rd rs rt : Reg) (s : State) :
    Host.Outcome State Fault Refusal :=
  .next (s.setReg rd (boolWord (unsignedLess (s.reg rs) (s.reg rt))))

end Sys2Proof.Machine
end

