-- ==== Sys2Proof/Machine/AluImm.lean ====
section
/-!
DEFINITION. I-format arithmetic, logical and compare-immediate instructions (spec/45_i_alu.md).
-/

namespace Sys2Proof.Machine

/-- `addi rt,rs,imm` (R180): signed add, `IntegerOverflow` when the sum does not fit. -/
def execAddi (rt rs : Reg) (imm : BitVec 16) (s : State) :
    Host.Outcome State Fault Refusal :=
  .next (s.setRegChecked rt ((s.reg rs).toInt + (signedImm imm).toInt))

/-- `addiu rt,rs,imm` (R181): add modulo 2^32 of the sign-extended immediate. -/
def execAddiu (rt rs : Reg) (imm : BitVec 16) (s : State) :
    Host.Outcome State Fault Refusal :=
  .next (s.setReg rt (s.reg rs + signedImm imm))

/-- `slti rt,rs,imm` (R182): signed compare. -/
def execSlti (rt rs : Reg) (imm : BitVec 16) (s : State) :
    Host.Outcome State Fault Refusal :=
  .next (s.setReg rt (boolWord (signedLess (s.reg rs) (signedImm imm))))

/-- `sltiu rt,rs,imm` (R183): unsigned compare with the sign-extended immediate. -/
def execSltiu (rt rs : Reg) (imm : BitVec 16) (s : State) :
    Host.Outcome State Fault Refusal :=
  .next (s.setReg rt (boolWord (unsignedLess (s.reg rs) (signedImm imm))))

/-- `andi rt,rs,imm` (R184). -/
def execAndi (rt rs : Reg) (imm : BitVec 16) (s : State) :
    Host.Outcome State Fault Refusal :=
  .next (s.setReg rt (s.reg rs &&& zeroImm imm))

/-- `ori rt,rs,imm` (R185). -/
def execOri (rt rs : Reg) (imm : BitVec 16) (s : State) :
    Host.Outcome State Fault Refusal :=
  .next (s.setReg rt (s.reg rs ||| zeroImm imm))

/-- `xori rt,rs,imm` (R186). -/
def execXori (rt rs : Reg) (imm : BitVec 16) (s : State) :
    Host.Outcome State Fault Refusal :=
  .next (s.setReg rt (s.reg rs ^^^ zeroImm imm))

/-- `lui rt,imm` (R187). -/
def execLui (rt : Reg) (imm : BitVec 16) (s : State) :
    Host.Outcome State Fault Refusal :=
  .next (s.setReg rt (upperImm imm))

end Sys2Proof.Machine
end

