-- ==== Sys2Proof/Machine/Branch.lean ====
section
/-!
DEFINITION. I-format conditional branches (spec/46_branches.md). A branch taken sets `pc` to the target, one not
taken leaves it at `pc_i + 4`; there is no delay slot. The condition of a linking branch is read before
the link is written.
-/

namespace Sys2Proof.Machine

/-- `beq rs,rt,label` (R190). -/
def execBeq (rs rt : Reg) (imm : BitVec 16) (s : State) :
    Host.Outcome State Fault Refusal :=
  .next (s.branchIf (decide (s.reg rs = s.reg rt)) imm)

/-- `bne rs,rt,label` (R191). -/
def execBne (rs rt : Reg) (imm : BitVec 16) (s : State) :
    Host.Outcome State Fault Refusal :=
  .next (s.branchIf (decide (s.reg rs ≠ s.reg rt)) imm)

/-- `blez rs,label` (R192). -/
def execBlez (rs : Reg) (imm : BitVec 16) (s : State) :
    Host.Outcome State Fault Refusal :=
  .next (s.branchIf (decide ((s.reg rs).toInt ≤ 0)) imm)

/-- `bgtz rs,label` (R193). -/
def execBgtz (rs : Reg) (imm : BitVec 16) (s : State) :
    Host.Outcome State Fault Refusal :=
  .next (s.branchIf (decide ((s.reg rs).toInt > 0)) imm)

/-- `bltz rs,label` (R194). -/
def execBltz (rs : Reg) (imm : BitVec 16) (s : State) :
    Host.Outcome State Fault Refusal :=
  .next (s.branchIf (decide ((s.reg rs).toInt < 0)) imm)

/-- `bgez rs,label` (R195). -/
def execBgez (rs : Reg) (imm : BitVec 16) (s : State) :
    Host.Outcome State Fault Refusal :=
  .next (s.branchIf (decide ((s.reg rs).toInt ≥ 0)) imm)

/-- `bltzal rs,label` (R196): the link is written taken or not. -/
def execBltzal (rs : Reg) (imm : BitVec 16) (s : State) :
    Host.Outcome State Fault Refusal :=
  .next (s.link.branchIf (decide ((s.reg rs).toInt < 0)) imm)

/-- `bgezal rs,label` (R197): the link is written taken or not. -/
def execBgezal (rs : Reg) (imm : BitVec 16) (s : State) :
    Host.Outcome State Fault Refusal :=
  .next (s.link.branchIf (decide ((s.reg rs).toInt ≥ 0)) imm)

end Sys2Proof.Machine
end

