-- ==== Sys2Proof/Machine/Syscall.lean ====
section
/-!
DEFINITION. The syscall services (spec/44_r_control_system.md R162 to R175): which registers and memory
each reads and writes, and the request it hands to the host. A value the host answers is a free value
(notes/assumptions/9.md; DESIGN CHOICE, safe). A service that reads or writes memory checks its whole
range first (R172).
-/

namespace Sys2Proof.Machine

/-- The syscall code register `$v0`, which also takes a result (R163). -/
def codeReg : Reg := 2
/-- The argument registers `$a0`, `$a1`, `$a2` (R163). -/
def argReg0 : Reg := 4
def argReg1 : Reg := 5
def argReg2 : Reg := 6

/-- Check a fixed-length range `[a, a+n)` before anything else happens; out of range raises
`MemoryFault(a, n, syscall)` (R172). -/
def State.withRange (s : State) (a n : Nat) (body : State) : State :=
  if s.mem.inRange a n then body else s.raise (.memoryFault a n .syscall)

/-- Read the NUL-terminated string at `a` byte by byte. If no 0x00 comes before the end of memory, the
first byte read outside it faults: `MemoryFault(a', 1, syscall)` for the first address `a'` of the scan
that is not below MEM_SIZE (R167, R172; notes/assumptions/13.md). DEDUCED, unsafe. -/
def State.withString (s : State) (a : Nat) (body : List Byte → State) : State :=
  match s.mem.cString a with
  | some bytes => body bytes
  | none => s.raise (.memoryFault (max a s.mem.size) 1 .syscall)

/-- The host answers the word that goes to `x[2]`. -/
def State.answerWord (s : State) : State :=
  (s.setReg codeReg (Config.drawWord s.draws)).drew 1

/-- Service 1: print `s(x[4])`. -/
def State.servicePrintInt (s : State) : State := s.ask (.printInt (s.reg argReg0).toInt)

/-- Service 4: print the string at `x[4]`. -/
def State.servicePrintString (s : State) : State :=
  s.withString (s.reg argReg0).toNat fun bytes => s.ask (.printString bytes)

/-- Service 5: `x[2] <- wrap32(n)` for the host's integer `n`. -/
def State.serviceReadInt (s : State) : State :=
  ((s.ask .readInt).setReg codeReg (wrap32 (Config.drawInt s.draws))).drew 1

/-- Service 8: the host writes `k <= u(x[5])` bytes at `x[4]` (R169). The count that R166 gives the answer
beside its bytes goes nowhere by any rule: none is drawn, and `k` is the number of bytes answered
(notes/assumptions/14.md). DESIGN CHOICE, safe. -/
def State.serviceReadLine (s : State) : State :=
  s.withRange (s.reg argReg0).toNat (s.reg argReg1).toNat
    (((s.ask (.readLine (s.reg argReg0) (s.reg argReg1))).setMem
      (s.mem.setBytes (s.reg argReg0).toNat
        ((Config.drawBytes s.draws).take (s.reg argReg1).toNat))).drew 1)

/-- Service 11: print the byte `x[4][7:0]`. -/
def State.servicePrintChar (s : State) : State :=
  s.ask (.printChar ((s.reg argReg0).extractLsb' 0 8))

/-- Service 12: `x[2] <- c` for the host's word `c`. -/
def State.serviceReadChar (s : State) : State := (s.ask .readChar).answerWord

/-- Service 13: open the file whose path stands at `x[4]`; `x[2] <- h`. -/
def State.serviceOpen (s : State) : State :=
  s.withString (s.reg argReg0).toNat fun path =>
    (s.ask (.openFile path (s.reg argReg1) (s.reg argReg2))).answerWord

/-- Service 14: the host writes `k <= u(x[6])` bytes at `x[5]` and answers a count that goes to `x[2]`
(R169). Nothing ties the count to `k` (notes/assumptions/14.md). DESIGN CHOICE, safe. -/
def State.serviceReadFile (s : State) : State :=
  s.withRange (s.reg argReg1).toNat (s.reg argReg2).toNat
    (((s.ask (.readFile (s.reg argReg0) (s.reg argReg1) (s.reg argReg2))).setMem
      (s.mem.setBytes (s.reg argReg1).toNat
        ((Config.drawBytes s.draws).take (s.reg argReg2).toNat))).answerWord)

/-- Service 15: hand the bytes `[x[5], x[5]+u(x[6]))` to the host; `x[2]` takes its count. -/
def State.serviceWriteFile (s : State) : State :=
  s.withRange (s.reg argReg1).toNat (s.reg argReg2).toNat
    ((s.ask (.writeFile (s.reg argReg0)
      (s.mem.bytes (s.reg argReg1).toNat (s.reg argReg2).toNat))).answerWord)

/-- Service 16: close handle `x[4]`. -/
def State.serviceClose (s : State) : State := s.ask (.closeFile (s.reg argReg0))

/-- Service 18: take a snapshot; the host is told if the one it replaces was never compared (R173).
The copied `pc` is the register's value during the body, `pc_i + 4`. -/
def State.serviceSnapshot (s : State) : State :=
  let t := { s with snap := some s.takeSnapshot, snapCompared := false }
  if s.snap.isSome && !s.snapCompared then t.ask .snapshotNeverCompared else t

/-- Service 19: report how many registers and bytes differ from the snapshot; with none, nothing
(R173; notes/assumptions/15.md). -/
def State.serviceCompare (s : State) : State :=
  match s.snap with
  | none => s
  | some k =>
    { s with snapCompared := true }.ask
      (.snapshotDiff (s.countRegDiff k) (s.countSpecialDiff k) (s.mem.countDiff k.mem))

/-- Service 30: `x[4] <- t[31:0]; x[5] <- t[63:32]` for the host's 64-bit time `t` (R174). -/
def State.serviceTime (s : State) : State :=
  (((s.ask .readTime).setReg argReg0 ((Config.drawTime s.draws).extractLsb' 0 32)).setReg argReg1
    ((Config.drawTime s.draws).extractLsb' 32 32)).drew 1

/-- Services 31 and 33: a tone of frequency `x[4]` and duration `x[5]` (R174). -/
def State.serviceTone (s : State) : State :=
  s.ask (.tone (s.reg codeReg) (s.reg argReg0) (s.reg argReg1))

/-- Service 32: wait `x[4]` milliseconds (R174). -/
def State.serviceSleep (s : State) : State := s.ask (.sleep (s.reg argReg0))

/-- Services 34, 35, 36: print `x[4]` as hexadecimal, binary, unsigned decimal. -/
def State.servicePrintHex (s : State) : State := s.ask (.printHex (s.reg argReg0))
def State.servicePrintBinary (s : State) : State := s.ask (.printBinary (s.reg argReg0))
def State.servicePrintUnsigned (s : State) : State := s.ask (.printUnsigned (s.reg argReg0).toNat)

/-- The service table (R164), service 9 (R171), and every other code, which does nothing (R175). -/
def State.service (s : State) (code : Nat) : State :=
  match code with
  | 1 => s.servicePrintInt
  | 4 => s.servicePrintString
  | 5 => s.serviceReadInt
  | 8 => s.serviceReadLine
  | 9 => s.refuse
  | 10 => s.exit 0
  | 11 => s.servicePrintChar
  | 12 => s.serviceReadChar
  | 13 => s.serviceOpen
  | 14 => s.serviceReadFile
  | 15 => s.serviceWriteFile
  | 16 => s.serviceClose
  | 17 => s.exit (s.reg argReg0)
  | 18 => s.serviceSnapshot
  | 19 => s.serviceCompare
  | 30 => s.serviceTime
  | 31 => s.serviceTone
  | 32 => s.serviceSleep
  | 33 => s.serviceTone
  | 34 => s.servicePrintHex
  | 35 => s.servicePrintBinary
  | 36 => s.servicePrintUnsigned
  | _ => s

end Sys2Proof.Machine
end

