-- ==== Sys2Proof/Machine/Control.lean ====
section
/-!
DEFINITION. R-format control and system instructions (spec/44_r_control_system.md R160 to R162).
-/

namespace Sys2Proof.Machine

/-- `jr rs` (R160): no link, no alignment check here; a misaligned target faults at the next fetch. -/
def execJr (rs : Reg) (s : State) : Host.Outcome State Fault Refusal :=
  .next (s.setPc (s.reg rs))

/-- `break` (R161): the run is suspended and handed to the debugger; the next `step` is the debugger's
turn (notes/assumptions/12.md). -/
def execBrk (s : State) : Host.Outcome State Fault Refusal :=
  .next s.suspend

/-- `syscall` (R162): the service whose code is in `x[2]`. -/
def execSyscall (s : State) : Host.Outcome State Fault Refusal :=
  .next (s.service (s.reg codeReg).toNat)

end Sys2Proof.Machine
end

