-- ==== Sys2Proof/Machine/Jump.lean ====
section
/-!
DEFINITION. J-format jumps (spec/48_jumps.md): the top four bits come from the advanced `pc`, which is also the link.
-/

namespace Sys2Proof.Machine

/-- `j label` (R210). -/
def execJ (target : BitVec 26) (s : State) :
    Host.Outcome State Fault Refusal :=
  .next (s.setPc (s.jumpTarget target))

/-- `jal label` (R211): `x[31] <- pc_i + 4`, then the jump. -/
def execJal (target : BitVec 26) (s : State) :
    Host.Outcome State Fault Refusal :=
  .next (s.link.setPc (s.jumpTarget target))

end Sys2Proof.Machine
end

