-- ==== Sys2Proof/Machine/LoadStore.lean ====
section
/-!
DEFINITION. I-format loads and stores (spec/47_loadstore.md): little-endian, with no alignment requirement.
-/

namespace Sys2Proof.Machine

/-- `lb rt,imm(rs)` (R201): sign-extended byte. -/
def execLb (rt : Reg) (imm : BitVec 16) (rs : Reg) (s : State) :
    Host.Outcome State Fault Refusal :=
  .next (s.load rt rs imm 1 signByte)

/-- `lh rt,imm(rs)` (R202): sign-extended halfword. -/
def execLh (rt : Reg) (imm : BitVec 16) (rs : Reg) (s : State) :
    Host.Outcome State Fault Refusal :=
  .next (s.load rt rs imm 2 signHalf)

/-- `lw rt,imm(rs)` (R203): word. -/
def execLw (rt : Reg) (imm : BitVec 16) (rs : Reg) (s : State) :
    Host.Outcome State Fault Refusal :=
  .next (s.load rt rs imm 4 id)

/-- `lbu rt,imm(rs)` (R204): zero-extended byte. -/
def execLbu (rt : Reg) (imm : BitVec 16) (rs : Reg) (s : State) :
    Host.Outcome State Fault Refusal :=
  .next (s.load rt rs imm 1 zeroByte)

/-- `lhu rt,imm(rs)` (R205): zero-extended halfword. -/
def execLhu (rt : Reg) (imm : BitVec 16) (rs : Reg) (s : State) :
    Host.Outcome State Fault Refusal :=
  .next (s.load rt rs imm 2 zeroHalf)

/-- `sb rt,imm(rs)` (R206): low byte. -/
def execSb (rt : Reg) (imm : BitVec 16) (rs : Reg) (s : State) :
    Host.Outcome State Fault Refusal :=
  .next (s.store rt rs imm 1)

/-- `sh rt,imm(rs)` (R207): low halfword. -/
def execSh (rt : Reg) (imm : BitVec 16) (rs : Reg) (s : State) :
    Host.Outcome State Fault Refusal :=
  .next (s.store rt rs imm 2)

/-- `sw rt,imm(rs)` (R208): word. -/
def execSw (rt : Reg) (imm : BitVec 16) (rs : Reg) (s : State) :
    Host.Outcome State Fault Refusal :=
  .next (s.store rt rs imm 4)

end Sys2Proof.Machine
end

