-- ==== Sys2Proof/Machine/MulDiv.lean ====
section
/-!
DEFINITION. Multiply, divide and HI/LO transfer (spec/43_muldiv.md).
-/

namespace Sys2Proof.Machine

/-- `HI <- wrap32(p >> 32); LO <- wrap32(p)` for an exact product (R150, R151). -/
def State.setProduct (s : State) (p : Int) : State := s.setHiLo (wrap32 (p >>> (32 : Nat))) (wrap32 p)

/-- The signed division of R152. The quotient of -2^31 by -1 does not fit, and the rule leaves HI and LO
as draws: two free values (notes/assumptions/10.md). DESIGN CHOICE, safe. -/
def State.divSigned (s : State) (a b : Int) : State :=
  if b = 0 then s.raise (.divideByZero s.pcI)
  else if a = -2 ^ 31 ∧ b = -1 then
    (s.setHiLo (Config.drawWord s.draws) (Config.drawWord (s.draws + 1))).drew 2
  else s.setHiLo (wrap32 (a - a.tdiv b * b)) (wrap32 (a.tdiv b))

/-- The unsigned division of R153. -/
def State.divUnsigned (s : State) (a b : Nat) : State :=
  if b = 0 then s.raise (.divideByZero s.pcI)
  else s.setHiLo (wrap32 (a % b : Nat)) (wrap32 (a / b : Nat))

/-- `mult rs,rt` (R150): signed 32x32 to 64-bit multiply. -/
def execMult (rs rt : Reg) (s : State) :
    Host.Outcome State Fault Refusal :=
  .next (s.setProduct ((s.reg rs).toInt * (s.reg rt).toInt))

/-- `multu rs,rt` (R151): unsigned 32x32 to 64-bit multiply. -/
def execMultu (rs rt : Reg) (s : State) :
    Host.Outcome State Fault Refusal :=
  .next (s.setProduct ((s.reg rs).toNat * (s.reg rt).toNat : Nat))

/-- `div rs,rt` (R152): LO the quotient truncated toward zero, HI the remainder. -/
def execDiv (rs rt : Reg) (s : State) :
    Host.Outcome State Fault Refusal :=
  .next (s.divSigned (s.reg rs).toInt (s.reg rt).toInt)

/-- `divu rs,rt` (R153). -/
def execDivu (rs rt : Reg) (s : State) :
    Host.Outcome State Fault Refusal :=
  .next (s.divUnsigned (s.reg rs).toNat (s.reg rt).toNat)

/-- `mfhi rd` (R154). -/
def execMfhi (rd : Reg) (s : State) :
    Host.Outcome State Fault Refusal :=
  .next (s.setReg rd s.hi)

/-- `mflo rd` (R155). -/
def execMflo (rd : Reg) (s : State) :
    Host.Outcome State Fault Refusal :=
  .next (s.setReg rd s.lo)

end Sys2Proof.Machine
end

