-- ==== Sys2Proof/Machine/Shift.lean ====
section
/-!
DEFINITION. R-format shift instructions (spec/42_r_shift.md): the shifted value is `x[rt]`, the result goes to
`x[rd]`, and no amount reaches 32.
-/

namespace Sys2Proof.Machine

/-- `sll rd,rt,shamt` (R140). -/
def execSll (rd rt : Reg) (sh : BitVec 5) (s : State) :
    Host.Outcome State Fault Refusal :=
  .next (s.setReg rd (s.reg rt <<< sh.toNat))

/-- `srl rd,rt,shamt` (R141): zeros enter. -/
def execSrl (rd rt : Reg) (sh : BitVec 5) (s : State) :
    Host.Outcome State Fault Refusal :=
  .next (s.setReg rd (s.reg rt >>> sh.toNat))

/-- `sra rd,rt,shamt` (R142): copies of bit 31 enter. -/
def execSra (rd rt : Reg) (sh : BitVec 5) (s : State) :
    Host.Outcome State Fault Refusal :=
  .next (s.setReg rd ((s.reg rt).sshiftRight sh.toNat))

/-- `sllv rd,rt,rs` (R143). -/
def execSllv (rd rt rs : Reg) (s : State) :
    Host.Outcome State Fault Refusal :=
  .next (s.setReg rd (s.reg rt <<< (shiftAmount (s.reg rs)).toNat))

/-- `srlv rd,rt,rs` (R144). -/
def execSrlv (rd rt rs : Reg) (s : State) :
    Host.Outcome State Fault Refusal :=
  .next (s.setReg rd (s.reg rt >>> (shiftAmount (s.reg rs)).toNat))

/-- `srav rd,rt,rs` (R145). -/
def execSrav (rd rt rs : Reg) (s : State) :
    Host.Outcome State Fault Refusal :=
  .next (s.setReg rd ((s.reg rt).sshiftRight (shiftAmount (s.reg rs)).toNat))

end Sys2Proof.Machine
end

