-- ==== Sys2Proof/Machine/Run.lean ====
section
/-!
DEFINITION. One step of the loop (spec/40_dispatch.md R100 to R104, R106): fetch, advance, decode,
execute; the debugger's turn while the run is suspended; and no step once it is over. `Step.lean` only
calls what stands here.
-/

namespace Sys2Proof.Machine

/-- Apply a change to the state a step left; a fault or a refusal passes through. -/
def mapNext (f : State → State) :
    Host.Outcome State Fault Refusal → Host.Outcome State Fault Refusal
  | .next s => .next (f s)
  | .fault r => .fault r
  | .refused r => .refused r

/-- Decode a fetched word and run its body in the advanced state; an illegal word raises
`IllegalInstruction(pc_i, w)` after the advance (R103). -/
def runWord (w : Word) (s : State) : Host.Outcome State Fault Refusal :=
  match decode w with
  | .ok i => exec i s
  | .error _ => .next (s.raise (.illegalInstruction s.pcI w))

/-- Fetch, advance, decode and execute (R100 to R103). A fetch fault comes before the advance, so `pc`
still holds the address that could not be fetched, and that is `pc_fault`. -/
def runInstruction (s : State) : Host.Outcome State Fault Refusal :=
  match s.fetch with
  | .ok w => runWord w s.advance
  | .error k => .next (s.endFaulted k s.pc)

/-- One step. While `Running`, one instruction, after which a single-stepped run is suspended again
(spec/44_r_control_system.md R165); while `Suspended`, the debugger's turn; once the run is over, no
step is enabled, and the answer says so by name (notes/assumptions/6.md, 7.md, 8.md). -/
def stepOnce (s : State) : Host.Outcome State Fault Refusal :=
  match s.status with
  | .running => mapNext State.afterStep (runInstruction s)
  | .suspended => .next s.debuggerTurn
  | .exited status => .fault (.runExited status)
  | .faulted kind pcFault =>
    if s.refused then .refused (.unimplementedSyscall pcFault)
    else .fault (.runFaulted kind pcFault)

/-- `s` with the bytes of a word at `pc`, and with the run status `Running`, which a fetch needs (R100):
what the loader's copy of a one-word text does (notes/assumptions/5.md). -/
def State.placeWord (s : State) (w : Word) : State :=
  { s with
    mem := s.mem.setBytes s.pc.toNat (bytesOfWord w)
    status := .running
    refused := false }

end Sys2Proof.Machine
end

