-- ==== Sys2Proof/Machine/Step.lean ====
section
/-!
DEFINITION. The step of the machine, and a state with one instruction placed where the step fetches.
-/

namespace Sys2Proof.Machine

/-- One step (spec/40_dispatch.md R100 to R108; see `stepOnce`). -/
def step (s : State) : Host.Outcome State Fault Refusal := stepOnce s

/-- `s` with the instruction whose low `nbits` bits are `w` (and whose other bits are 0) stored where
`step` fetches its next instruction. -/
def State.withFetchWord (s : State) (nbits w : Nat) : State :=
  s.placeWord (BitVec.ofNat 32 (w % 2 ^ nbits))

end Sys2Proof.Machine
end

