-- ==== Sys2Proof/Machine/AsmText.lean ====
section
/-!
DEFINITION. The operand syntax of the assembler (spec/30_encoding.md R78 to R80): names, literals,
memory operands, data-address slices, and the splitting of a line. Source text is a list of characters.
A form the spec does not describe is refused (notes/assumptions/19.md; DESIGN CHOICE, safe: no word
reaches memory).
-/

namespace Sys2Proof.Machine

/-- The fatal assembly errors (R78 to R88; spec/93_implementation_defined.md B15 to B19). -/
inductive AsmError where
  /-- A register operand is not `$name` with a name of R21. -/
  | missingRegister
  /-- An immediate is neither a literal nor a label. -/
  | nonNumericImmediate
  /-- The operands do not have the mnemonic's shape (R81). -/
  | badOperands
  | unresolvedLabel (name : String)
  | duplicateLabel (name : String)
  /-- Raised only when `unknownMnemonicFatal` is set (R88). -/
  | unknownMnemonic (name : String)
  /-- A branch displacement does not fit 16 bits (R84). -/
  | displacementOutOfRange
  /-- A jump field would not reach its label (R85). -/
  | targetOutOfRange
  /-- A relocation reached a word of another format: the fatal internal error of R85. -/
  | badRelocation
  /-- A pseudo-instruction names `$at` itself (R82). -/
  | pseudoNamesAt
  /-- A data line is not `label: .directive value...`, or its values do not fit (R87;
  spec/93_implementation_defined.md B17), or its directive is not in R87's table or has no value
  (notes/assumptions/19.md). -/
  | badDirective
  /-- A text line has a label and an instruction on it or a trailing comment (R78;
  spec/93_implementation_defined.md B19), or is a directive (notes/assumptions/19.md). -/
  | badLine
  /-- A line stands outside a section, or a section marker stands twice. -/
  | badSection
  /-- The text segment is empty (R88). -/
  | emptyText
  /-- A length or a load address does not fit its int32 field of the container
  (notes/assumptions/21.md). DESIGN CHOICE, safe. -/
  | containerFieldTooWide
  deriving DecidableEq, Repr

abbrev Chars := List Char

def isBlank (c : Char) : Bool := c = ' ' || c = '\t' || c = '\r'

/-- Drop blanks at both ends. -/
def trim (l : Chars) : Chars :=
  ((l.dropWhile isBlank).reverse.dropWhile isBlank).reverse

/-- Split at every `sep`. -/
def splitAt (sep : Char) : Chars → List Chars
  | [] => [[]]
  | c :: rest =>
    if c = sep then [] :: splitAt sep rest
    else match splitAt sep rest with
      | [] => [[c]]
      | part :: parts => (c :: part) :: parts

/-- The first word of a trimmed line, and the rest, trimmed. -/
def firstWord (l : Chars) : Chars × Chars :=
  (l.takeWhile fun c => !isBlank c, trim (l.dropWhile fun c => !isBlank c))

/-- The operands of an instruction line: split at commas, each trimmed; none when nothing is there. -/
def operands (l : Chars) : List Chars :=
  if l = [] then [] else (splitAt ',' l).map trim

/-- A label's name: letters, digits, `_` and `.`, not beginning with a digit. -/
def isName (l : Chars) : Bool :=
  match l with
  | [] => false
  | c :: _ => !c.isDigit && l.all fun d => d.isAlphanum || d = '_' || d = '.'

/-- The register table of spec/10_state.md R21. -/
def registerNumber (name : String) : Option Reg :=
  match name with
  | "zero" => some 0 | "at" => some 1 | "v0" => some 2 | "v1" => some 3
  | "a0" => some 4 | "a1" => some 5 | "a2" => some 6 | "a3" => some 7
  | "t0" => some 8 | "t1" => some 9 | "t2" => some 10 | "t3" => some 11
  | "t4" => some 12 | "t5" => some 13 | "t6" => some 14 | "t7" => some 15
  | "s0" => some 16 | "s1" => some 17 | "s2" => some 18 | "s3" => some 19
  | "s4" => some 20 | "s5" => some 21 | "s6" => some 22 | "s7" => some 23
  | "t8" => some 24 | "t9" => some 25 | "k0" => some 26 | "k1" => some 27
  | "gp" => some 28 | "sp" => some 29 | "fp" => some 30 | "ra" => some 31
  | _ => none

/-- A register operand `$name` (R79). -/
def parseReg (tok : Chars) : Except AsmError Reg :=
  match tok with
  | '$' :: name =>
    match registerNumber (String.ofList name) with
    | some r => .ok r
    | none => .error .missingRegister
  | _ => .error .missingRegister

/-- The value of a hexadecimal digit. -/
def hexDigit (c : Char) : Option Nat :=
  if c.isDigit then some (c.toNat - '0'.toNat)
  else if 'a' ≤ c ∧ c ≤ 'f' then some (c.toNat - 'a'.toNat + 10)
  else if 'A' ≤ c ∧ c ≤ 'F' then some (c.toNat - 'A'.toNat + 10)
  else none

/-- The value of digits in a base, most significant first. -/
def parseDigits (base : Nat) (acc : Nat) : Chars → Option Nat
  | [] => some acc
  | c :: rest =>
    match hexDigit c with
    | some d => if d < base then parseDigits base (acc * base + d) rest else none
    | none => none

/-- Decimal or `0x` hexadecimal, without a sign. -/
def parseNat : Chars → Option Nat
  | [] => none
  | '0' :: 'x' :: c :: rest => parseDigits 16 0 (c :: rest)
  | l => parseDigits 10 0 l

/-- A numeric literal (R80): decimal, decimal with a leading `-`, or `0x` hexadecimal. -/
def parseLiteral : Chars → Option Int
  | '-' :: c :: rest => (parseDigits 10 0 (c :: rest)).map fun n => -(n : Int)
  | l => (parseNat l).map fun n => (n : Int)

/-- Which half of a data address an operand names (R79, R86). -/
inductive Half where
  | high
  | low
  deriving DecidableEq, Repr

/-- An immediate operand: a literal, or a data label with an optional slice. -/
inductive ImmOperand where
  | literal (v : Int)
  | label (name : String) (half : Option Half)
  deriving DecidableEq, Repr

/-- `label[31:16]`, `label[15:0]`, `label` or a literal. -/
def parseImm (tok : Chars) : Except AsmError ImmOperand :=
  match parseLiteral tok with
  | some v => .ok (.literal v)
  | none =>
    let name := tok.takeWhile fun c => c ≠ '['
    let slice := tok.dropWhile fun c => c ≠ '['
    if !isName name then .error .nonNumericImmediate
    else if slice = [] then .ok (.label (String.ofList name) none)
    else if slice = "[31:16]".toList then .ok (.label (String.ofList name) (some .high))
    else if slice = "[15:0]".toList then .ok (.label (String.ofList name) (some .low))
    else .error .badOperands

/-- A label operand of a branch or a jump. -/
def parseLabel (tok : Chars) : Except AsmError String :=
  if isName tok then .ok (String.ofList tok) else .error .badOperands

/-- A memory operand `offset(register)`, "parsed by splitting on parentheses" (R79). -/
def parseMem (tok : Chars) : Except AsmError (ImmOperand × Reg) :=
  match splitAt '(' tok with
  | [offset, rest] =>
    match splitAt ')' rest with
    | [name, []] =>
      match parseImm (trim offset), parseReg (trim name) with
      | .ok v, .ok r => .ok (v, r)
      | .error e, _ => .error e
      | _, .error e => .error e
    | _ => .error .badOperands
  | _ => .error .badOperands

end Sys2Proof.Machine
end

