-- ==== Sys2Proof/WellFormed.lean ====
section
/-!
DEFINITION. The checks on data that comes from outside the machine. An `Instr` needs none: its fields
are as wide as the encoding's (Syntax.lean). Checked here are the integers given to the codec's setters
(spec/30_encoding.md R66, R69), the literals of data directives (R87), and a program image against the
load constraints (spec/70_reset_and_hazards.md R242, R245).
-/

namespace Sys2Proof

/-- `0 <= v < 2^width`: the range in which an unsigned field holds `v` exactly (R69). -/
def WellFormed.fieldFits (width : Nat) (v : Int) : Bool :=
  decide (0 ≤ v) && decide (v < 2 ^ width)

/-- `[-32768, 32767]`: the range of the signed 16-bit immediate (R64, R69), and of a branch
displacement (R84). -/
def WellFormed.immFits (v : Int) : Bool :=
  decide (-32768 ≤ v) && decide (v ≤ 32767)

/-- `[-2^(8n-1), 2^(8n) - 1]`: the values an `n`-byte data directive accepts (R87, n = 1, 2 or 4). -/
def WellFormed.dataFits (n : Nat) (v : Int) : Bool :=
  decide (-(2 ^ (8 * n - 1)) ≤ v) && decide (v ≤ 2 ^ (8 * n) - 1)

/-- MEM_SIZE "is a positive integer no larger than 2^32" (R242). -/
def WellFormed.memSize (n : Nat) : Bool :=
  decide (0 < n) && decide (n ≤ 2 ^ 32)

/-- `text_len > 0` and `text_len mod 4 = 0` (R242). -/
def WellFormed.textLength (img : Config.Image) : Bool :=
  decide (0 < img.text.length) && decide (img.text.length % 4 = 0)

/-- `PROG_BASE mod 4 = 0` (R242). -/
def WellFormed.progBaseAligned (img : Config.Image) : Bool :=
  decide (img.progBase % 4 = 0)

/-- A segment of `len` bytes at `base` lies in a memory of `memSize` bytes (R242). -/
def WellFormed.segmentInside (memSize : Nat) (base : Int) (len : Nat) : Bool :=
  decide (0 ≤ base) && decide (base + len ≤ memSize)

/-- The text range and a non-empty data range do not overlap (R242). -/
def WellFormed.segmentsDisjoint (img : Config.Image) : Bool :=
  match img.data with
  | none => true
  | some (bytes, base) =>
    decide (bytes.length = 0) || decide (img.progBase + img.text.length ≤ base) ||
      decide (base + bytes.length ≤ img.progBase)

/-- The data segment, if there is one, lies in memory (R242). -/
def WellFormed.dataInside (memSize : Nat) (img : Config.Image) : Bool :=
  match img.data with
  | none => true
  | some (bytes, base) => WellFormed.segmentInside memSize base bytes.length

/-- The value of an int32 field (R241). -/
def WellFormed.int32Fits (v : Int) : Bool :=
  decide (-2 ^ 31 ≤ v) && decide (v < 2 ^ 31)

/-- The lengths and load addresses of an image fit the int32 fields of a container (R241). -/
def WellFormed.containerFields (img : Config.Image) : Bool :=
  WellFormed.int32Fits img.text.length && WellFormed.int32Fits img.progBase &&
    match img.data with
    | none => true
    | some (bytes, base) => WellFormed.int32Fits bytes.length && WellFormed.int32Fits base

/-- Every load constraint of R242, and the constraint on INIT_PC of R245. -/
def WellFormed.image (p : Config.Params) (img : Config.Image) : Bool :=
  WellFormed.memSize p.memSize && WellFormed.textLength img && WellFormed.progBaseAligned img &&
    WellFormed.segmentInside p.memSize img.progBase img.text.length &&
    WellFormed.dataInside p.memSize img && WellFormed.segmentsDisjoint img &&
    decide (p.initPc = img.progBase)

end Sys2Proof
end

