-- ==== Sys2Proof/Machine/Loader.lean ====
section
/-!
DEFINITION. The container and the construction of the machine from it
(spec/70_reset_and_hazards.md R240 to R245). A container that breaks a constraint is refused by name and
no state is built.
-/

namespace Sys2Proof.Machine

/-- The fatal load errors (R240 to R242, R245). -/
inductive LoadError where
  /-- The first five bytes are not `.text`. -/
  | badMagic
  /-- The file is shorter than its lengths. -/
  | truncated
  /-- The bytes after the text segment do not begin with `.data`. -/
  | badTail
  /-- Bytes follow the data segment (notes/assumptions/18.md). DESIGN CHOICE, safe. -/
  | trailingBytes
  /-- MEM_SIZE is not a positive integer no larger than 2^32. -/
  | badMemSize
  /-- `text_len` is not a positive multiple of 4. -/
  | badTextLength
  /-- `data_len` is negative. -/
  | badDataLength
  | progBaseMisaligned
  | textOutsideMemory
  | dataOutsideMemory
  | segmentsOverlap
  /-- INIT_PC is not the container's program load address (R245). -/
  | initPcMismatch
  deriving DecidableEq, Repr

/-- ASCII `.text`, no NUL. -/
def textMagic : List Byte := [0x2E, 0x74, 0x65, 0x78, 0x74]
/-- ASCII `.data`. -/
def dataMagic : List Byte := [0x2E, 0x64, 0x61, 0x74, 0x61]

/-- A little-endian int32 field. A value outside int32 is reduced modulo 2^32, and would not read back:
the writer (`assembleContainer`) refuses such an image first (notes/assumptions/21.md; DESIGN CHOICE,
safe). -/
def int32Bytes (v : Int) : List Byte := bytesOfWord (wrap32 v)

/-- The bytes of a container (R241). -/
def containerBytes (img : Config.Image) : List Byte :=
  textMagic ++ int32Bytes img.text.length ++ int32Bytes img.progBase ++ img.text ++
    match img.data with
    | none => []
    | some (bytes, base) => dataMagic ++ int32Bytes bytes.length ++ int32Bytes base ++ bytes

/-- Split off exactly `n` bytes. -/
def splitBytes (n : Nat) (l : List Byte) : Except LoadError (List Byte × List Byte) :=
  if n ≤ l.length then .ok (l.take n, l.drop n) else .error .truncated

/-- Read a little-endian int32 field. -/
def readInt32 : List Byte → Except LoadError (Int × List Byte)
  | b0 :: b1 :: b2 :: b3 :: rest => .ok ((wordOfBytes b0 b1 b2 b3).toInt, rest)
  | _ => .error .truncated

/-- The data part of a container: nothing, or `.data` and the rest of R241. -/
def parseData (l : List Byte) : Except LoadError (Option (List Byte × Int)) :=
  if l = [] then .ok none
  else if l.take 5 ≠ dataMagic then .error .badTail
  else do
    let (len, l) ← readInt32 (l.drop 5)
    let (base, l) ← readInt32 l
    if len < 0 then .error .badDataLength
    else do
      let (bytes, l) ← splitBytes len.toNat l
      if l = [] then .ok (some (bytes, base)) else .error .trailingBytes

/-- Parse a container (R240 step 1, R241). -/
def parseContainer (l : List Byte) : Except LoadError Config.Image :=
  if l.take 5 ≠ textMagic then .error .badMagic
  else do
    let (len, l) ← readInt32 (l.drop 5)
    let (base, l) ← readInt32 l
    if len ≤ 0 then .error .badTextLength
    else do
      let (text, l) ← splitBytes len.toNat l
      let data ← parseData l
      .ok { text := text, progBase := base, data := data }

/-- The first load constraint an image breaks, if it breaks one (R242, R245). -/
def imageError (p : Config.Params) (img : Config.Image) : Option LoadError :=
  if !WellFormed.memSize p.memSize then some .badMemSize
  else if !WellFormed.textLength img then some .badTextLength
  else if !WellFormed.progBaseAligned img then some .progBaseMisaligned
  else if !WellFormed.segmentInside p.memSize img.progBase img.text.length then
    some .textOutsideMemory
  else if !WellFormed.dataInside p.memSize img then some .dataOutsideMemory
  else if !WellFormed.segmentsDisjoint img then some .segmentsOverlap
  else if p.initPc ≠ img.progBase then some .initPcMismatch
  else none

/-- The memory of R240 steps 3 to 5: `init_mem`, then the text, then the data. -/
def imageMemory (p : Config.Params) (img : Config.Image) : Memory :=
  let withText := (Memory.ofFn p.memSize p.initMem).setBytes img.progBase.toNat img.text
  match img.data with
  | none => withText
  | some (bytes, base) => withText.setBytes base.toNat bytes

/-- The state of R240 step 6 and R243. -/
def initialState (p : Config.Params) (img : Config.Image) : State where
  regs := Vector.ofFn fun i => if i = 0 then 0 else p.initGpr i
  hi := p.initHi
  lo := p.initLo
  pc := wrap32 img.progBase
  mem := imageMemory p img
  status := .running
  refused := false
  snap := none
  snapCompared := false
  stepping := false
  draws := 0
  requests := []

/-- Construction from a parsed image (R240 steps 2 to 6). -/
def construct (p : Config.Params) (img : Config.Image) : Except LoadError State :=
  match imageError p img with
  | some e => .error e
  | none => .ok (initialState p img)

/-- Construction from a container (R240). -/
def load (p : Config.Params) (container : List Byte) : Except LoadError State :=
  match parseContainer container with
  | .error e => .error e
  | .ok img => construct p img

end Sys2Proof.Machine
end

