-- ==== Sys2Proof/Machine/Asm.lean ====
section
/-!
DEFINITION. The encoding side of the assembler (spec/00_scope.md R3; spec/30_encoding.md R78 to R88): how
the fields of each mnemonic are filled (R81), the pseudo-instructions (R82), labels and relocation
(R83 to R86), data directives (R87) and the errors (R88). It decides which words reach memory; nothing
here is part of a step.
-/

namespace Sys2Proof.Machine

/-! ### Relocations and emitted words -/

/-- A deferred resolution, applied once all labels are known (R12, R84 to R86). -/
inductive Reloc where
  | branch (label : String)
  | jump (label : String)
  | data (label : String) (half : Option Half)
  deriving DecidableEq, Repr

/-- A word of the text segment, with the relocation it still needs. -/
structure Emit where
  word  : Word
  reloc : Option Reloc
  deriving DecidableEq, Repr

/-- A finished word. -/
def emit (i : Instr) : Emit := { word := encode i, reloc := none }

/-- An I-format word whose 16-bit field is an immediate operand. -/
def emitImm (op : Int) (rs rt : Reg) (v : ImmOperand) : Emit :=
  match v with
  | .literal n => { word := encodeI op rs.val rt.val n, reloc := none }
  | .label name half => { word := encodeI op rs.val rt.val 0, reloc := some (.data name half) }

/-- A branch to a label. -/
def emitBranch (op : Int) (rs rt : Reg) (label : String) : Emit :=
  { word := encodeI op rs.val rt.val 0, reloc := some (.branch label) }

/-- A jump to a label. -/
def emitJump (op : Int) (label : String) : Emit :=
  { word := encodeJ op 0, reloc := some (.jump label) }

/-! ### Real instructions (R81) -/

/-- The operand shapes of R81, with the key the mnemonic puts in the word. -/
inductive Shape where
  | rdRsRt (funct : Int)
  | rdRtShamt (funct : Int)
  | rdRtRs (funct : Int)
  | rsRt (funct : Int)
  | rdOnly (funct : Int)
  | rsOnly (funct : Int)
  | bare (funct : Int)
  | rtRsImm (op : Int)
  | rtImm (op : Int)
  | rsRtLabel (op : Int)
  | rsLabel (op : Int) (rt : Reg)
  | rtMem (op : Int)
  | target (op : Int)
  deriving DecidableEq, Repr

/-- The shape and key of each mnemonic (R71 to R73, R81). -/
def shapeOf (mnemonic : String) : Option Shape :=
  match mnemonic with
  | "sll" => some (.rdRtShamt 0x00)
  | "srl" => some (.rdRtShamt 0x02)
  | "sra" => some (.rdRtShamt 0x03)
  | "sllv" => some (.rdRtRs 0x04)
  | "srlv" => some (.rdRtRs 0x06)
  | "srav" => some (.rdRtRs 0x07)
  | "jr" => some (.rsOnly 0x08)
  | "syscall" => some (.bare 0x0C)
  | "break" => some (.bare 0x0D)
  | "mfhi" => some (.rdOnly 0x10)
  | "mflo" => some (.rdOnly 0x12)
  | "mult" => some (.rsRt 0x18)
  | "multu" => some (.rsRt 0x19)
  | "div" => some (.rsRt 0x1A)
  | "divu" => some (.rsRt 0x1B)
  | "add" => some (.rdRsRt 0x20)
  | "addu" => some (.rdRsRt 0x21)
  | "sub" => some (.rdRsRt 0x22)
  | "subu" => some (.rdRsRt 0x23)
  | "and" => some (.rdRsRt 0x24)
  | "or" => some (.rdRsRt 0x25)
  | "xor" => some (.rdRsRt 0x26)
  | "nor" => some (.rdRsRt 0x27)
  | "slt" => some (.rdRsRt 0x2A)
  | "sltu" => some (.rdRsRt 0x2B)
  | "bltz" => some (.rsLabel 0x01 0x00)
  | "bgez" => some (.rsLabel 0x01 0x01)
  | "bltzal" => some (.rsLabel 0x01 0x10)
  | "bgezal" => some (.rsLabel 0x01 0x11)
  | "j" => some (.target 0x02)
  | "jal" => some (.target 0x03)
  | "beq" => some (.rsRtLabel 0x04)
  | "bne" => some (.rsRtLabel 0x05)
  | "blez" => some (.rsLabel 0x06 0)
  | "bgtz" => some (.rsLabel 0x07 0)
  | "addi" => some (.rtRsImm 0x08)
  | "addiu" => some (.rtRsImm 0x09)
  | "slti" => some (.rtRsImm 0x0A)
  | "sltiu" => some (.rtRsImm 0x0B)
  | "andi" => some (.rtRsImm 0x0C)
  | "ori" => some (.rtRsImm 0x0D)
  | "xori" => some (.rtRsImm 0x0E)
  | "lui" => some (.rtImm 0x0F)
  | "lb" => some (.rtMem 0x20)
  | "lh" => some (.rtMem 0x21)
  | "lw" => some (.rtMem 0x23)
  | "lbu" => some (.rtMem 0x24)
  | "lhu" => some (.rtMem 0x25)
  | "sb" => some (.rtMem 0x28)
  | "sh" => some (.rtMem 0x29)
  | "sw" => some (.rtMem 0x2B)
  | _ => none

/-- An R-format word from its fields; unused fields are 0. -/
def emitR (rs rt rd : Reg) (shamt funct : Int) : Emit :=
  { word := encodeR 0 rs.val rt.val rd.val shamt funct, reloc := none }

/-- Fill the fields of a real instruction from its operands (R81). -/
def emitReal (shape : Shape) (ops : List Chars) : Except AsmError Emit :=
  match shape, ops with
  | .rdRsRt fn, [d, s, t] => do .ok (emitR (← parseReg s) (← parseReg t) (← parseReg d) 0 fn)
  | .rdRtShamt fn, [d, t, k] =>
    match parseLiteral k with
    | some v => do .ok (emitR 0 (← parseReg t) (← parseReg d) v fn)
    | none => .error .nonNumericImmediate
  | .rdRtRs fn, [d, t, s] => do .ok (emitR (← parseReg s) (← parseReg t) (← parseReg d) 0 fn)
  | .rsRt fn, [s, t] => do .ok (emitR (← parseReg s) (← parseReg t) 0 0 fn)
  | .rdOnly fn, [d] => do .ok (emitR 0 0 (← parseReg d) 0 fn)
  | .rsOnly fn, [s] => do .ok (emitR (← parseReg s) 0 0 0 fn)
  | .bare fn, [] => .ok (emitR 0 0 0 0 fn)
  | .rtRsImm op, [t, s, v] => do .ok (emitImm op (← parseReg s) (← parseReg t) (← parseImm v))
  | .rtImm op, [t, v] => do .ok (emitImm op 0 (← parseReg t) (← parseImm v))
  | .rsRtLabel op, [s, t, l] =>
    do .ok (emitBranch op (← parseReg s) (← parseReg t) (← parseLabel l))
  | .rsLabel op rt, [s, l] => do .ok (emitBranch op (← parseReg s) rt (← parseLabel l))
  | .rtMem op, [t, m] => do
    let (v, base) ← parseMem m
    .ok (emitImm op base (← parseReg t) v)
  | .target op, [l] => do .ok (emitJump op (← parseLabel l))
  | _, _ => .error .badOperands

/-! ### Pseudo-instructions (R82) -/

/-- `$at`, the assembler's scratch register. -/
def atReg : Reg := 1

/-- `li rd,imm`: `lui rd,(imm>>16)` then `ori rd,rd,imm`. -/
def liWords (rd : Reg) (imm : Int) : List Word :=
  [encodeI 0x0F (0 : Reg).val rd.val (imm >>> (16 : Nat)), encodeI 0x0D rd.val rd.val imm]

def emitLi (rd : Reg) (imm : Int) : List Emit :=
  (liWords rd imm).map fun w => { word := w, reloc := none }

/-- `la rd,label`: `lui rd,label[31:16]` then `ori rd,rd,label[15:0]`. -/
def emitLa (rd : Reg) (label : String) : List Emit :=
  [emitImm 0x0F 0 rd (.label label (some .high)), emitImm 0x0D rd rd (.label label (some .low))]

/-- A register operand of a pseudo-instruction; `$at` is refused
(spec/93_implementation_defined.md B16). -/
def parsePseudoReg (tok : Chars) : Except AsmError Reg :=
  match parseReg tok with
  | .ok r => if r = atReg then .error .pseudoNamesAt else .ok r
  | .error e => .error e

/-- A compare branch: `slt $at,a,b`, then beq or bne of `$at` and `$zero`. -/
def emitCompare (a b : Reg) (op : Int) (label : String) : List Emit :=
  [emit (.slt atReg a b), emitBranch op atReg 0 label]

/-- Three register operands. -/
def pseudoRegs3 (ops : List Chars) : Except AsmError (Reg × Reg × Reg) :=
  match ops with
  | [a, b, c] => do .ok (← parsePseudoReg a, ← parsePseudoReg b, ← parsePseudoReg c)
  | _ => .error .badOperands

/-- Two register operands and a label. -/
def pseudoBranch (ops : List Chars) : Except AsmError (Reg × Reg × String) :=
  match ops with
  | [a, b, l] => do .ok (← parsePseudoReg a, ← parsePseudoReg b, ← parseLabel l)
  | _ => .error .badOperands

/-- `beq rs,const,L`: `li $at,const` then `beq rs,$at,L`. -/
def emitBeqLiteral (s l : Chars) (v : Int) : Except AsmError (List Emit) := do
  .ok (emitLi atReg v ++ [emitBranch 0x04 (← parsePseudoReg s) atReg (← parseLabel l)])

/-- The expansion of a pseudo-instruction; nothing when the mnemonic is none. -/
def emitPseudo (mnemonic : String) (ops : List Chars) : Option (Except AsmError (List Emit)) :=
  match mnemonic with
  | "move" => some <| match ops with
    | [d, s] => do .ok [emit (.add (← parsePseudoReg d) (← parsePseudoReg s) 0)]
    | _ => .error .badOperands
  | "li" => some <| match ops with
    | [d, v] =>
      match parseLiteral v with
      | some n => do .ok (emitLi (← parsePseudoReg d) n)
      | none => .error .nonNumericImmediate
    | _ => .error .badOperands
  | "la" => some <| match ops with
    | [d, l] => do .ok (emitLa (← parsePseudoReg d) (← parseLabel l))
    | _ => .error .badOperands
  | "blt" => some do let (a, b, l) ← pseudoBranch ops; .ok (emitCompare a b 0x05 l)
  | "bgt" => some do let (a, b, l) ← pseudoBranch ops; .ok (emitCompare b a 0x05 l)
  | "ble" => some do let (a, b, l) ← pseudoBranch ops; .ok (emitCompare b a 0x04 l)
  | "bge" => some do let (a, b, l) ← pseudoBranch ops; .ok (emitCompare a b 0x04 l)
  | "mul" => some do let (d, a, b) ← pseudoRegs3 ops; .ok [emit (.mult a b), emit (.mflo d)]
  | "quo" => some do let (d, a, b) ← pseudoRegs3 ops; .ok [emit (.div a b), emit (.mflo d)]
  | "rem" => some do let (d, a, b) ← pseudoRegs3 ops; .ok [emit (.div a b), emit (.mfhi d)]
  | "remu" => some do let (d, a, b) ← pseudoRegs3 ops; .ok [emit (.divu a b), emit (.mfhi d)]
  | _ => none

/-- One instruction line: a pseudo-instruction, beq with a literal, a real instruction, or nothing known. -/
def emitLine (mnemonic : String) (ops : List Chars) : Option (Except AsmError (List Emit)) :=
  match emitPseudo mnemonic ops with
  | some r => some r
  | none =>
    match shapeOf mnemonic with
    | none => none
    | some shape => some <|
      match mnemonic, ops with
      | "beq", [s, v, l] =>
        match parseLiteral v with
        | some n => emitBeqLiteral s l n
        | none => do .ok [← emitReal shape ops]
      | _, _ => do .ok [← emitReal shape ops]

/-! ### Data directives (R87) -/

/-- `n` little-endian bytes of a value. -/
def dataBytes (n : Nat) (v : Int) : List Byte := Memory.bytesOf (wrap32 v) n

/-- The values of `.byte`, `.halfword` or `.word`. -/
def directiveValues (n : Nat) : List Chars → Except AsmError (List Byte)
  | [] => .ok []
  | tok :: rest =>
    match parseLiteral tok with
    | some v =>
      if WellFormed.dataFits n v then do .ok (dataBytes n v ++ (← directiveValues n rest))
      else .error .badDirective
    | none => .error .nonNumericImmediate

/-- The bytes of a quoted string: ASCII, without quotes, backslashes or escapes inside. -/
def quotedBytes (l : Chars) : Except AsmError (List Byte) :=
  match l with
  | '"' :: rest =>
    match rest.reverse with
    | '"' :: inner =>
      if inner.all fun c => c ≠ '"' && c ≠ '\\' && decide (c.toNat < 128) then
        .ok (inner.reverse.map fun c => BitVec.ofNat 8 c.toNat)
      else .error .badDirective
    | _ => .error .badDirective
  | _ => .error .badDirective

/-- The bytes a directive appends. A directive that R87's table does not have (`.float 1`) is fatal, as is
one of the table without a value: R87 says nothing of them, and R88's report and skip is for mnemonics
(notes/assumptions/19.md; DESIGN CHOICE, safe). -/
def directiveBytes (directive : String) (args : Chars) : Except AsmError (List Byte) :=
  match directive with
  | ".ascii" => quotedBytes args
  | ".asciiz" => do .ok ((← quotedBytes args) ++ [0])
  | ".byte" => if args = [] then .error .badDirective else directiveValues 1 (operands args)
  | ".halfword" => if args = [] then .error .badDirective else directiveValues 2 (operands args)
  | ".word" => if args = [] then .error .badDirective else directiveValues 4 (operands args)
  | ".space" =>
    match parseNat args with
    | some n => .ok (List.replicate n 0)
    | none => .error .badDirective
  | _ => .error .badDirective

/-! ### The two passes (R78, R83) -/

/-- Which section the lines stand in. -/
inductive Part where
  | before
  | text
  | data
  deriving DecidableEq, Repr

/-- What has been assembled so far. -/
structure AsmState where
  part       : Part
  seenText   : Bool
  seenData   : Bool
  words      : List Emit
  textLabels : List (String × Nat)
  bytes      : List Byte
  dataLabels : List (String × Nat)
  /-- The unknown mnemonics skipped with a report (R88). -/
  skipped    : List String
  deriving DecidableEq, Repr

def AsmState.start : AsmState where
  part := .before
  seenText := false
  seenData := false
  words := []
  textLabels := []
  bytes := []
  dataLabels := []
  skipped := []

def lookupLabel (table : List (String × Nat)) (name : String) : Option Nat :=
  (table.find? fun e => e.1 == name).map Prod.snd

/-- A label is defined exactly once (R78). -/
def AsmState.isDefined (a : AsmState) (name : String) : Bool :=
  (lookupLabel a.textLabels name).isSome || (lookupLabel a.dataLabels name).isSome

/-- Define a text label at `word_count * 4` (R78, R83). -/
def AsmState.defineTextLabel (a : AsmState) (name : Chars) : Except AsmError AsmState :=
  if !isName name then .error .badLine
  else if a.isDefined (String.ofList name) then .error (.duplicateLabel (String.ofList name))
  else .ok { a with textLabels := a.textLabels ++ [(String.ofList name, a.words.length * 4)] }

/-- Append the words of an instruction line; an unknown mnemonic is skipped or fatal (R88). -/
def AsmState.addInstruction (p : Config.AsmParams) (a : AsmState) (l : Chars) :
    Except AsmError AsmState :=
  let (mnemonic, rest) := firstWord l
  match emitLine (String.ofList mnemonic) (operands rest) with
  | some (.ok ws) => .ok { a with words := a.words ++ ws }
  | some (.error e) => .error e
  | none =>
    if p.unknownMnemonicFatal then .error (.unknownMnemonic (String.ofList mnemonic))
    else .ok { a with skipped := a.skipped ++ [String.ofList mnemonic] }

/-- A `:` stands in the line outside `[` and `]`: a label's colon, and not that of a data-address slice
such as `buf[31:16]` (R78, R79). The first argument says whether the line begins inside a bracket. -/
def hasLabelColon (inSlice : Bool) : Chars → Bool
  | [] => false
  | '[' :: rest => hasLabelColon true rest
  | ']' :: rest => hasLabelColon false rest
  | c :: rest => (c = ':' && !inSlice) || hasLabelColon inSlice rest

/-- A trimmed line of the text section. One that ends in `:` defines a label, named by what stands before
the `:` without blanks at its ends (R78; notes/assumptions/22.md, DESIGN CHOICE, safe). One with a `:`
elsewhere, that of a slice apart, has a label and more on it, and one with a `#` a trailing comment: both are
refused (R78; spec/93_implementation_defined.md B19). One that begins with `.` is a directive, of which R78
says nothing in this section: it is refused (notes/assumptions/19.md, DESIGN CHOICE, safe). Any other is an
instruction. -/
def textLine (p : Config.AsmParams) (a : AsmState) (l : Chars) : Except AsmError AsmState :=
  if l.contains '#' then .error .badLine
  else if l.getLast? = some ':' then a.defineTextLabel (trim l.dropLast)
  else if hasLabelColon false l || l.head? = some '.' then .error .badLine
  else a.addInstruction p l

/-- A line of the data section: `label: .directive value...`, the label at the bytes so far (R83, R87). -/
def dataLine (a : AsmState) (l : Chars) : Except AsmError AsmState :=
  let name := trim (l.takeWhile fun c => c ≠ ':')
  let (directive, args) := firstWord (trim ((l.dropWhile fun c => c ≠ ':').drop 1))
  if !isName name then .error .badDirective
  else if a.isDefined (String.ofList name) then .error (.duplicateLabel (String.ofList name))
  else do
    let bytes ← directiveBytes (String.ofList directive) args
    .ok { a with
      bytes := a.bytes ++ bytes
      dataLabels := a.dataLabels ++ [(String.ofList name, a.bytes.length)] }

/-- One source line, trimmed (R78). -/
def asmLine (p : Config.AsmParams) (a : AsmState) (l : Chars) : Except AsmError AsmState :=
  if l = [] || l.head? = some '#' then .ok a
  else if l = ".text".toList then
    if a.seenText then .error .badSection else .ok { a with part := .text, seenText := true }
  else if l = ".data".toList then
    if a.seenData then .error .badSection else .ok { a with part := .data, seenData := true }
  else match a.part with
    | .before => .error .badSection
    | .text => textLine p a l
    | .data => dataLine a l

def asmLines (p : Config.AsmParams) : AsmState → List Chars → Except AsmError AsmState
  | a, [] => .ok a
  | a, l :: rest =>
    match asmLine p a (trim l) with
    | .ok a' => asmLines p a' rest
    | .error e => .error e

/-! ### Relocation (R84 to R86) -/

/-- The displacement of a branch at offset `off` to a label at `labelOff`, in words (R84). -/
def branchDisplacement (off labelOff : Nat) : Int := ((labelOff : Int) - ((off : Int) + 4)) / 4

/-- The branch relocation (R84). -/
def relocateBranch (w : Word) (off labelOff : Nat) : Except AsmError Word :=
  if decodeFormat w ≠ .i then .error .badRelocation
  else if WellFormed.immFits (branchDisplacement off labelOff) then
    .ok (w ||| setImm (branchDisplacement off labelOff))
  else .error .displacementOutOfRange

/-- The address a jump word at `addr` goes to (spec/48_jumps.md). -/
def jumpReaches (addr : Nat) (field : BitVec 26) : Word :=
  (BitVec.ofNat 32 (addr + 4)).extractLsb' 28 4 ++ field ++ (0 : BitVec 2)

/-- The jump relocation (R85): the field is `(PROG_BASE + label_off) / 4`; a field that would not reach
the label is fatal (spec/92_eei_decisions.md D38). Whether it does is decided by `pc_i + 4`, as R210 has it;
R85's sentence on the jump's own region differs for a jump in the last word of a region
(notes/assumptions/23.md). DEDUCED, safe. -/
def relocateJump (p : Config.AsmParams) (w : Word) (off labelOff : Nat) : Except AsmError Word :=
  if decodeFormat w ≠ .j then .error .badRelocation
  else if (jumpReaches (p.progBase + off)
      (getTarget (setTarget ((p.progBase + labelOff) / 4 : Nat)))).toNat = p.progBase + labelOff then
    .ok (w ||| setTarget ((p.progBase + labelOff) / 4 : Nat))
  else .error .targetOutOfRange

/-- The data-address relocation (R86), for `A = DATA_BASE + data_label_off`. -/
def relocateData (p : Config.AsmParams) (w : Word) (half : Option Half) (labelOff : Nat) :
    Except AsmError Word :=
  if decodeFormat w ≠ .i then .error .badRelocation
  else match half with
    | some .high => .ok (w ||| setImm ((p.dataBase + labelOff) >>> 16 : Nat))
    | some .low => .ok (w ||| setImm ((p.dataBase + labelOff) &&& 0xFFFF : Nat))
    | none => .ok (w ||| setImm (p.dataBase + labelOff : Nat))

/-- Resolve the word at offset `off`: branches and jumps among the text labels (R84, R85), data addresses
among the data labels (R86). A label of the other kind, as a text label in la or a slice or a data label in a
branch or jump, has no relocation in the spec: it counts as unresolved, which is fatal (R88;
notes/assumptions/24.md). DESIGN CHOICE, safe. -/
def resolve (p : Config.AsmParams) (a : AsmState) (off : Nat) (e : Emit) : Except AsmError Word :=
  match e.reloc with
  | none => .ok e.word
  | some (.branch label) =>
    match lookupLabel a.textLabels label with
    | some labelOff => relocateBranch e.word off labelOff
    | none => .error (.unresolvedLabel label)
  | some (.jump label) =>
    match lookupLabel a.textLabels label with
    | some labelOff => relocateJump p e.word off labelOff
    | none => .error (.unresolvedLabel label)
  | some (.data label half) =>
    match lookupLabel a.dataLabels label with
    | some labelOff => relocateData p e.word half labelOff
    | none => .error (.unresolvedLabel label)

/-- Resolve words from offset `off` on. -/
def resolveAll (p : Config.AsmParams) (a : AsmState) : Nat → List Emit → Except AsmError (List Word)
  | _, [] => .ok []
  | off, e :: rest =>
    match resolve p a off e with
    | .error x => .error x
    | .ok w =>
      match resolveAll p a (off + 4) rest with
      | .error x => .error x
      | .ok ws => .ok (w :: ws)

/-! ### The whole assembler -/

/-- Assemble a source text to an image; an empty text segment is fatal (R88). The unknown mnemonics
that were skipped come with it. A `.data` marker makes a data segment, of length 0 at DATA_BASE when no data
line follows it; without the marker there is none. The spec does not say which of the two a marker without
data lines has (notes/assumptions/20.md; DESIGN CHOICE, safe). -/
def assemble (p : Config.AsmParams) (source : Chars) :
    Except AsmError (Config.Image × List String) := do
  let a ← asmLines p AsmState.start (splitAt '\n' source)
  let words ← resolveAll p a 0 a.words
  if words = [] then .error .emptyText
  else
    let img : Config.Image :=
      { text := words.flatMap bytesOfWord
        progBase := p.progBase
        data := if a.seenData then some (a.bytes, (p.dataBase : Int)) else none }
    .ok (img, a.skipped)

/-- Assemble to a container (R88, R241). An image whose lengths or load addresses no int32 field holds is
refused (notes/assumptions/21.md). DESIGN CHOICE, safe. -/
def assembleContainer (p : Config.AsmParams) (source : Chars) : Except AsmError (List Byte) := do
  let (img, _) ← assemble p source
  if WellFormed.containerFields img then .ok (containerBytes img) else .error .containerFieldTooWide

end Sys2Proof.Machine
end

