-- ==== Sys2Proof/Safety.lean ====
section
/-!
DEFINITION. The terms claims are stated in: what a step keeps (frames), that an instruction completes,
which words are illegal, what a fault record must say, and the invariant of the machine.
-/

namespace Sys2Proof.Machine

/-! ### What a step keeps -/

/-- Every general register but those listed is unchanged. -/
def KeepsRegs (except : List Reg) (s t : State) : Prop :=
  ∀ k, k ∉ except → t.reg k = s.reg k

/-- HI and LO are unchanged. -/
def KeepsHiLo (s t : State) : Prop := t.hi = s.hi ∧ t.lo = s.lo

/-- The size of memory and every byte of it are unchanged. -/
def KeepsMemory (s t : State) : Prop :=
  t.mem.size = s.mem.size ∧ ∀ a, t.mem.byte a = s.mem.byte a

/-- The size of memory and every byte outside the `n` bytes at `start` are unchanged. -/
def KeepsMemoryOutside (start n : Nat) (s t : State) : Prop :=
  t.mem.size = s.mem.size ∧
    ∀ a, a < start ∨ start + n ≤ a → t.mem.byte a = s.mem.byte a

/-- The run status, the refused mark and the single-step mark are unchanged. -/
def KeepsRun (s t : State) : Prop :=
  t.status = s.status ∧ t.refused = s.refused ∧ t.stepping = s.stepping

/-- The snapshot and whether it was compared are unchanged. -/
def KeepsSnapshot (s t : State) : Prop := t.snap = s.snap ∧ t.snapCompared = s.snapCompared

/-- Nothing was asked of the host and no free value was drawn. -/
def KeepsHost (s t : State) : Prop := t.draws = s.draws ∧ t.requests = s.requests

/-- Register `r` takes `v`; nothing else changes. -/
def WritesReg (r : Reg) (v : Word) (s t : State) : Prop :=
  t.reg r = v ∧ KeepsRegs [r] s t ∧ t.pc = s.pc ∧ KeepsHiLo s t ∧ KeepsMemory s t ∧
    KeepsRun s t ∧ KeepsSnapshot s t ∧ KeepsHost s t

/-- HI takes `h` and LO takes `l`; nothing else changes. -/
def WritesHiLo (h l : Word) (s t : State) : Prop :=
  t.hi = h ∧ t.lo = l ∧ KeepsRegs [] s t ∧ t.pc = s.pc ∧ KeepsMemory s t ∧
    KeepsRun s t ∧ KeepsSnapshot s t ∧ KeepsHost s t

/-- `pc` takes `target`; nothing else changes. -/
def WritesPc (target : Word) (s t : State) : Prop :=
  t.pc = target ∧ KeepsRegs [] s t ∧ KeepsHiLo s t ∧ KeepsMemory s t ∧
    KeepsRun s t ∧ KeepsSnapshot s t ∧ KeepsHost s t

/-- The run ends with fault `k` recorded at `pcFault`; nothing else changes, `pc` included. -/
def EndsFaulted (k : FaultKind) (pcFault : Word) (s t : State) : Prop :=
  t.status = .faulted k pcFault ∧ KeepsRegs [] s t ∧ t.pc = s.pc ∧ KeepsHiLo s t ∧
    KeepsMemory s t ∧ t.refused = s.refused ∧ KeepsSnapshot s t ∧ KeepsHost s t

/-- The registers, HI, LO, pc, memory and the snapshot are unchanged: what a request to the host, a
suspension or the end of a run leaves of the block. -/
def KeepsBlock (s t : State) : Prop :=
  KeepsRegs [] s t ∧ t.pc = s.pc ∧ KeepsHiLo s t ∧ KeepsMemory s t ∧ KeepsSnapshot s t

/-- Only the host is told: `r` is handed over, and nothing of the block changes. -/
def OnlyAsks (r : HostRequest) (s t : State) : Prop :=
  t.requests = r :: s.requests ∧ t.draws = s.draws ∧ KeepsBlock s t ∧ KeepsRun s t

/-- The instruction completes from `s`, and the state it leaves meets `P`. -/
def Completes (i : Instr) (s : State) (P : State → Prop) : Prop :=
  ∃ t, exec i s = .next t ∧ P t

/-- `n` little-endian bytes of memory, as an unsigned number. -/
def Memory.number (m : Memory) (a : Nat) : Nat → Nat
  | 0 => 0
  | n + 1 => (m.byte a).toNat + 256 * m.number (a + 1) n

/-! ### Words and fetches -/

/-- A word whose dispatch key has no row (spec/30_encoding.md R74): the keys of R71, R72 and R73, listed. -/
def IllegalKey (w : Word) : Prop :=
  (getOpcode w).toNat ∉ [0x00, 0x01, 0x02, 0x03, 0x04, 0x05, 0x06, 0x07, 0x08, 0x09, 0x0A, 0x0B, 0x0C,
      0x0D, 0x0E, 0x0F, 0x20, 0x21, 0x23, 0x24, 0x25, 0x28, 0x29, 0x2B] ∨
    ((getOpcode w).toNat = 0 ∧
      (getFunct w).toNat ∉ [0x00, 0x02, 0x03, 0x04, 0x06, 0x07, 0x08, 0x0C, 0x0D, 0x10, 0x12, 0x18, 0x19,
        0x1A, 0x1B, 0x20, 0x21, 0x22, 0x23, 0x24, 0x25, 0x26, 0x27, 0x2A, 0x2B]) ∨
    ((getOpcode w).toNat = 1 ∧ (getRt w).val ∉ [0x00, 0x01, 0x10, 0x11])

/-- Opcode 0 with this funct selects the instruction built from the register and shift-amount fields
(spec/30_encoding.md R72). -/
def SelectedByFunct (funct : Nat) (mk : Reg → Reg → Reg → BitVec 5 → Instr) : Prop :=
  ∀ w : Word, getOpcode w = 0 → (getFunct w).toNat = funct →
    decode w = .ok (mk (getRs w) (getRt w) (getRd w) (getShamt w))

/-- This opcode selects the instruction built from rs, rt and the 16-bit field (R71). -/
def SelectedByOpcode (op : Nat) (mk : Reg → Reg → BitVec 16 → Instr) : Prop :=
  ∀ w : Word, (getOpcode w).toNat = op → decode w = .ok (mk (getRs w) (getRt w) (getImmField w))

/-- Opcode 1 with this rt selects the instruction built from rs and the 16-bit field (R73). -/
def SelectedByRt (sel : Nat) (mk : Reg → BitVec 16 → Instr) : Prop :=
  ∀ w : Word, (getOpcode w).toNat = 1 → (getRt w).val = sel →
    decode w = .ok (mk (getRs w) (getImmField w))

/-- This opcode selects the instruction built from the target field (R71, J format). -/
def SelectedAsJump (op : Nat) (mk : BitVec 26 → Instr) : Prop :=
  ∀ w : Word, (getOpcode w).toNat = op → decode w = .ok (mk (getTarget w))

/-- The bits of a word an instruction ignores (spec/30_encoding.md R75). -/
def ignoredBits : Instr → Word
  | .add .. | .addu .. | .sub .. | .subu .. | .and .. | .or .. | .xor .. | .nor .. | .slt .. | .sltu ..
  | .sllv .. | .srlv .. | .srav .. => 0x000007C0
  | .sll .. | .srl .. | .sra .. => 0x03E00000
  | .mult .. | .multu .. | .div .. | .divu .. => 0x0000FFC0
  | .mfhi .. | .mflo .. => 0x03FF07C0
  | .jr .. => 0x001FFFC0
  | .syscall | .brk => 0x03FFFFC0
  | .lui .. => 0x03E00000
  | .blez .. | .bgtz .. => 0x001F0000
  | .addi .. | .addiu .. | .slti .. | .sltiu .. | .andi .. | .ori .. | .xori .. | .beq .. | .bne ..
  | .lb .. | .lh .. | .lw .. | .lbu .. | .lhu .. | .sb .. | .sh .. | .sw .. | .bltz .. | .bgez ..
  | .bltzal .. | .bgezal .. | .j .. | .jal .. => 0

/-- The running machine fetches `w`: `pc` is aligned and the four bytes there are the word
(spec/40_dispatch.md R100). -/
def Fetches (s : State) (w : Word) : Prop :=
  s.status = .running ∧ s.pc.toNat % 4 = 0 ∧ s.mem.read s.pc.toNat 4 = some w

/-- The instructions that store to memory from a register. -/
def IsStore : Instr → Prop
  | .sb .. | .sh .. | .sw .. => True
  | _ => False

/-- The instructions that write HI and LO. -/
def IsMulDiv : Instr → Prop
  | .mult .. | .multu .. | .div .. | .divu .. => True
  | _ => False

/-! ### The invariant -/

/-- What a fault record says in a state whose `pc` is `pc` and whose memory has `size` bytes
(spec/60_exceptions.md R221, R222): a fetch fault leaves `pc` at the address that could not be fetched, a
body fault leaves it 4 past the faulting instruction. -/
def FaultKind.Recorded (k : FaultKind) (pcFault pc : Word) (size : Nat) : Prop :=
  match k with
  | .illegalInstruction pcI w => pcI = pcFault ∧ pc = pcFault + 4 ∧ IllegalKey w
  | .integerOverflow pcI => pcI = pcFault ∧ pc = pcFault + 4
  | .memoryFault a n .fetch =>
    a = pcFault.toNat ∧ n = 4 ∧ pc = pcFault ∧ pc.toNat % 4 = 0 ∧ size < a + n
  | .memoryFault a n _ => pc = pcFault + 4 ∧ size < a + n
  | .fetchMisaligned p => p = pcFault ∧ pc = pcFault ∧ pc.toNat % 4 ≠ 0
  | .divideByZero pcI => pcI = pcFault ∧ pc = pcFault + 4
  | .unimplementedSyscall pcI => pcI = pcFault ∧ pc = pcFault + 4

/-- The invariant of the machine. -/
structure State.Inv (s : State) : Prop where
  /-- Memory keeps its canonical form. -/
  memWf : s.mem.wf
  /-- MEM_SIZE is a positive integer no larger than 2^32 (R242). -/
  sizeOk : 0 < s.mem.size ∧ s.mem.size ≤ 2 ^ 32
  /-- A snapshot is a copy of a memory of the same size, in canonical form. -/
  snapWf : ∀ k, s.snap = some k → k.mem.wf ∧ k.mem.size = s.mem.size
  /-- Only a snapshot that exists can have been compared. -/
  comparedSome : s.snapCompared = true → s.snap.isSome = true
  /-- A single step is under way only while the run goes on. -/
  steppingRuns : s.stepping = true → s.status = .running
  /-- A fault record fits the state it was left in. -/
  record : ∀ k p, s.status = .faulted k p → k.Recorded p s.pc s.mem.size
  /-- A state is marked refused exactly when service 9 ended its run. -/
  refusedIff : s.refused = true ↔ ∃ p, s.status = .faulted (.unimplementedSyscall p) p

end Sys2Proof.Machine
end

