-- ==== Sys2Proof/Certificates/Slice0/Obligations.lean ====
section
/-!
DEFINITION. The statements for the provers. Each docstring names the rule of spec/ it formalises, and the
spec's decision (spec/92_eei_decisions.md) or the log entry it rests on, where there is one. `exec` runs an
instruction body in the state whose `pc` is already `pc_i + 4` (spec/40_dispatch.md R101), so `s.pc - 4` is
`pc_i` (notes/assumptions/16.md).
-/

open Sys2Proof Sys2Proof.Machine

/-! ### Encoding -/

/-- Words written out from the spec's encodings (spec/95_test_vectors.md; spec/30_encoding.md R62, R71 to
R73) decode to the instructions they stand for: one or two of every family. -/
def Obligations.WordsDecodeAsTheSpecEncodesThem : Prop :=
  decode 0x012A4020 = .ok (.add 8 9 10) ∧
  decode 0x00085100 = .ok (.sll 10 8 4) ∧
  decode 0x01285004 = .ok (.sllv 10 8 9) ∧
  decode 0x0109001A = .ok (.div 8 9) ∧
  decode 0x00005010 = .ok (.mfhi 10) ∧
  decode 0x03E00008 = .ok (.jr 31) ∧
  decode 0x0000000C = .ok .syscall ∧
  decode 0x0000000D = .ok .brk ∧
  decode 0x2109FFFF = .ok (.addi 9 8 0xFFFF) ∧
  decode 0x1509FFFE = .ok (.bne 8 9 0xFFFE) ∧
  decode 0x05100001 = .ok (.bltzal 8 1) ∧
  decode 0xAFA9FFFC = .ok (.sw 9 0xFFFC 29) ∧
  decode 0x0C000018 = .ok (.jal 0x18)

/-- DECODE AND ENCODE AGREE, for every instruction and every operand: the four bytes of an instruction,
in front of any other bytes, decode to it and leave the rest (R67, R71 to R73, R77, R81). -/
def Obligations.DecodeInvertsEncode : Prop :=
  ∀ (i : Instr) (rest : List Byte), decodeBytes (encodeBytes i ++ rest) = .ok (i, rest)

/-- R74 and R103: the decoder rejects exactly the words whose key has no row; fetching one advances `pc`,
records `IllegalInstruction(pc_i, w)` at `pc_i`, and changes nothing else. -/
def Obligations.IllegalWordsFaultAfterTheAdvance : Prop :=
  (∀ w : Word, (∃ e, decode w = .error e) ↔ IllegalKey w) ∧
  ∀ (s : State) (w : Word), Fetches s w → IllegalKey w →
    ∃ t, step s = .next t ∧ t.pc = s.pc + 4 ∧
      t.status = .faulted (.illegalInstruction s.pc w) s.pc ∧
      KeepsRegs [] s t ∧ KeepsHiLo s t ∧ KeepsMemory s t ∧ t.refused = s.refused ∧
      KeepsSnapshot s t ∧ KeepsHost s t

/-- R75: bits an instruction does not use are not checked: a word that differs from another only in bits
its instruction ignores decodes to the same instruction. -/
def Obligations.UnusedFieldsAreIgnored : Prop :=
  ∀ (w w' : Word) (i : Instr), decode w = .ok i →
    w' &&& ~~~ignoredBits i = w &&& ~~~ignoredBits i → decode w' = .ok i

/-- R69 (the spec marks it as derived from R62 and R66): every field's getter gives back what its setter
stored, and every word is rebuilt from its own fields in each of the three forms. -/
def Obligations.FieldGettersInvertSetters : Prop :=
  (∀ v : Int, WellFormed.fieldFits 6 v = true →
    ((getOpcode (setOpcode v)).toNat : Int) = v ∧ ((getFunct (setFunct v)).toNat : Int) = v) ∧
  (∀ v : Int, WellFormed.fieldFits 5 v = true →
    ((getRs (setRs v)).val : Int) = v ∧ ((getRt (setRt v)).val : Int) = v ∧
    ((getRd (setRd v)).val : Int) = v ∧ ((getShamt (setShamt v)).toNat : Int) = v) ∧
  (∀ v : Int, WellFormed.fieldFits 26 v = true → ((getTarget (setTarget v)).toNat : Int) = v) ∧
  (∀ v : Int, WellFormed.immFits v = true → (getImm (setImm v)).toInt = v) ∧
  (∀ w : Word, encodeR (getOpcode w).toNat (getRs w).val (getRt w).val (getRd w).val
    (getShamt w).toNat (getFunct w).toNat = w) ∧
  (∀ w : Word, encodeI (getOpcode w).toNat (getRs w).val (getRt w).val (getImm w).toInt = w) ∧
  (∀ w : Word, encodeJ (getOpcode w).toNat (getTarget w).toNat = w)

/-! ### The step -/

/-- R101, R102: A STEP RUNS THE DECODED INSTRUCTION. Where the four bytes at `pc` decode to `i`, the step is
the body of `i` in the state whose `pc` is `wrap32(u(pc_i) + 4)` and which is otherwise the same; a
single-stepped run (R165) is suspended again after it. -/
def Obligations.StepRunsTheDecodedInstruction : Prop :=
  ∀ (s : State) (w : Word) (i : Instr), Fetches s w → decode w = .ok i →
    step s = mapNext State.afterStep
      (exec i { s with pc := wrap32 ((s.pc.toNat + 4 : Nat) : Int) }) ∧
    (s.stepping = false →
      step s = exec i { s with pc := wrap32 ((s.pc.toNat + 4 : Nat) : Int) })

/-- R100, R46: a step fetches only while the status is `Running`; it checks the alignment of `pc` first,
then the range; in range it fetches the little-endian word at `pc`; a fetch fault leaves `pc` as it was.
(That a fault is a next state, and what a step answers in another status, is the model's form:
notes/assumptions/6.md, 8.md, 12.md.) -/
def Obligations.FetchFaultsComeBeforeTheAdvance : Prop :=
  (∀ s : State, s.status = .running → s.pc.toNat % 4 ≠ 0 →
    ∃ t, step s = .next t ∧ EndsFaulted (.fetchMisaligned s.pc) s.pc s t) ∧
  (∀ s : State, s.status = .running → s.pc.toNat % 4 = 0 → s.mem.size < s.pc.toNat + 4 →
    ∃ t, step s = .next t ∧ EndsFaulted (.memoryFault s.pc.toNat 4 .fetch) s.pc s t) ∧
  (∀ s : State, s.status = .running → s.pc.toNat % 4 = 0 → s.pc.toNat + 4 ≤ s.mem.size →
    Fetches s (BitVec.ofNat 32 (s.mem.number s.pc.toNat 4))) ∧
  (∀ s t : State, s.status ≠ .running → step s = .next t → KeepsBlock s t)

/-- R165, for every answer of the debugger (notes/assumptions/12.md): a suspended run changes nothing of
the block; `Step` and `Resume` set the status `Running`; without an answer the run stays suspended; and
the one instruction that `Step` lets run leaves the status no longer `Running`. -/
def Obligations.DebuggerTurnsAndSingleSteps : Prop :=
  (∀ s : State, s.status = .suspended →
    ∃ t, step s = .next t ∧ KeepsBlock s t ∧ t.requests = s.requests ∧
      match Config.drawDebug s.draws with
      | none => t.status = .suspended ∧ t.stepping = s.stepping
      | some .step => t.status = .running ∧ t.stepping = true
      | some .resume => t.status = .running ∧ t.stepping = false) ∧
  (∀ s t : State, s.status = .running → s.stepping = true → step s = .next t →
    t.status ≠ .running ∧ t.stepping = false)

/-- R28, R108: `Exited` and `Faulted` are final: a step from them answers no next state, and says by name
why (notes/assumptions/6.md to 8.md: the names are the model's). -/
def Obligations.EndedRunsTakeNoStep : Prop :=
  (∀ (s : State) (c : Word), s.status = .exited c → step s = .fault (.runExited c)) ∧
  (∀ (s : State) (k : FaultKind) (p : Word), s.status = .faulted k p → s.refused = false →
    step s = .fault (.runFaulted k p)) ∧
  (∀ (s : State) (k : FaultKind) (p : Word), s.status = .faulted k p → s.refused = true →
    step s = .refused (.unimplementedSyscall p))

/-! ### R-format arithmetic, logic, shifts, multiply and divide -/

/-- R121, R123 to R129: addu, subu, and, or, xor, nor, slt and sltu complete from every state, write the
rule's value to `x[rd]` (register 0 included), and change nothing else. -/
def Obligations.WrappingAluWritesOnlyItsResult : Prop :=
  (SelectedByFunct 0x21 (fun rs rt rd _ => .addu rd rs rt) ∧
   SelectedByFunct 0x23 (fun rs rt rd _ => .subu rd rs rt) ∧
   SelectedByFunct 0x24 (fun rs rt rd _ => .and rd rs rt) ∧
   SelectedByFunct 0x25 (fun rs rt rd _ => .or rd rs rt) ∧
   SelectedByFunct 0x26 (fun rs rt rd _ => .xor rd rs rt) ∧
   SelectedByFunct 0x27 (fun rs rt rd _ => .nor rd rs rt) ∧
   SelectedByFunct 0x2A (fun rs rt rd _ => .slt rd rs rt) ∧
   SelectedByFunct 0x2B (fun rs rt rd _ => .sltu rd rs rt)) ∧
  ∀ (rd rs rt : Reg) (s : State),
    Completes (.addu rd rs rt) s
      (WritesReg rd (wrap32 (((s.reg rs).toNat : Int) + (s.reg rt).toNat)) s) ∧
    Completes (.subu rd rs rt) s
      (WritesReg rd (wrap32 (((s.reg rs).toNat : Int) - (s.reg rt).toNat)) s) ∧
    Completes (.and rd rs rt) s (WritesReg rd (s.reg rs &&& s.reg rt) s) ∧
    Completes (.or rd rs rt) s (WritesReg rd (s.reg rs ||| s.reg rt) s) ∧
    Completes (.xor rd rs rt) s (WritesReg rd (s.reg rs ^^^ s.reg rt) s) ∧
    Completes (.nor rd rs rt) s (WritesReg rd (~~~(s.reg rs ||| s.reg rt)) s) ∧
    Completes (.slt rd rs rt) s
      (WritesReg rd (if (s.reg rs).toInt < (s.reg rt).toInt then 1 else 0) s) ∧
    Completes (.sltu rd rs rt) s
      (WritesReg rd (if (s.reg rs).toNat < (s.reg rt).toNat then 1 else 0) s)

/-- R120, R122, R180: add, sub and addi write the exact result when it fits in 32 signed bits, and
otherwise record `IntegerOverflow(pc_i)` and write nothing. -/
def Obligations.CheckedAluFaultsOnOverflow : Prop :=
  (SelectedByFunct 0x20 (fun rs rt rd _ => .add rd rs rt) ∧
   SelectedByFunct 0x22 (fun rs rt rd _ => .sub rd rs rt) ∧
   SelectedByOpcode 0x08 (fun rs rt imm => .addi rt rs imm)) ∧
  ∀ (i : Instr) (r : Reg) (n : Int) (s : State),
    ((∃ rd rs rt, i = .add rd rs rt ∧ r = rd ∧ n = (s.reg rs).toInt + (s.reg rt).toInt) ∨
     (∃ rd rs rt, i = .sub rd rs rt ∧ r = rd ∧ n = (s.reg rs).toInt - (s.reg rt).toInt) ∨
     (∃ rt rs imm, i = .addi rt rs imm ∧ r = rt ∧
        n = (s.reg rs).toInt + (imm.signExtend 32).toInt)) →
    (-2 ^ 31 ≤ n ∧ n ≤ 2 ^ 31 - 1 → Completes i s (WritesReg r (wrap32 n) s)) ∧
    (n < -2 ^ 31 ∨ 2 ^ 31 - 1 < n →
      Completes i s (EndsFaulted (.integerOverflow (s.pc - 4)) (s.pc - 4) s))

/-- R140 to R145: the shifts, as arithmetic: left multiplies by `2^k` modulo `2^32`, logical right divides
the unsigned value, arithmetic right divides the signed value rounding down; `k` is the shamt field or
`x[rs][4:0]` (the spec's decisions D9, D10). -/
def Obligations.ShiftsScaleByPowersOfTwo : Prop :=
  (SelectedByFunct 0x00 (fun _ rt rd sh => .sll rd rt sh) ∧
   SelectedByFunct 0x02 (fun _ rt rd sh => .srl rd rt sh) ∧
   SelectedByFunct 0x03 (fun _ rt rd sh => .sra rd rt sh) ∧
   SelectedByFunct 0x04 (fun rs rt rd _ => .sllv rd rt rs) ∧
   SelectedByFunct 0x06 (fun rs rt rd _ => .srlv rd rt rs) ∧
   SelectedByFunct 0x07 (fun rs rt rd _ => .srav rd rt rs)) ∧
  ∀ (rd rt rs : Reg) (sh : BitVec 5) (s : State),
    Completes (.sll rd rt sh) s
      (WritesReg rd (wrap32 ((s.reg rt).toNat * 2 ^ sh.toNat : Nat)) s) ∧
    Completes (.srl rd rt sh) s
      (WritesReg rd (wrap32 ((s.reg rt).toNat / 2 ^ sh.toNat : Nat)) s) ∧
    Completes (.sra rd rt sh) s
      (WritesReg rd (wrap32 ((s.reg rt).toInt / 2 ^ sh.toNat)) s) ∧
    Completes (.sllv rd rt rs) s
      (WritesReg rd (wrap32 ((s.reg rt).toNat * 2 ^ ((s.reg rs).toNat % 32) : Nat)) s) ∧
    Completes (.srlv rd rt rs) s
      (WritesReg rd (wrap32 ((s.reg rt).toNat / 2 ^ ((s.reg rs).toNat % 32) : Nat)) s) ∧
    Completes (.srav rd rt rs) s
      (WritesReg rd (wrap32 ((s.reg rt).toInt / 2 ^ ((s.reg rs).toNat % 32))) s)

/-- R150, R151: HI and LO together hold the exact 64-bit product, signed or unsigned (the spec's decision
D11), and nothing else changes. -/
def Obligations.ProductFillsHiAndLo : Prop :=
  (SelectedByFunct 0x18 (fun rs rt _ _ => .mult rs rt) ∧
   SelectedByFunct 0x19 (fun rs rt _ _ => .multu rs rt)) ∧
  ∀ (rs rt : Reg) (s : State),
    Completes (.mult rs rt) s (fun t =>
      t.hi.toInt * 2 ^ 32 + t.lo.toNat = (s.reg rs).toInt * (s.reg rt).toInt ∧
      WritesHiLo t.hi t.lo s t) ∧
    Completes (.multu rs rt) s (fun t =>
      t.hi.toNat * 2 ^ 32 + t.lo.toNat = (s.reg rs).toNat * (s.reg rt).toNat ∧
      WritesHiLo t.hi t.lo s t)

/-- R152 (the spec's decisions D12 to D14): div faults on a zero divisor; leaves HI and LO unconstrained for
-2^31 by -1, changing nothing else of the block; and otherwise leaves the quotient truncated toward zero
in LO and the remainder, with the dividend's sign, in HI. -/
def Obligations.SignedDivision : Prop :=
  (SelectedByFunct 0x1A (fun rs rt _ _ => .div rs rt)) ∧
  ∀ (rs rt : Reg) (s : State),
    ((s.reg rt).toInt = 0 →
      Completes (.div rs rt) s (EndsFaulted (.divideByZero (s.pc - 4)) (s.pc - 4) s)) ∧
    ((s.reg rs).toInt = -2 ^ 31 ∧ (s.reg rt).toInt = -1 →
      Completes (.div rs rt) s (fun t => KeepsRegs [] s t ∧ t.pc = s.pc ∧ KeepsMemory s t ∧
        KeepsRun s t ∧ KeepsSnapshot s t ∧ t.requests = s.requests)) ∧
    ((s.reg rt).toInt ≠ 0 → ¬((s.reg rs).toInt = -2 ^ 31 ∧ (s.reg rt).toInt = -1) →
      Completes (.div rs rt) s (fun t =>
        t.lo.toInt * (s.reg rt).toInt + t.hi.toInt = (s.reg rs).toInt ∧
        |t.hi.toInt| < |(s.reg rt).toInt| ∧
        (0 ≤ (s.reg rs).toInt → 0 ≤ t.hi.toInt) ∧ ((s.reg rs).toInt ≤ 0 → t.hi.toInt ≤ 0) ∧
        WritesHiLo t.hi t.lo s t))

/-- R153 (the spec's decisions D12, D13): divu faults on a zero divisor, and otherwise leaves the floor
quotient in LO and the remainder in HI. -/
def Obligations.UnsignedDivision : Prop :=
  (SelectedByFunct 0x1B (fun rs rt _ _ => .divu rs rt)) ∧
  ∀ (rs rt : Reg) (s : State),
    (s.reg rt = 0 →
      Completes (.divu rs rt) s (EndsFaulted (.divideByZero (s.pc - 4)) (s.pc - 4) s)) ∧
    (s.reg rt ≠ 0 →
      Completes (.divu rs rt) s (fun t =>
        t.lo.toNat * (s.reg rt).toNat + t.hi.toNat = (s.reg rs).toNat ∧
        t.hi.toNat < (s.reg rt).toNat ∧ WritesHiLo t.hi t.lo s t))

/-- R154, R155: mfhi and mflo copy HI and LO to `x[rd]`. -/
def Obligations.MovesFromHiAndLo : Prop :=
  (SelectedByFunct 0x10 (fun _ _ rd _ => .mfhi rd) ∧
   SelectedByFunct 0x12 (fun _ _ rd _ => .mflo rd)) ∧
  ∀ (rd : Reg) (s : State),
    Completes (.mfhi rd) s (WritesReg rd s.hi s) ∧ Completes (.mflo rd) s (WritesReg rd s.lo s)

/-- R22 (the spec's decision D43): register 0 is an ordinary register: it resets to 0, a write to it takes
effect like a write to any other, and a later instruction reads what was written. `sll $zero,$zero,0`
leaves it as it is, and `add rd,rs,$zero`, the expansion of `move`, copies `rs` while it holds 0. -/
def Obligations.RegisterZeroKeepsWhatIsWritten : Prop :=
  State.reset.reg 0 = 0 ∧
  (∀ (r : Reg) (v : Word) (s : State), WritesReg r v s (s.setReg r v)) ∧
  (∀ (rd rs rt : Reg) (s : State), Completes (.addu 0 rs rt) s (fun t =>
    t.reg 0 = wrap32 (((s.reg rs).toNat : Int) + (s.reg rt).toNat) ∧
    Completes (.or rd 0 0) t
      (fun v => v.reg rd = wrap32 (((s.reg rs).toNat : Int) + (s.reg rt).toNat)))) ∧
  (∀ s : State, Completes (.sll 0 0 0) s (KeepsRegs [] s)) ∧
  (∀ (rd rs : Reg) (s : State), s.reg 0 = 0 →
    Completes (.add rd rs 0) s (WritesReg rd (s.reg rs) s))

/-- The word 0 decodes as `sll $zero,$zero,0`: its step changes no register value and no byte, and
advances `pc` by 4 (R76, which the spec marks as derived from R72 and R140). -/
def Obligations.ZeroWordOnlyAdvances : Prop :=
  decode 0 = .ok (.sll 0 0 0) ∧
  ∀ s : State, Fetches s 0 →
    ∃ t, step s = .next t ∧ t.pc = s.pc + 4 ∧ KeepsRegs [] s t ∧ KeepsHiLo s t ∧ KeepsMemory s t

/-! ### I-format arithmetic, branches, jumps -/

/-- R181 to R187: the immediate instructions that cannot fault complete from every state, write the rule's
value to `x[rt]`, and change nothing else: sign extension for addiu, slti and sltiu, zero extension for
andi, ori and xori, the upper half for lui (the spec's decisions D7, D8). -/
def Obligations.ImmediateAluWritesOnlyItsResult : Prop :=
  (SelectedByOpcode 0x09 (fun rs rt imm => .addiu rt rs imm) ∧
   SelectedByOpcode 0x0A (fun rs rt imm => .slti rt rs imm) ∧
   SelectedByOpcode 0x0B (fun rs rt imm => .sltiu rt rs imm) ∧
   SelectedByOpcode 0x0C (fun rs rt imm => .andi rt rs imm) ∧
   SelectedByOpcode 0x0D (fun rs rt imm => .ori rt rs imm) ∧
   SelectedByOpcode 0x0E (fun rs rt imm => .xori rt rs imm) ∧
   SelectedByOpcode 0x0F (fun _ rt imm => .lui rt imm)) ∧
  ∀ (rt rs : Reg) (imm : BitVec 16) (s : State),
    Completes (.addiu rt rs imm) s
      (WritesReg rt (wrap32 (((s.reg rs).toNat : Int) + (imm.signExtend 32).toNat)) s) ∧
    Completes (.slti rt rs imm) s
      (WritesReg rt (if (s.reg rs).toInt < imm.toInt then 1 else 0) s) ∧
    Completes (.sltiu rt rs imm) s
      (WritesReg rt (if (s.reg rs).toNat < (imm.signExtend 32).toNat then 1 else 0) s) ∧
    Completes (.andi rt rs imm) s (WritesReg rt (s.reg rs &&& imm.setWidth 32) s) ∧
    Completes (.ori rt rs imm) s (WritesReg rt (s.reg rs ||| imm.setWidth 32) s) ∧
    Completes (.xori rt rs imm) s (WritesReg rt (s.reg rs ^^^ imm.setWidth 32) s) ∧
    Completes (.lui rt imm) s (WritesReg rt (wrap32 (imm.toNat * 2 ^ 16 : Nat)) s)

/-- R190 to R195: a branch goes to `wrap32(u(pc_i + 4) + 4 * imm)` exactly when its condition holds, stays
at `pc_i + 4` otherwise, and changes nothing else. -/
def Obligations.BranchesWriteOnlyThePc : Prop :=
  (SelectedByOpcode 0x04 (fun rs rt imm => .beq rs rt imm) ∧
   SelectedByOpcode 0x05 (fun rs rt imm => .bne rs rt imm) ∧
   SelectedByOpcode 0x06 (fun rs _ imm => .blez rs imm) ∧
   SelectedByOpcode 0x07 (fun rs _ imm => .bgtz rs imm) ∧
   SelectedByRt 0x00 (fun rs imm => .bltz rs imm) ∧
   SelectedByRt 0x01 (fun rs imm => .bgez rs imm)) ∧
  ∀ (rs rt : Reg) (imm : BitVec 16) (s : State),
    let taken := wrap32 (s.pc.toNat + 4 * imm.toInt)
    Completes (.beq rs rt imm) s (WritesPc (if s.reg rs = s.reg rt then taken else s.pc) s) ∧
    Completes (.bne rs rt imm) s (WritesPc (if s.reg rs ≠ s.reg rt then taken else s.pc) s) ∧
    Completes (.blez rs imm) s (WritesPc (if (s.reg rs).toInt ≤ 0 then taken else s.pc) s) ∧
    Completes (.bgtz rs imm) s (WritesPc (if 0 < (s.reg rs).toInt then taken else s.pc) s) ∧
    Completes (.bltz rs imm) s (WritesPc (if (s.reg rs).toInt < 0 then taken else s.pc) s) ∧
    Completes (.bgez rs imm) s (WritesPc (if 0 ≤ (s.reg rs).toInt then taken else s.pc) s)

/-- R196, R197 (the spec's decision D16): bltzal and bgezal write `pc_i + 4` to `x[31]` taken or not, and
test the register as it was before that write, `x[31]` itself included. -/
def Obligations.LinkingBranchesAlwaysLink : Prop :=
  (SelectedByRt 0x10 (fun rs imm => .bltzal rs imm) ∧
   SelectedByRt 0x11 (fun rs imm => .bgezal rs imm)) ∧
  ∀ (rs : Reg) (imm : BitVec 16) (s : State),
    let taken := wrap32 (s.pc.toNat + 4 * imm.toInt)
    let linked (target : Word) (t : State) : Prop :=
      t.pc = target ∧ t.reg 31 = s.pc ∧ KeepsRegs [31] s t ∧ KeepsHiLo s t ∧ KeepsMemory s t ∧
        KeepsRun s t ∧ KeepsSnapshot s t ∧ KeepsHost s t
    Completes (.bltzal rs imm) s (linked (if (s.reg rs).toInt < 0 then taken else s.pc)) ∧
    Completes (.bgezal rs imm) s (linked (if 0 ≤ (s.reg rs).toInt then taken else s.pc))

/-- R160, R210, R211: j and jal go to the word address `target` in the 2^28-byte region of `pc_i + 4`, jal
linking `pc_i + 4` in `x[31]`; jr goes to `x[rs]`, whatever it is, and links nothing. -/
def Obligations.JumpsReachTheirTargets : Prop :=
  (SelectedAsJump 0x02 (fun target => .j target) ∧
   SelectedAsJump 0x03 (fun target => .jal target) ∧
   SelectedByFunct 0x08 (fun rs _ _ _ => .jr rs)) ∧
  ∀ (rs : Reg) (target : BitVec 26) (s : State),
    let dest := wrap32 (s.pc.toNat / 2 ^ 28 * 2 ^ 28 + target.toNat * 4 : Nat)
    Completes (.j target) s (WritesPc dest s) ∧
    Completes (.jal target) s (fun t =>
      t.pc = dest ∧ t.reg 31 = s.pc ∧ KeepsRegs [31] s t ∧ KeepsHiLo s t ∧ KeepsMemory s t ∧
        KeepsRun s t ∧ KeepsSnapshot s t ∧ KeepsHost s t) ∧
    Completes (.jr rs) s (WritesPc (s.reg rs) s)

/-! ### Memory -/

/-- R200 to R205: the effective address is `x[rs]` plus the sign-extended offset modulo `2^32`; a load in
range, aligned or not, writes the little-endian value of its bytes, extended by its rule, to `x[rt]` and
changes nothing else; out of range it records `MemoryFault(a, n, load)` and writes nothing. -/
def Obligations.LoadsReadLittleEndianMemory : Prop :=
  (SelectedByOpcode 0x20 (fun rs rt imm => .lb rt imm rs) ∧
   SelectedByOpcode 0x21 (fun rs rt imm => .lh rt imm rs) ∧
   SelectedByOpcode 0x23 (fun rs rt imm => .lw rt imm rs) ∧
   SelectedByOpcode 0x24 (fun rs rt imm => .lbu rt imm rs) ∧
   SelectedByOpcode 0x25 (fun rs rt imm => .lhu rt imm rs)) ∧
  ∀ (rt rs : Reg) (imm : BitVec 16) (s : State),
    let a := (s.effAddr rs imm).toNat
    let loads (i : Instr) (n : Nat) (v : Word) : Prop :=
      (a + n ≤ s.mem.size → Completes i s (WritesReg rt v s)) ∧
      (s.mem.size < a + n → Completes i s (EndsFaulted (.memoryFault a n .load) (s.pc - 4) s))
    s.effAddr rs imm = wrap32 (((s.reg rs).toNat : Int) + (imm.signExtend 32).toNat) ∧
    loads (.lb rt imm rs) 1 ((BitVec.ofNat 8 (s.mem.number a 1)).signExtend 32) ∧
    loads (.lh rt imm rs) 2 ((BitVec.ofNat 16 (s.mem.number a 2)).signExtend 32) ∧
    loads (.lw rt imm rs) 4 (BitVec.ofNat 32 (s.mem.number a 4)) ∧
    loads (.lbu rt imm rs) 1 (BitVec.ofNat 32 (s.mem.number a 1)) ∧
    loads (.lhu rt imm rs) 2 (BitVec.ofNat 32 (s.mem.number a 2))

/-- R206 to R208: a store in range, aligned or not, writes the low bytes of `x[rt]` little-endian at the
effective address, leaves every other byte and everything else as it was; out of range it records
`MemoryFault(a, n, store)` and writes nothing. -/
def Obligations.StoresWriteOnlyTheirBytes : Prop :=
  (SelectedByOpcode 0x28 (fun rs rt imm => .sb rt imm rs) ∧
   SelectedByOpcode 0x29 (fun rs rt imm => .sh rt imm rs) ∧
   SelectedByOpcode 0x2B (fun rs rt imm => .sw rt imm rs)) ∧
  ∀ (rt rs : Reg) (imm : BitVec 16) (s : State),
    let a := (s.effAddr rs imm).toNat
    let stores (i : Instr) (n : Nat) : Prop :=
      (a + n ≤ s.mem.size → Completes i s (fun t =>
        (∀ k, k < n → t.mem.byte (a + k) = (s.reg rt).extractLsb' (8 * k) 8) ∧
        KeepsMemoryOutside a n s t ∧ KeepsRegs [] s t ∧ t.pc = s.pc ∧ KeepsHiLo s t ∧
        KeepsRun s t ∧ KeepsSnapshot s t ∧ KeepsHost s t)) ∧
      (s.mem.size < a + n → Completes i s (EndsFaulted (.memoryFault a n .store) (s.pc - 4) s))
    stores (.sb rt imm rs) 1 ∧ stores (.sh rt imm rs) 2 ∧ stores (.sw rt imm rs) 4

/-- R43, R44, R45: `MemRead` and `MemWrite` of 1, 2 or 4 bytes: out of range they answer nothing; in range the
value read is little-endian, and a write puts byte `k` of the value at `a + k` and leaves the other bytes.
What a word store wrote reads back as that word, and as its halfwords and bytes at their own
addresses. -/
def Obligations.MemoryAccessesAreLittleEndian : Prop :=
  (∀ (m : Memory) (a n : Nat) (v : Word), n ∈ [1, 2, 4] →
    (m.size < a + n → m.read a n = none ∧ m.write a n v = none) ∧
    (a + n ≤ m.size → m.read a n = some (BitVec.ofNat 32 (m.number a n)) ∧
      ∃ m', m.write a n v = some m' ∧ m'.size = m.size ∧
        (∀ k, k < n → m'.byte (a + k) = v.extractLsb' (8 * k) 8) ∧
        (∀ b, b < a ∨ a + n ≤ b → m'.byte b = m.byte b))) ∧
  (∀ (m m' : Memory) (a : Nat) (v : Word), m.write a 4 v = some m' →
    m'.read a 4 = some v ∧
    (∀ k, k < 3 → m'.read (a + k) 2 = some ((v.extractLsb' (8 * k) 16).setWidth 32)) ∧
    (∀ k, k < 4 → m'.read (a + k) 1 = some ((v.extractLsb' (8 * k) 8).setWidth 32)))

/-- R55: fetch is coherent with stores, starting with the very next instruction: a word that sw stores at
the address the next step fetches is the word that step runs. -/
def Obligations.StoredWordIsFetchedNext : Prop :=
  ∀ (rt rs : Reg) (imm : BitVec 16) (s : State) (i : Instr),
    s.status = .running → s.stepping = false → s.pc.toNat % 4 = 0 →
    s.pc.toNat + 4 ≤ s.mem.size → s.effAddr rs imm = s.pc → decode (s.reg rt) = .ok i →
    Completes (.sw rt imm rs) s (fun t => step t = exec i t.advance)

/-! ### System -/

/-- R168: services 10 and 17 end the run with status 0 and `x[4]`, change nothing else, and no later
instruction is fetched. -/
def Obligations.ExitServicesEndTheRun : Prop :=
  ∀ (s : State) (c : Word), (s.reg 2 = 10 ∧ c = 0) ∨ (s.reg 2 = 17 ∧ c = s.reg 4) →
    Completes .syscall s (fun t =>
      t.status = .exited c ∧ KeepsBlock s t ∧ KeepsHost s t ∧ t.refused = s.refused ∧
      t.stepping = s.stepping ∧ ∀ v, step t ≠ .next v)

/-- R175: a code outside the service table does nothing but what the advance did. -/
def Obligations.UnknownServicesDoNothing : Prop :=
  ∀ s : State,
    (s.reg 2).toNat ∈ [0, 2, 3, 6, 7] ∨ (20 ≤ (s.reg 2).toNat ∧ (s.reg 2).toNat ≤ 29) ∨
      37 ≤ (s.reg 2).toNat →
    exec .syscall s = .next s

/-- R167: the output services hand the host what is to be printed and write no block state; service 4 reads
the bytes up to the first 0x00. -/
def Obligations.OutputServicesWriteNoBlockState : Prop :=
  ∀ s : State,
    (s.reg 2 = 1 → Completes .syscall s (OnlyAsks (.printInt (s.reg 4).toInt) s)) ∧
    (∀ n, s.reg 2 = 4 → (s.reg 4).toNat + n < s.mem.size →
      (∀ k, k < n → s.mem.byte ((s.reg 4).toNat + k) ≠ 0) →
      s.mem.byte ((s.reg 4).toNat + n) = 0 →
      Completes .syscall s (OnlyAsks (.printString (s.mem.bytes (s.reg 4).toNat n)) s)) ∧
    (s.reg 2 = 11 →
      Completes .syscall s (OnlyAsks (.printChar ((s.reg 4).extractLsb' 0 8)) s)) ∧
    (s.reg 2 = 34 → Completes .syscall s (OnlyAsks (.printHex (s.reg 4)) s)) ∧
    (s.reg 2 = 35 → Completes .syscall s (OnlyAsks (.printBinary (s.reg 4)) s)) ∧
    (s.reg 2 = 36 → Completes .syscall s (OnlyAsks (.printUnsigned (s.reg 4).toNat) s))

/-- R169, for every answer of the host (notes/assumptions/9.md, 14.md): services 5 and 12 write the answer
to `x[2]` only; services 8 and 14 first check the range of the buffer, then write at most the requested
number of bytes in it, and 14 writes the count to `x[2]`. -/
def Obligations.InputServicesWriteOnlyWhatTheyName : Prop :=
  ∀ s : State,
    let wrote (start len : Nat) (t : State) : Prop :=
      t.mem.size = s.mem.size ∧ ∃ bytes : List Byte, bytes.length ≤ len ∧
        ∀ a, t.mem.byte a = if start ≤ a ∧ a < start + bytes.length then bytes.getD (a - start) 0
          else s.mem.byte a
    (s.reg 2 = 5 → Completes .syscall s (fun t =>
      t.reg 2 = wrap32 (Config.drawInt s.draws) ∧ KeepsRegs [2] s t ∧ t.pc = s.pc ∧
      KeepsHiLo s t ∧ KeepsMemory s t ∧ KeepsRun s t ∧ KeepsSnapshot s t ∧
      t.requests = .readInt :: s.requests)) ∧
    (s.reg 2 = 12 → Completes .syscall s (fun t =>
      t.reg 2 = Config.drawWord s.draws ∧ KeepsRegs [2] s t ∧ t.pc = s.pc ∧ KeepsHiLo s t ∧
      KeepsMemory s t ∧ KeepsRun s t ∧ KeepsSnapshot s t ∧
      t.requests = .readChar :: s.requests)) ∧
    (s.reg 2 = 8 → (s.reg 4).toNat + (s.reg 5).toNat ≤ s.mem.size →
      Completes .syscall s (fun t =>
        wrote (s.reg 4).toNat (s.reg 5).toNat t ∧ KeepsRegs [] s t ∧ t.pc = s.pc ∧
        KeepsHiLo s t ∧ KeepsRun s t ∧ KeepsSnapshot s t ∧
        t.requests = .readLine (s.reg 4) (s.reg 5) :: s.requests)) ∧
    (s.reg 2 = 14 → (s.reg 5).toNat + (s.reg 6).toNat ≤ s.mem.size →
      Completes .syscall s (fun t =>
        wrote (s.reg 5).toNat (s.reg 6).toNat t ∧ t.reg 2 = Config.drawWord s.draws ∧
        KeepsRegs [2] s t ∧ t.pc = s.pc ∧ KeepsHiLo s t ∧ KeepsRun s t ∧ KeepsSnapshot s t ∧
        t.requests = .readFile (s.reg 4) (s.reg 5) (s.reg 6) :: s.requests)) ∧
    (s.reg 2 = 8 → s.mem.size < (s.reg 4).toNat + (s.reg 5).toNat →
      Completes .syscall s (EndsFaulted
        (.memoryFault (s.reg 4).toNat (s.reg 5).toNat .syscall) (s.pc - 4) s)) ∧
    (s.reg 2 = 14 → s.mem.size < (s.reg 5).toNat + (s.reg 6).toNat →
      Completes .syscall s (EndsFaulted
        (.memoryFault (s.reg 5).toNat (s.reg 6).toNat .syscall) (s.pc - 4) s))

/-- R170, for every answer of the host (notes/assumptions/9.md): 13 reads a NUL-terminated path at `x[4]`
and writes the handle to `x[2]` only; 15 hands over the bytes of its buffer and writes the count to `x[2]`
only; 16 closes the handle in `x[4]` and changes nothing of the block. -/
def Obligations.FileServicesPassHandlesInRegisters : Prop :=
  ∀ s : State,
    let answers (r : HostRequest) (t : State) : Prop :=
      t.reg 2 = Config.drawWord s.draws ∧ KeepsRegs [2] s t ∧ t.pc = s.pc ∧ KeepsHiLo s t ∧
        KeepsMemory s t ∧ KeepsRun s t ∧ KeepsSnapshot s t ∧ t.requests = r :: s.requests
    (∀ n, s.reg 2 = 13 → (s.reg 4).toNat + n < s.mem.size →
      (∀ k, k < n → s.mem.byte ((s.reg 4).toNat + k) ≠ 0) →
      s.mem.byte ((s.reg 4).toNat + n) = 0 →
      Completes .syscall s
        (answers (.openFile (s.mem.bytes (s.reg 4).toNat n) (s.reg 5) (s.reg 6)))) ∧
    (s.reg 2 = 15 → (s.reg 5).toNat + (s.reg 6).toNat ≤ s.mem.size →
      Completes .syscall s
        (answers (.writeFile (s.reg 4) (s.mem.bytes (s.reg 5).toNat (s.reg 6).toNat)))) ∧
    (s.reg 2 = 16 → Completes .syscall s (OnlyAsks (.closeFile (s.reg 4)) s))

/-- R171, R108 (notes/assumptions/7.md says how the model holds the refusal): service 9 records
`UnimplementedSyscall(pc_i)`, changes no register and no byte, hands the host nothing, and the step after
it is refused by name. -/
def Obligations.AllocatorServiceIsRefused : Prop :=
  ∀ s : State, s.reg 2 = 9 →
    Completes .syscall s (fun t =>
      t.status = .faulted (.unimplementedSyscall (s.pc - 4)) (s.pc - 4) ∧ t.refused = true ∧
      KeepsBlock s t ∧ KeepsHost s t ∧ step t = .refused (.unimplementedSyscall (s.pc - 4)))

/-- R172 (the spec's decision D31): a service whose range is not in memory, or whose string has no 0x00
below MEM_SIZE, ends the run with `MemoryFault(a, n, syscall)` before the host receives anything; one whose
buffer is in memory writes only inside it. -/
def Obligations.ServicesCheckTheirRangesFirst : Prop :=
  ∀ s : State,
    let faults : Prop := Completes .syscall s (fun t =>
      ∃ a n, EndsFaulted (.memoryFault a n .syscall) (s.pc - 4) s t ∧ s.mem.size < a + n)
    let faultsAt (a n : Nat) : Prop :=
      Completes .syscall s (EndsFaulted (.memoryFault a n .syscall) (s.pc - 4) s)
    ((s.reg 2 = 4 ∨ s.reg 2 = 13) →
      (∀ a, (s.reg 4).toNat ≤ a → a < s.mem.size → s.mem.byte a ≠ 0) → faults) ∧
    (s.reg 2 = 8 → s.mem.size < (s.reg 4).toNat + (s.reg 5).toNat →
      faultsAt (s.reg 4).toNat (s.reg 5).toNat) ∧
    ((s.reg 2 = 14 ∨ s.reg 2 = 15) → s.mem.size < (s.reg 5).toNat + (s.reg 6).toNat →
      faultsAt (s.reg 5).toNat (s.reg 6).toNat) ∧
    (s.reg 2 = 8 → (s.reg 4).toNat + (s.reg 5).toNat ≤ s.mem.size →
      Completes .syscall s (KeepsMemoryOutside (s.reg 4).toNat (s.reg 5).toNat s)) ∧
    (s.reg 2 = 14 → (s.reg 5).toNat + (s.reg 6).toNat ≤ s.mem.size →
      Completes .syscall s (KeepsMemoryOutside (s.reg 5).toNat (s.reg 6).toNat s))

/-- R173 (the spec's decision D41; notes/assumptions/15.md for the report's form): 18 copies the registers,
HI, LO, pc and memory and tells the host if the snapshot it replaces was never compared; 19 reports how
many general registers and bytes differ; 19 with no snapshot does nothing. -/
def Obligations.SnapshotServicesCopyAndCompare : Prop :=
  ∀ s : State,
    let keeps (t : State) : Prop := KeepsRegs [] s t ∧ t.pc = s.pc ∧ KeepsHiLo s t ∧
      KeepsMemory s t ∧ KeepsRun s t ∧ t.draws = s.draws
    (s.reg 2 = 18 → Completes .syscall s (fun t =>
      keeps t ∧
      t.snap = some { regs := s.regs, hi := s.hi, lo := s.lo, pc := s.pc, mem := s.mem } ∧
      t.snapCompared = false ∧
      t.requests = if s.snap.isSome = true ∧ s.snapCompared = false
        then .snapshotNeverCompared :: s.requests else s.requests)) ∧
    (∀ k, s.reg 2 = 19 → s.snap = some k → Completes .syscall s (fun t =>
      keeps t ∧ t.snap = s.snap ∧ t.snapCompared = true ∧
      ∃ special, t.requests = .snapshotDiff
        ((List.finRange 32).countP fun i => decide (s.reg i ≠ k.regs[i])) special
        ((List.range s.mem.size).countP fun a => decide (s.mem.byte a ≠ k.mem.byte a))
          :: s.requests)) ∧
    (s.reg 2 = 19 → s.snap = none → exec .syscall s = .next s)

/-- R174 (the spec's decision D28): 30 writes the halves of one 64-bit time, the host's answer, to `x[4]`
and `x[5]`; the tone and sleep services change nothing of the block. -/
def Obligations.TimeServicesWriteTwoRegisters : Prop :=
  ∀ s : State,
    (s.reg 2 = 30 → Completes .syscall s (fun t =>
      t.reg 4 = (Config.drawTime s.draws).extractLsb' 0 32 ∧
      t.reg 5 = (Config.drawTime s.draws).extractLsb' 32 32 ∧ KeepsRegs [4, 5] s t ∧ t.pc = s.pc ∧
      KeepsHiLo s t ∧ KeepsMemory s t ∧ KeepsRun s t ∧ KeepsSnapshot s t ∧
      t.requests = .readTime :: s.requests)) ∧
    ((s.reg 2 = 31 ∨ s.reg 2 = 33) →
      Completes .syscall s (OnlyAsks (.tone (s.reg 2) (s.reg 4) (s.reg 5)) s)) ∧
    (s.reg 2 = 32 → Completes .syscall s (OnlyAsks (.sleep (s.reg 4)) s))

/-- R161 (the spec's decision D32; notes/assumptions/12.md for the debugger's turn): break suspends the run
with `pc` at `pc_i + 4`, asks for the debugger, and changes nothing of the block; nor does the step that
follows, whatever the debugger answers. -/
def Obligations.BreakSuspendsForTheDebugger : Prop :=
  SelectedByFunct 0x0D (fun _ _ _ _ => .brk) ∧
  ∀ s : State, Completes .brk s (fun t =>
    t.status = .suspended ∧ t.requests = .debug :: s.requests ∧ t.draws = s.draws ∧
    KeepsBlock s t ∧ t.refused = s.refused ∧ t.stepping = s.stepping ∧
    ∃ v, step t = .next v ∧ KeepsBlock t v ∧
      v.status = if Config.drawDebug t.draws = none then .suspended else .running)

/-! ### Construction -/

/-- R243: the constructed state, for every value of the OPEN parameters: `x[0] = 0`, the other
registers, HI and LO as the parameters say, `pc` at the load address, the segments in memory and
`init_mem` elsewhere, the status `Running`, no snapshot. -/
def Obligations.ConstructionBuildsTheResetState : Prop :=
  ∀ (p : Config.Params) (img : Config.Image), WellFormed.image p img = true →
    ∃ s, construct p img = .ok s ∧
      s.reg 0 = 0 ∧ (∀ i : Reg, i ≠ 0 → s.reg i = p.initGpr i) ∧ s.hi = p.initHi ∧
      s.lo = p.initLo ∧ (s.pc.toNat : Int) = img.progBase ∧ s.mem.size = p.memSize ∧
      (∀ k, k < img.text.length → s.mem.byte (img.progBase.toNat + k) = img.text.getD k 0) ∧
      (∀ bytes base, img.data = some (bytes, base) → ∀ k, k < bytes.length →
        s.mem.byte (base.toNat + k) = bytes.getD k 0) ∧
      (∀ a, a < p.memSize →
        ((a : Int) < img.progBase ∨ img.progBase + img.text.length ≤ a) →
        (∀ bytes base, img.data = some (bytes, base) →
          (a : Int) < base ∨ base + bytes.length ≤ a) →
        s.mem.byte a = p.initMem a) ∧
      s.status = .running ∧ s.snap = none ∧ s.snapCompared = false

/-- Construction succeeds exactly for the images that meet every load constraint: those of R242, of which
the spec marks all but the first as its own choice (its decision D27), and that of R245 on INIT_PC. -/
def Obligations.LoadConstraintsAreExact : Prop :=
  ∀ (p : Config.Params) (img : Config.Image),
    (∃ s, construct p img = .ok s) ↔
      (0 < p.memSize ∧ p.memSize ≤ 2 ^ 32) ∧
      (0 < img.text.length ∧ img.text.length % 4 = 0) ∧ img.progBase % 4 = 0 ∧
      (0 ≤ img.progBase ∧ img.progBase + img.text.length ≤ p.memSize) ∧
      (∀ bytes base, img.data = some (bytes, base) →
        0 ≤ base ∧ base + bytes.length ≤ p.memSize ∧
        (0 < bytes.length →
          img.progBase + img.text.length ≤ base ∨ base + bytes.length ≤ img.progBase)) ∧
      p.initPc = img.progBase

/-- R241: the container round-trips: what is written for an image whose lengths and bases are int32 values
is read back as that image. -/
def Obligations.ContainerRoundTrips : Prop :=
  ∀ img : Config.Image,
    0 < img.text.length → img.text.length < 2 ^ 31 →
    -2 ^ 31 ≤ img.progBase → img.progBase < 2 ^ 31 →
    (∀ bytes base, img.data = some (bytes, base) →
      bytes.length < 2 ^ 31 ∧ -2 ^ 31 ≤ base ∧ base < 2 ^ 31) →
    parseContainer (containerBytes img) = .ok img

/-- R243: what the spec gives for reset, at `State.reset`, with the default PROG_BASE and MEM_SIZE of R5
(notes/assumptions/4.md). Nothing is said of the values the model chose for the OPEN parameters. -/
def Obligations.ResetStateIsAsTheSpecGives : Prop :=
  State.reset.reg 0 = 0 ∧ State.reset.pc = 0x40 ∧ State.reset.mem.size = 8192 ∧
  State.reset.status = .running ∧ State.reset.snap = none ∧ State.reset.snapCompared = false

/-! ### The invariant, and rules over all instructions -/

/-- Every step keeps the invariant: canonical memory, a legal MEM_SIZE, snapshots of that size, a
single-step mark only while running, and fault records that fit the state (R221, R222). -/
def Obligations.EveryStepKeepsTheInvariant : Prop :=
  ∀ s t : State, s.Inv → step s = .next t → t.Inv

/-- The invariant holds at reset. -/
def Obligations.ResetMeetsTheInvariant : Prop := State.reset.Inv

/-- The invariant holds in every state construction builds, for every value of the OPEN parameters. -/
def Obligations.ConstructionMeetsTheInvariant : Prop :=
  ∀ (p : Config.Params) (img : Config.Image) (s : State), construct p img = .ok s → s.Inv

/-- R104: a body that raises a fault has no effect but the record: whatever the instruction, if it leaves a
running state faulted, no register, HI, LO, pc, byte or snapshot has changed, the host has received
nothing, and `pc_fault` is `pc_i`. -/
def Obligations.FaultingBodiesWriteNothing : Prop :=
  ∀ (i : Instr) (s t : State) (k : FaultKind) (p : Word), s.status = .running →
    exec i s = .next t → t.status = .faulted k p →
    p = s.pc - 4 ∧ KeepsBlock s t ∧ KeepsHost s t ∧ t.stepping = s.stepping

/-- Every fault a step records, by kind, as R221's table and R222 have it: its code, who raises it and on
what condition; the record's `pc_fault` is the `pc` the step began with, where `pc` stays after a fetch
fault, and 4 past which it stands after a body fault. The codes and all kinds but the first two are the
spec's own (its decision D34); of a syscall's `MemoryFault` only that its range is not in memory is said
(notes/assumptions/13.md; ServicesCheckTheirRangesFirst says more). -/
def Obligations.FaultsArisePerTheTable : Prop :=
  ∀ (s t : State) (k : FaultKind) (p : Word), s.status = .running → step s = .next t →
    t.status = .faulted k p →
    let runs (i : Instr) : Prop := ∃ w, Fetches s w ∧ decode w = .ok i
    let outside (n : Int) : Prop := n < -2 ^ 31 ∨ 2 ^ 31 - 1 < n
    p = s.pc ∧
    t.pc = (match k with
      | .fetchMisaligned _ | .memoryFault _ _ .fetch => s.pc
      | _ => s.pc + 4) ∧
    match k with
    | .illegalInstruction pcI w => k.code = 1 ∧ pcI = s.pc ∧ Fetches s w ∧ IllegalKey w
    | .integerOverflow pcI => k.code = 2 ∧ pcI = s.pc ∧
      ((∃ rd rs rt, runs (.add rd rs rt) ∧ outside ((s.reg rs).toInt + (s.reg rt).toInt)) ∨
       (∃ rd rs rt, runs (.sub rd rs rt) ∧ outside ((s.reg rs).toInt - (s.reg rt).toInt)) ∨
       (∃ rt rs imm, runs (.addi rt rs imm) ∧
        outside ((s.reg rs).toInt + (imm.signExtend 32).toInt)))
    | .memoryFault a n kind => k.code = 3 ∧ s.mem.size < a + n ∧
      match kind with
      | .fetch => a = s.pc.toNat ∧ n = 4
      | .load => ∃ rt rs imm, a = (s.effAddr rs imm).toNat ∧
        ((n = 1 ∧ (runs (.lb rt imm rs) ∨ runs (.lbu rt imm rs))) ∨
         (n = 2 ∧ (runs (.lh rt imm rs) ∨ runs (.lhu rt imm rs))) ∨
         (n = 4 ∧ runs (.lw rt imm rs)))
      | .store => ∃ rt rs imm, a = (s.effAddr rs imm).toNat ∧
        ((n = 1 ∧ runs (.sb rt imm rs)) ∨ (n = 2 ∧ runs (.sh rt imm rs)) ∨
         (n = 4 ∧ runs (.sw rt imm rs)))
      | .syscall => runs .syscall ∧ (s.reg 2).toNat ∈ [4, 8, 13, 14, 15]
    | .fetchMisaligned q => k.code = 4 ∧ q = s.pc ∧ s.pc.toNat % 4 ≠ 0
    | .divideByZero pcI => k.code = 5 ∧ pcI = s.pc ∧
      ∃ rs rt, s.reg rt = 0 ∧ (runs (.div rs rt) ∨ runs (.divu rs rt))
    | .unimplementedSyscall pcI => k.code = 6 ∧ pcI = s.pc ∧ runs .syscall ∧ s.reg 2 = 9

/-- R164, R206 to R208 (and R23's table): memory changes only in a step that runs sb, sh or sw, or syscall
service 8 or 14. -/
def Obligations.OnlyStoresAndReadServicesChangeMemory : Prop :=
  ∀ s t : State, step s = .next t →
    t.mem = s.mem ∨ ∃ w i, Fetches s w ∧ decode w = .ok i ∧
      (IsStore i ∨ (i = .syscall ∧ (s.reg 2 = 8 ∨ s.reg 2 = 14)))

/-- R24: HI and LO change only in a step that runs mult, multu, div or divu. -/
def Obligations.OnlyMultiplyAndDivideChangeHiLo : Prop :=
  ∀ s t : State, step s = .next t →
    (t.hi = s.hi ∧ t.lo = s.lo) ∨ ∃ w i, Fetches s w ∧ decode w = .ok i ∧ IsMulDiv i

/-- R29: the snapshot is "a full independent copy": no step changes it but the one that runs syscall
service 18. -/
def Obligations.OnlyServiceEighteenChangesTheSnapshot : Prop :=
  ∀ s t : State, step s = .next t →
    t.snap = s.snap ∨ ∃ w, Fetches s w ∧ decode w = .ok .syscall ∧ s.reg 2 = 18

/-- R25: an aligned `pc` stays aligned: only jr can leave a misaligned one. -/
def Obligations.OnlyJrMisalignsThePc : Prop :=
  ∀ s t : State, s.pc.toNat % 4 = 0 → step s = .next t →
    t.pc.toNat % 4 = 0 ∨ ∃ w rs, Fetches s w ∧ decode w = .ok (.jr rs)

/-- R105: only syscall and break interact with the host: every other body hands it nothing, and leaves the
run status, if it was `Running`, `Running` or `Faulted`. -/
def Obligations.OnlySyscallAndBreakReachTheHost : Prop :=
  ∀ (i : Instr) (s t : State), i ≠ .syscall → i ≠ .brk → exec i s = .next t →
    t.requests = s.requests ∧ t.snap = s.snap ∧ t.snapCompared = s.snapCompared ∧
    (t.status = s.status ∨ ∃ k p, t.status = .faulted k p)

/-- Every body answers a next state from every state. The form is the model's: where R108 has the
outcomes `Fault` and, for service 9 (R171), `Refused`, the model's body answers the state the spec says they
leave, faulted or also marked refused (notes/assumptions/6.md, 7.md; DEDUCED), and only a step after it
stops. -/
def Obligations.EveryBodyAnswersANextState : Prop :=
  ∀ (i : Instr) (s : State), ∃ t, exec i s = .next t

/-- What was asked of the host before is no state of the block (R30; notes/assumptions/11.md): for the same
host answers (R109), it changes nothing in what a step does but the list itself. The two steps compared
have equal draw counters, and so, by the model's choice, equal answers (notes/assumptions/9.md, DESIGN
CHOICE): the statement says nothing of a host whose answers depend on what it was asked before. -/
def Obligations.PastRequestsInfluenceNothing : Prop :=
  ∀ (s t : State) (q : List HostRequest), step s = .next t →
    ∃ q', step { s with requests := q } = .next { t with requests := q' }

/-! ### The encoding side of the assembler -/

/-- R82 (the spec derives it from R187 and R185): the two words of `li rd,imm` leave `wrap32(imm)` in
`x[rd]`, for every imm in [-2^31, 2^32). -/
def Obligations.LiBuildsEveryConstant : Prop :=
  ∀ (rd : Reg) (imm : Int), -2 ^ 31 ≤ imm → imm < 2 ^ 32 →
    ∃ i j, (liWords rd imm).map decode = [.ok i, .ok j] ∧
      ∀ s, Completes i s (fun t => Completes j t (fun v =>
        v.reg rd = wrap32 imm ∧ KeepsRegs [rd] s v ∧ KeepsMemory s v))

/-- R84 (the spec's decisions D18, D38): a branch to a label is resolved exactly when its displacement in
words, counted from the word after the branch, fits 16 signed bits, and then it lands exactly on the label
when taken, wherever the text is loaded. -/
def Obligations.ResolvedBranchesLandOnTheirLabels : Prop :=
  ∀ (rs rt : Reg) (off labelOff : Nat), off % 4 = 0 → labelOff % 4 = 0 →
    ((∃ w, relocateBranch (encodeI 0x04 rs.val rt.val 0) off labelOff = .ok w) ↔
      -32768 * 4 ≤ (labelOff : Int) - (off + 4) ∧ (labelOff : Int) - (off + 4) ≤ 32767 * 4) ∧
    ∀ w, relocateBranch (encodeI 0x04 rs.val rt.val 0) off labelOff = .ok w →
      ∃ imm, decode w = .ok (.beq rs rt imm) ∧
        ∀ (base : Nat) (s : State), s.pc = BitVec.ofNat 32 (base + off + 4) →
          s.reg rs = s.reg rt →
          Completes (.beq rs rt imm) s (fun t => t.pc = BitVec.ofNat 32 (base + labelOff))

/-- R85 (the spec's decision D38): a j or jal resolved to a label goes exactly to `PROG_BASE + label_off`,
jal linking the word after it; and, with PROG_BASE and the offset multiples of 4 and the word after the jump
below 2^32, it is resolved exactly when THE WORD AFTER THE JUMP and the label lie in the same aligned
2^28-byte region. That is the region the jump keeps (R210); R85 speaks of the jump's own, which differs for
a jump in the last word of a region (notes/assumptions/23.md). -/
def Obligations.ResolvedJumpsReachTheirLabels : Prop :=
  ∀ (p : Config.AsmParams) (off labelOff : Nat),
    (∀ w, relocateJump p (encodeJ 0x02 0) off labelOff = .ok w →
      ∃ target, decode w = .ok (.j target) ∧
        ∀ s : State, s.pc = BitVec.ofNat 32 (p.progBase + off + 4) →
          Completes (.j target) s (fun t => t.pc.toNat = p.progBase + labelOff)) ∧
    (∀ w, relocateJump p (encodeJ 0x03 0) off labelOff = .ok w →
      ∃ target, decode w = .ok (.jal target) ∧
        ∀ s : State, s.pc = BitVec.ofNat 32 (p.progBase + off + 4) →
          Completes (.jal target) s
            (fun t => t.pc.toNat = p.progBase + labelOff ∧ t.reg 31 = s.pc)) ∧
    (p.progBase % 4 = 0 → labelOff % 4 = 0 → p.progBase + off + 4 < 2 ^ 32 →
      ∀ op : Int, op = 0x02 ∨ op = 0x03 →
        ((∃ w, relocateJump p (encodeJ op 0) off labelOff = .ok w) ↔
          (p.progBase + off + 4) / 2 ^ 28 = (p.progBase + labelOff) / 2 ^ 28))

/-- R86: the two words of `la rd,label`, resolved, leave the exact 32-bit data address in `x[rd]`. -/
def Obligations.LaBuildsTheDataAddress : Prop :=
  ∀ (p : Config.AsmParams) (rd : Reg) (labelOff : Nat), p.dataBase + labelOff < 2 ^ 32 →
    ∃ w w' i j,
      relocateData p (encodeI 0x0F (0 : Reg).val rd.val 0) (some .high) labelOff = .ok w ∧
      relocateData p (encodeI 0x0D rd.val rd.val 0) (some .low) labelOff = .ok w' ∧
      decode w = .ok i ∧ decode w' = .ok j ∧
      ∀ s, Completes i s (fun t => Completes j t (fun v =>
        (v.reg rd).toNat = p.dataBase + labelOff))
end

