-- ==== Sys2Proof/Laws/Exec.lean ====
section
/-!
SUPPORT. What each instruction body answers, one equation per instruction: the meaning in terms of the
shared operations, so that no later proof unfolds `exec` or a meaning.
-/

namespace Sys2Proof.Machine

@[simp] theorem exec_sll (rd : Reg) (rt : Reg) (sh : BitVec 5) (s : State) :
    exec (.sll rd rt sh) s = .next (s.setReg rd (s.reg rt <<< sh.toNat)) := rfl
@[simp] theorem exec_srl (rd : Reg) (rt : Reg) (sh : BitVec 5) (s : State) :
    exec (.srl rd rt sh) s = .next (s.setReg rd (s.reg rt >>> sh.toNat)) := rfl
@[simp] theorem exec_sra (rd : Reg) (rt : Reg) (sh : BitVec 5) (s : State) :
    exec (.sra rd rt sh) s = .next (s.setReg rd ((s.reg rt).sshiftRight sh.toNat)) := rfl
@[simp] theorem exec_sllv (rd : Reg) (rt : Reg) (rs : Reg) (s : State) :
    exec (.sllv rd rt rs) s = .next (s.setReg rd (s.reg rt <<< (shiftAmount (s.reg rs)).toNat)) := rfl
@[simp] theorem exec_srlv (rd : Reg) (rt : Reg) (rs : Reg) (s : State) :
    exec (.srlv rd rt rs) s = .next (s.setReg rd (s.reg rt >>> (shiftAmount (s.reg rs)).toNat)) := rfl
@[simp] theorem exec_srav (rd : Reg) (rt : Reg) (rs : Reg) (s : State) :
    exec (.srav rd rt rs) s = .next (s.setReg rd ((s.reg rt).sshiftRight (shiftAmount (s.reg rs)).toNat)) := rfl
@[simp] theorem exec_jr (rs : Reg) (s : State) :
    exec (.jr rs) s = .next (s.setPc (s.reg rs)) := rfl
@[simp] theorem exec_syscall (s : State) :
    exec (.syscall) s = .next (s.service (s.reg codeReg).toNat) := rfl
@[simp] theorem exec_brk (s : State) :
    exec (.brk) s = .next s.suspend := rfl
@[simp] theorem exec_mfhi (rd : Reg) (s : State) :
    exec (.mfhi rd) s = .next (s.setReg rd s.hi) := rfl
@[simp] theorem exec_mflo (rd : Reg) (s : State) :
    exec (.mflo rd) s = .next (s.setReg rd s.lo) := rfl
@[simp] theorem exec_mult (rs : Reg) (rt : Reg) (s : State) :
    exec (.mult rs rt) s = .next (s.setProduct ((s.reg rs).toInt * (s.reg rt).toInt)) := rfl
@[simp] theorem exec_multu (rs : Reg) (rt : Reg) (s : State) :
    exec (.multu rs rt) s = .next (s.setProduct ((s.reg rs).toNat * (s.reg rt).toNat : Nat)) := rfl
@[simp] theorem exec_div (rs : Reg) (rt : Reg) (s : State) :
    exec (.div rs rt) s = .next (s.divSigned (s.reg rs).toInt (s.reg rt).toInt) := rfl
@[simp] theorem exec_divu (rs : Reg) (rt : Reg) (s : State) :
    exec (.divu rs rt) s = .next (s.divUnsigned (s.reg rs).toNat (s.reg rt).toNat) := rfl
@[simp] theorem exec_add (rd : Reg) (rs : Reg) (rt : Reg) (s : State) :
    exec (.add rd rs rt) s = .next (s.setRegChecked rd ((s.reg rs).toInt + (s.reg rt).toInt)) := rfl
@[simp] theorem exec_addu (rd : Reg) (rs : Reg) (rt : Reg) (s : State) :
    exec (.addu rd rs rt) s = .next (s.setReg rd (s.reg rs + s.reg rt)) := rfl
@[simp] theorem exec_sub (rd : Reg) (rs : Reg) (rt : Reg) (s : State) :
    exec (.sub rd rs rt) s = .next (s.setRegChecked rd ((s.reg rs).toInt - (s.reg rt).toInt)) := rfl
@[simp] theorem exec_subu (rd : Reg) (rs : Reg) (rt : Reg) (s : State) :
    exec (.subu rd rs rt) s = .next (s.setReg rd (s.reg rs - s.reg rt)) := rfl
@[simp] theorem exec_and (rd : Reg) (rs : Reg) (rt : Reg) (s : State) :
    exec (.and rd rs rt) s = .next (s.setReg rd (s.reg rs &&& s.reg rt)) := rfl
@[simp] theorem exec_or (rd : Reg) (rs : Reg) (rt : Reg) (s : State) :
    exec (.or rd rs rt) s = .next (s.setReg rd (s.reg rs ||| s.reg rt)) := rfl
@[simp] theorem exec_xor (rd : Reg) (rs : Reg) (rt : Reg) (s : State) :
    exec (.xor rd rs rt) s = .next (s.setReg rd (s.reg rs ^^^ s.reg rt)) := rfl
@[simp] theorem exec_nor (rd : Reg) (rs : Reg) (rt : Reg) (s : State) :
    exec (.nor rd rs rt) s = .next (s.setReg rd (~~~(s.reg rs ||| s.reg rt))) := rfl
@[simp] theorem exec_slt (rd : Reg) (rs : Reg) (rt : Reg) (s : State) :
    exec (.slt rd rs rt) s = .next (s.setReg rd (boolWord (signedLess (s.reg rs) (s.reg rt)))) := rfl
@[simp] theorem exec_sltu (rd : Reg) (rs : Reg) (rt : Reg) (s : State) :
    exec (.sltu rd rs rt) s = .next (s.setReg rd (boolWord (unsignedLess (s.reg rs) (s.reg rt)))) := rfl
@[simp] theorem exec_j (target : BitVec 26) (s : State) :
    exec (.j target) s = .next (s.setPc (s.jumpTarget target)) := rfl
@[simp] theorem exec_jal (target : BitVec 26) (s : State) :
    exec (.jal target) s = .next (s.link.setPc (s.jumpTarget target)) := rfl
@[simp] theorem exec_beq (rs : Reg) (rt : Reg) (imm : BitVec 16) (s : State) :
    exec (.beq rs rt imm) s = .next (s.branchIf (decide (s.reg rs = s.reg rt)) imm) := rfl
@[simp] theorem exec_bne (rs : Reg) (rt : Reg) (imm : BitVec 16) (s : State) :
    exec (.bne rs rt imm) s = .next (s.branchIf (decide (s.reg rs ≠ s.reg rt)) imm) := rfl
@[simp] theorem exec_blez (rs : Reg) (imm : BitVec 16) (s : State) :
    exec (.blez rs imm) s = .next (s.branchIf (decide ((s.reg rs).toInt ≤ 0)) imm) := rfl
@[simp] theorem exec_bgtz (rs : Reg) (imm : BitVec 16) (s : State) :
    exec (.bgtz rs imm) s = .next (s.branchIf (decide ((s.reg rs).toInt > 0)) imm) := rfl
@[simp] theorem exec_addi (rt : Reg) (rs : Reg) (imm : BitVec 16) (s : State) :
    exec (.addi rt rs imm) s = .next (s.setRegChecked rt ((s.reg rs).toInt + (signedImm imm).toInt)) := rfl
@[simp] theorem exec_addiu (rt : Reg) (rs : Reg) (imm : BitVec 16) (s : State) :
    exec (.addiu rt rs imm) s = .next (s.setReg rt (s.reg rs + signedImm imm)) := rfl
@[simp] theorem exec_slti (rt : Reg) (rs : Reg) (imm : BitVec 16) (s : State) :
    exec (.slti rt rs imm) s = .next (s.setReg rt (boolWord (signedLess (s.reg rs) (signedImm imm)))) := rfl
@[simp] theorem exec_sltiu (rt : Reg) (rs : Reg) (imm : BitVec 16) (s : State) :
    exec (.sltiu rt rs imm) s = .next (s.setReg rt (boolWord (unsignedLess (s.reg rs) (signedImm imm)))) := rfl
@[simp] theorem exec_andi (rt : Reg) (rs : Reg) (imm : BitVec 16) (s : State) :
    exec (.andi rt rs imm) s = .next (s.setReg rt (s.reg rs &&& zeroImm imm)) := rfl
@[simp] theorem exec_ori (rt : Reg) (rs : Reg) (imm : BitVec 16) (s : State) :
    exec (.ori rt rs imm) s = .next (s.setReg rt (s.reg rs ||| zeroImm imm)) := rfl
@[simp] theorem exec_xori (rt : Reg) (rs : Reg) (imm : BitVec 16) (s : State) :
    exec (.xori rt rs imm) s = .next (s.setReg rt (s.reg rs ^^^ zeroImm imm)) := rfl
@[simp] theorem exec_lui (rt : Reg) (imm : BitVec 16) (s : State) :
    exec (.lui rt imm) s = .next (s.setReg rt (upperImm imm)) := rfl
@[simp] theorem exec_lb (rt : Reg) (imm : BitVec 16) (rs : Reg) (s : State) :
    exec (.lb rt imm rs) s = .next (s.load rt rs imm 1 signByte) := rfl
@[simp] theorem exec_lh (rt : Reg) (imm : BitVec 16) (rs : Reg) (s : State) :
    exec (.lh rt imm rs) s = .next (s.load rt rs imm 2 signHalf) := rfl
@[simp] theorem exec_lw (rt : Reg) (imm : BitVec 16) (rs : Reg) (s : State) :
    exec (.lw rt imm rs) s = .next (s.load rt rs imm 4 id) := rfl
@[simp] theorem exec_lbu (rt : Reg) (imm : BitVec 16) (rs : Reg) (s : State) :
    exec (.lbu rt imm rs) s = .next (s.load rt rs imm 1 zeroByte) := rfl
@[simp] theorem exec_lhu (rt : Reg) (imm : BitVec 16) (rs : Reg) (s : State) :
    exec (.lhu rt imm rs) s = .next (s.load rt rs imm 2 zeroHalf) := rfl
@[simp] theorem exec_sb (rt : Reg) (imm : BitVec 16) (rs : Reg) (s : State) :
    exec (.sb rt imm rs) s = .next (s.store rt rs imm 1) := rfl
@[simp] theorem exec_sh (rt : Reg) (imm : BitVec 16) (rs : Reg) (s : State) :
    exec (.sh rt imm rs) s = .next (s.store rt rs imm 2) := rfl
@[simp] theorem exec_sw (rt : Reg) (imm : BitVec 16) (rs : Reg) (s : State) :
    exec (.sw rt imm rs) s = .next (s.store rt rs imm 4) := rfl
@[simp] theorem exec_bltz (rs : Reg) (imm : BitVec 16) (s : State) :
    exec (.bltz rs imm) s = .next (s.branchIf (decide ((s.reg rs).toInt < 0)) imm) := rfl
@[simp] theorem exec_bgez (rs : Reg) (imm : BitVec 16) (s : State) :
    exec (.bgez rs imm) s = .next (s.branchIf (decide ((s.reg rs).toInt ≥ 0)) imm) := rfl
@[simp] theorem exec_bltzal (rs : Reg) (imm : BitVec 16) (s : State) :
    exec (.bltzal rs imm) s = .next (s.link.branchIf (decide ((s.reg rs).toInt < 0)) imm) := rfl
@[simp] theorem exec_bgezal (rs : Reg) (imm : BitVec 16) (s : State) :
    exec (.bgezal rs imm) s = .next (s.link.branchIf (decide ((s.reg rs).toInt ≥ 0)) imm) := rfl

end Sys2Proof.Machine
end

