-- ==== Sys2Proof/Laws/Decode.lean ====
section
/-!
SUPPORT. The laws of the codec: what each getter reads from each encoder's word, so that no later proof
looks at a bit; and what the decoder answers from its key fields.
-/

namespace Sys2Proof

/-! ### One field of one setter -/

theorem extract_setField_same {lo width : Nat} (h : lo + width ≤ 32) (v : Int) :
    (setField lo width v).extractLsb' lo width = BitVec.ofInt width v := by
  ext i hi
  simp only [setField, BitVec.getElem_extractLsb', BitVec.getLsbD_shiftLeft,
    BitVec.getLsbD_setWidth, Nat.add_sub_cancel_left]
  simp only [show lo + i < 32 by omega, show ¬(lo + i < lo) by omega, show i < 32 by omega,
    decide_true, decide_false, Bool.not_false, Bool.true_and, BitVec.getLsbD_eq_getElem hi]

theorem extract_setField_disjoint {lo width lo' width' : Nat} (v : Int)
    (h : lo' + width' ≤ lo ∨ lo + width ≤ lo') :
    (setField lo width v).extractLsb' lo' width' = 0 := by
  ext i hi
  simp only [setField, BitVec.getElem_extractLsb', BitVec.getLsbD_shiftLeft,
    BitVec.getLsbD_setWidth]
  rcases h with h | h
  · simp [show lo' + i < lo by omega]
  · simp only [BitVec.ofNat_eq_ofNat, BitVec.getElem_zero]
    rw [BitVec.getLsbD_of_ge _ _ (show width ≤ lo' + i - lo by omega)]
    simp

/-! ### The fields of the three forms -/

theorem extract_or (a b : Word) (lo width : Nat) :
    (a ||| b).extractLsb' lo width = a.extractLsb' lo width ||| b.extractLsb' lo width := by
  ext i hi
  simp

section Forms
variable (op rs rt rd sh fn imm target : Int)

@[simp] theorem getOpcode_encodeR : getOpcode (encodeR op rs rt rd sh fn) = BitVec.ofInt 6 op := by
  simp [getOpcode, encodeR, setOpcode, setRs, setRt, setRd, setShamt, setFunct, extract_or,
    extract_setField_same, extract_setField_disjoint]

@[simp] theorem getRs_encodeR : getRs (encodeR op rs rt rd sh fn) = (BitVec.ofInt 5 rs).toFin := by
  simp [getRs, encodeR, setOpcode, setRs, setRt, setRd, setShamt, setFunct, extract_or,
    extract_setField_same, extract_setField_disjoint]

@[simp] theorem getRt_encodeR : getRt (encodeR op rs rt rd sh fn) = (BitVec.ofInt 5 rt).toFin := by
  simp [getRt, encodeR, setOpcode, setRs, setRt, setRd, setShamt, setFunct, extract_or,
    extract_setField_same, extract_setField_disjoint]

@[simp] theorem getRd_encodeR : getRd (encodeR op rs rt rd sh fn) = (BitVec.ofInt 5 rd).toFin := by
  simp [getRd, encodeR, setOpcode, setRs, setRt, setRd, setShamt, setFunct, extract_or,
    extract_setField_same, extract_setField_disjoint]

@[simp] theorem getShamt_encodeR : getShamt (encodeR op rs rt rd sh fn) = BitVec.ofInt 5 sh := by
  simp [getShamt, encodeR, setOpcode, setRs, setRt, setRd, setShamt, setFunct, extract_or,
    extract_setField_same, extract_setField_disjoint]

@[simp] theorem getFunct_encodeR : getFunct (encodeR op rs rt rd sh fn) = BitVec.ofInt 6 fn := by
  simp [getFunct, encodeR, setOpcode, setRs, setRt, setRd, setShamt, setFunct, extract_or,
    extract_setField_same, extract_setField_disjoint]

@[simp] theorem getOpcode_encodeI : getOpcode (encodeI op rs rt imm) = BitVec.ofInt 6 op := by
  simp [getOpcode, encodeI, setOpcode, setRs, setRt, setImm, extract_or, extract_setField_same,
    extract_setField_disjoint]

@[simp] theorem getRs_encodeI : getRs (encodeI op rs rt imm) = (BitVec.ofInt 5 rs).toFin := by
  simp [getRs, encodeI, setOpcode, setRs, setRt, setImm, extract_or, extract_setField_same,
    extract_setField_disjoint]

@[simp] theorem getRt_encodeI : getRt (encodeI op rs rt imm) = (BitVec.ofInt 5 rt).toFin := by
  simp [getRt, encodeI, setOpcode, setRs, setRt, setImm, extract_or, extract_setField_same,
    extract_setField_disjoint]

@[simp] theorem getImmField_encodeI :
    getImmField (encodeI op rs rt imm) = BitVec.ofInt 16 imm := by
  simp [getImmField, encodeI, setOpcode, setRs, setRt, setImm, extract_or, extract_setField_same,
    extract_setField_disjoint]

@[simp] theorem getOpcode_encodeJ : getOpcode (encodeJ op target) = BitVec.ofInt 6 op := by
  simp [getOpcode, encodeJ, setOpcode, setTarget, extract_or, extract_setField_same,
    extract_setField_disjoint]

@[simp] theorem getTarget_encodeJ : getTarget (encodeJ op target) = BitVec.ofInt 26 target := by
  simp [getTarget, encodeJ, setOpcode, setTarget, extract_or, extract_setField_same,
    extract_setField_disjoint]

end Forms

/-! ### The words of instructions -/

section Words
variable (op fn : Int) (rs rt rd : Reg) (sh : BitVec 5) (imm : BitVec 16)

/-- A register number survives its field. -/
@[simp] theorem toFin_ofInt_val (r : Reg) : (BitVec.ofInt 5 (r.val : Int)).toFin = r := by
  apply Fin.ext
  rw [BitVec.ofInt_natCast]
  show (BitVec.ofNat 5 r.val).toNat = r.val
  rw [BitVec.toNat_ofNat]
  exact Nat.mod_eq_of_lt r.isLt

@[simp] theorem getOpcode_encodeSpecial : getOpcode (encodeSpecial rs rt rd sh fn) = 0 := by
  simp [encodeSpecial]

@[simp] theorem getRs_encodeSpecial : getRs (encodeSpecial rs rt rd sh fn) = rs := by
  simp only [encodeSpecial, getRs_encodeR, toFin_ofInt_val]

@[simp] theorem getRt_encodeSpecial : getRt (encodeSpecial rs rt rd sh fn) = rt := by
  simp only [encodeSpecial, getRt_encodeR, toFin_ofInt_val]

@[simp] theorem getRd_encodeSpecial : getRd (encodeSpecial rs rt rd sh fn) = rd := by
  simp only [encodeSpecial, getRd_encodeR, toFin_ofInt_val]

@[simp] theorem getShamt_encodeSpecial : getShamt (encodeSpecial rs rt rd sh fn) = sh := by
  simp [encodeSpecial]

@[simp] theorem getFunct_encodeSpecial :
    getFunct (encodeSpecial rs rt rd sh fn) = BitVec.ofInt 6 fn := by
  simp [encodeSpecial]

@[simp] theorem getOpcode_encodeImm : getOpcode (encodeImm op rs rt imm) = BitVec.ofInt 6 op := by
  simp [encodeImm]

@[simp] theorem getRs_encodeImm : getRs (encodeImm op rs rt imm) = rs := by
  simp only [encodeImm, getRs_encodeI, toFin_ofInt_val]

@[simp] theorem getRt_encodeImm : getRt (encodeImm op rs rt imm) = rt := by
  simp only [encodeImm, getRt_encodeI, toFin_ofInt_val]

@[simp] theorem getImmField_encodeImm : getImmField (encodeImm op rs rt imm) = imm := by
  simp [encodeImm]

end Words

/-! ### Bytes of a word -/

/-- The four bytes of a word, put together again. -/
theorem wordOfBytes_bytesOfWord (w : Word) :
    wordOfBytes (w.extractLsb' 0 8) (w.extractLsb' 8 8) (w.extractLsb' 16 8) (w.extractLsb' 24 8)
      = w := by
  ext i hi
  simp only [wordOfBytes]
  grind

end Sys2Proof
end

