-- ==== Sys2Proof/Laws/Memory.lean ====
section
/-!
SUPPORT. The laws of memory: reading after writing, the canonical form and that every operation keeps
it, and what each memory operation answers.
-/

namespace Sys2Proof.Machine

/-! ### One byte -/

theorem Memory.lookup_append (xs ys : List Host.Cell) (a : Nat) :
    Memory.lookup (xs ++ ys) a =
      if a ∈ xs.map Prod.fst then Memory.lookup xs a else Memory.lookup ys a := by
  induction xs with
  | nil => simp
  | cons c xs ih =>
    obtain ⟨b, v⟩ := c
    by_cases hb : b = a
    · simp [Memory.lookup, hb]
    · simp [Memory.lookup, hb, ih, Ne.symm hb]

theorem Memory.lookup_of_not_mem {xs : List Host.Cell} {a : Nat} (h : a ∉ xs.map Prod.fst) :
    Memory.lookup xs a = Memory.unlisted := by
  induction xs with
  | nil => rfl
  | cons c xs ih =>
    obtain ⟨b, v⟩ := c
    simp only [List.map_cons, List.mem_cons, not_or] at h
    simp [Memory.lookup, Ne.symm h.1, ih h.2]

theorem Memory.lookup_filter (xs : List Host.Cell) (p : Nat → Bool) (a : Nat) :
    Memory.lookup (xs.filter fun c => p c.1) a =
      if p a then Memory.lookup xs a else Memory.unlisted := by
  induction xs with
  | nil => simp [Memory.lookup]
  | cons c xs ih =>
    obtain ⟨b, v⟩ := c
    by_cases hb : b = a
    · subst hb
      cases hp : p b <;> simp [Memory.lookup, hp, ih]
    · cases hp : p b <;> simp [Memory.lookup, hp, hb, ih]

theorem Memory.lookup_putCell (a : Nat) (v : Byte) (rest : List Host.Cell) (b : Nat)
    (h : v = Memory.unlisted → a ∉ rest.map Prod.fst) :
    Memory.lookup (Memory.putCell a v rest) b = if a = b then v else Memory.lookup rest b := by
  unfold Memory.putCell
  split
  · rename_i hv
    split
    · rename_i hab
      rw [hv, ← hab, Memory.lookup_of_not_mem (h hv)]
    · rfl
  · rfl

theorem Memory.lookup_insert (cells : List Host.Cell) (a : Nat) (v : Byte) (b : Nat) :
    Memory.lookup (Memory.insert cells a v) b = if a = b then v else Memory.lookup cells b := by
  have hput := Memory.lookup_putCell a v (cells.filter fun c => decide (a < c.1)) b
    (fun _ => by simp)
  rw [Memory.insert, Memory.lookup_append, hput,
    Memory.lookup_filter cells (fun k => decide (k < a)),
    Memory.lookup_filter cells (fun k => decide (a < k))]
  by_cases hab : a = b
  · subst hab; simp
  · by_cases hm : b ∈ (cells.filter fun c => decide (c.1 < a)).map Prod.fst
    · have hlt : b < a := by
        simp only [List.mem_map, List.mem_filter, decide_eq_true_eq] at hm
        obtain ⟨c, ⟨_, hc⟩, rfl⟩ := hm
        exact hc
      simp [hm, hlt, hab]
    · rw [if_neg hm, if_neg hab, if_neg hab]
      by_cases hlt : a < b
      · simp [hlt]
      · have hba : b < a := by omega
        have hn : b ∉ cells.map Prod.fst := by
          intro hc
          apply hm
          simp only [List.mem_map, List.mem_filter, decide_eq_true_eq] at hc ⊢
          obtain ⟨c, hc, rfl⟩ := hc
          exact ⟨c, ⟨hc, hba⟩, rfl⟩
        simp [hlt, Memory.lookup_of_not_mem hn]

/-- Reading a byte after writing one: the value written there, every other byte as before. -/
theorem Memory.byte_setByte (m : Memory) (a : Nat) (v : Byte) (b : Nat) :
    (m.setByte a v).byte b = if a = b then v else m.byte b :=
  Memory.lookup_insert m.cells a v b

@[simp] theorem Memory.setByte_size (m : Memory) (a : Nat) (v : Byte) :
    (m.setByte a v).size = m.size := rfl

/-! ### Consecutive bytes -/

@[simp] theorem Memory.setBytes_size (m : Memory) (a : Nat) (vs : List Byte) :
    (m.setBytes a vs).size = m.size := by
  induction vs generalizing m a with
  | nil => rfl
  | cons v vs ih => simp [Memory.setBytes, ih]

/-- Reading a byte after writing consecutive bytes. -/
theorem Memory.byte_setBytes (m : Memory) (a : Nat) (vs : List Byte) (b : Nat) :
    (m.setBytes a vs).byte b =
      if a ≤ b ∧ b < a + vs.length then vs.getD (b - a) 0 else m.byte b := by
  induction vs generalizing m a with
  | nil => simp [Memory.setBytes]
  | cons v vs ih =>
    rw [Memory.setBytes, ih, Memory.byte_setByte]
    by_cases hab : a = b
    · subst hab; simp
    · simp only [hab, if_false, List.length_cons]
      by_cases hb : a + 1 ≤ b ∧ b < a + 1 + vs.length
      · obtain ⟨k, rfl⟩ : ∃ k, b = a + 1 + k := ⟨b - (a + 1), by omega⟩
        rw [if_pos hb, if_pos (by omega), show a + 1 + k - (a + 1) = k by omega,
          show a + 1 + k - a = k + 1 by omega, List.getD_cons_succ]
      · rw [if_neg hb, if_neg (by omega)]

/-- The frame of a write: a byte outside the written ones is unchanged. -/
theorem Memory.byte_setBytes_outside (m : Memory) (a : Nat) (vs : List Byte) {b : Nat}
    (h : b < a ∨ a + vs.length ≤ b) : (m.setBytes a vs).byte b = m.byte b := by
  rw [Memory.byte_setBytes, if_neg (by omega)]

@[simp] theorem Memory.bytes_length (m : Memory) (a n : Nat) : (m.bytes a n).length = n := by
  induction n generalizing a with
  | zero => rfl
  | succ n ih => simp [Memory.bytes, ih]

@[simp] theorem Memory.bytesOf_length (v : Word) (n : Nat) : (Memory.bytesOf v n).length = n := by
  simp [Memory.bytesOf]

theorem Memory.bytesOf_getD (v : Word) {n k : Nat} (h : k < n) :
    (Memory.bytesOf v n).getD k 0 = v.extractLsb' (8 * k) 8 := by
  simp [Memory.bytesOf, List.getD_eq_getElem?_getD, h]

/-! ### MemRead and MemWrite: everything they can answer -/

theorem Memory.read_eq_some {m : Memory} {a n : Nat} {w : Word} :
    m.read a n = some w ↔ a + n ≤ m.size ∧ w = m.littleEndian a n := by
  unfold Memory.read Memory.inRange
  by_cases h : a + n ≤ m.size <;> simp [h, eq_comm]

theorem Memory.read_eq_none {m : Memory} {a n : Nat} :
    m.read a n = none ↔ m.size < a + n := by
  unfold Memory.read Memory.inRange
  by_cases h : a + n ≤ m.size
  · simp [h]
  · simp [h]
    omega

theorem Memory.write_eq_some {m m' : Memory} {a n : Nat} {v : Word} :
    m.write a n v = some m' ↔ a + n ≤ m.size ∧ m' = m.setBytes a (Memory.bytesOf v n) := by
  unfold Memory.write Memory.inRange
  by_cases h : a + n ≤ m.size <;> simp [h, eq_comm]

theorem Memory.write_eq_none {m : Memory} {a n : Nat} {v : Word} :
    m.write a n v = none ↔ m.size < a + n := by
  unfold Memory.write Memory.inRange
  by_cases h : a + n ≤ m.size
  · simp [h]
  · simp [h]
    omega

/-- The value of four bytes, spelled out. -/
theorem Memory.littleEndian_four (m : Memory) (a : Nat) :
    m.littleEndian a 4 = m.byte (a + 3) ++ m.byte (a + 2) ++ m.byte (a + 1) ++ m.byte a := by
  simp only [Memory.littleEndian]
  ext i hi
  simp
  grind

/-- The value of two bytes, spelled out. -/
theorem Memory.littleEndian_two (m : Memory) (a : Nat) :
    m.littleEndian a 2 = (m.byte (a + 1) ++ m.byte a).setWidth 32 := by
  simp only [Memory.littleEndian]
  ext i hi
  simp [BitVec.getElem_setWidth]
  grind

/-- The value of one byte. -/
theorem Memory.littleEndian_one (m : Memory) (a : Nat) :
    m.littleEndian a 1 = (m.byte a).setWidth 32 := by
  simp [Memory.littleEndian]

/-- A value depends on the bytes it is made of only. -/
theorem Memory.littleEndian_congr {m m' : Memory} {a : Nat} (n : Nat)
    (h : ∀ k, k < n → m.byte (a + k) = m'.byte (a + k)) :
    m.littleEndian a n = m'.littleEndian a n := by
  induction n generalizing a with
  | zero => rfl
  | succ n ih =>
    have h0 := h 0 (by omega)
    have hs : m.littleEndian (a + 1) n = m'.littleEndian (a + 1) n := by
      apply ih
      intro k hk
      have := h (k + 1) (by omega)
      rwa [show a + (k + 1) = a + 1 + k by omega] at this
    simp only [Nat.add_zero] at h0
    simp [Memory.littleEndian, h0, hs]

/-! ### The canonical form -/

theorem Memory.wf_setByte {m : Memory} (h : m.wf) {a : Nat} (v : Byte) (ha : a < m.size) :
    (m.setByte a v).wf := by
  obtain ⟨hs, hc⟩ := h
  have hbelow := hs.filter (fun c => decide (c.1 < a))
  have habove := hs.filter (fun c => decide (a < c.1))
  refine ⟨?_, ?_⟩
  · show (Memory.insert m.cells a v).Pairwise _
    unfold Memory.insert Memory.putCell
    split
    · refine List.pairwise_append.2 ⟨hbelow, habove, ?_⟩
      intro c hcm d hdm
      simp only [List.mem_filter, decide_eq_true_eq] at hcm hdm
      omega
    · refine List.pairwise_append.2 ⟨hbelow, List.pairwise_cons.2 ⟨?_, habove⟩, ?_⟩
      · intro d hdm
        simp only [List.mem_filter, decide_eq_true_eq] at hdm
        exact hdm.2
      · intro c hcm d hdm
        simp only [List.mem_filter, List.mem_cons, decide_eq_true_eq] at hcm hdm
        rcases hdm with rfl | hdm
        · exact hcm.2
        · omega
  · intro c hcm
    change c ∈ Memory.insert m.cells a v at hcm
    show c.1 < m.size ∧ _
    unfold Memory.insert Memory.putCell at hcm
    split at hcm
    · simp only [List.mem_append, List.mem_filter] at hcm
      rcases hcm with hcm | hcm <;> exact hc c hcm.1
    · rename_i hv
      simp only [List.mem_append, List.mem_cons, List.mem_filter] at hcm
      rcases hcm with hcm | rfl | hcm
      · exact hc c hcm.1
      · exact ⟨ha, hv⟩
      · exact hc c hcm.1

theorem Memory.wf_setBytes {m : Memory} (h : m.wf) {a : Nat} (vs : List Byte)
    (ha : a + vs.length ≤ m.size) : (m.setBytes a vs).wf := by
  induction vs generalizing m a with
  | nil => exact h
  | cons v vs ih =>
    simp only [List.length_cons] at ha
    exact ih (Memory.wf_setByte h v (by omega)) (by simp; omega)

theorem Memory.wf_write {m m' : Memory} {a n : Nat} {v : Word} (h : m.wf)
    (hw : m.write a n v = some m') : m'.wf := by
  obtain ⟨hr, rfl⟩ := Memory.write_eq_some.1 hw
  exact Memory.wf_setBytes h _ (by simpa using hr)

theorem Memory.wf_empty (n : Nat) : (Memory.mk n []).wf := by
  simp [Memory.wf]

theorem Memory.wf_ofFn (n : Nat) (f : Nat → Byte) : (Memory.ofFn n f).wf := by
  refine ⟨?_, ?_⟩
  · show List.Pairwise _ (List.filterMap _ _)
    refine List.pairwise_filterMap.2 (List.pairwise_lt_range.imp ?_)
    intro a b hab c hc d hd
    split at hc <;> split at hd <;> simp_all
    obtain rfl := hc; obtain rfl := hd
    exact hab
  · intro c hc
    change c ∈ List.filterMap _ _ at hc
    simp only [List.mem_filterMap, List.mem_range] at hc
    obtain ⟨a, ha, hc⟩ := hc
    split at hc
    · simp at hc
    · rename_i hv
      simp only [Option.some.injEq] at hc
      subst hc
      exact ⟨ha, hv⟩

/-- A listed address reads as its cell says. -/
theorem Memory.lookup_of_mem {xs : List Host.Cell} (hs : xs.Pairwise (fun c d => c.1 < d.1))
    {a : Nat} {v : Byte} (h : (a, v) ∈ xs) : Memory.lookup xs a = v := by
  induction xs with
  | nil => simp at h
  | cons c xs ih =>
    obtain ⟨b, w⟩ := c
    obtain ⟨hlt, hs⟩ := List.pairwise_cons.1 hs
    rcases List.mem_cons.1 h with h | h
    · simp only [Prod.mk.injEq] at h
      simp [Memory.lookup, h.1, h.2]
    · have : b < a := hlt _ h
      simp [Memory.lookup, this.ne, ih hs h]

/-- The array built from a function reads as the function. -/
theorem Memory.byte_ofFn (n : Nat) (f : Nat → Byte) {a : Nat} (ha : a < n) :
    (Memory.ofFn n f).byte a = f a := by
  by_cases hv : f a = Memory.unlisted
  · rw [hv]
    apply Memory.lookup_of_not_mem
    intro hm
    simp only [Memory.ofFn, List.mem_map, List.mem_filterMap, List.mem_range] at hm
    obtain ⟨c, ⟨b, _, hb⟩, rfl⟩ := hm
    split at hb
    · simp at hb
    · rename_i hne
      simp only [Option.some.injEq] at hb
      subst hb
      exact hne hv
  · apply Memory.lookup_of_mem (Memory.wf_ofFn n f).1
    simp only [Memory.ofFn, List.mem_filterMap, List.mem_range]
    exact ⟨a, ha, by simp [hv]⟩

/-- The canonical form is canonical: memories in it that read the same everywhere are equal. -/
theorem Memory.ext_of_wf {m m' : Memory} (h : m.wf) (h' : m'.wf) (hsize : m.size = m'.size)
    (hb : ∀ a, m.byte a = m'.byte a) : m = m' := by
  obtain ⟨n, xs⟩ := m
  obtain ⟨n', ys⟩ := m'
  simp only at hsize
  subst hsize
  congr 1
  have hmem : ∀ {us vs : List Host.Cell}, (Memory.mk n us).wf → (Memory.mk n vs).wf →
      (∀ a, Memory.lookup us a = Memory.lookup vs a) → ∀ c ∈ us, c ∈ vs := by
    intro us vs hu hv heq c hc
    obtain ⟨a, v⟩ := c
    have hl := Memory.lookup_of_mem hu.1 hc
    have hne : v ≠ Memory.unlisted := (hu.2 _ hc).2
    by_contra hn
    have : a ∈ vs.map Prod.fst := by
      by_contra hnm
      exact hne (by rw [← hl, heq, Memory.lookup_of_not_mem hnm])
    obtain ⟨⟨a', w⟩, hd, rfl⟩ := List.mem_map.1 this
    have := Memory.lookup_of_mem hv.1 hd
    rw [heq, this] at hl
    exact hn (hl ▸ hd)
  refine List.Perm.eq_of_pairwise (le := fun c d => c.1 < d.1)
    (fun c d _ _ hcd hdc => absurd hcd (by omega)) h.1 h'.1 ?_
  refine (List.perm_ext_iff_of_nodup ?_ ?_).2 fun c =>
    ⟨hmem h h' hb c, hmem h' h (fun a => (hb a).symm) c⟩
  · exact h.1.imp (fun hlt heq => by simp [heq] at hlt)
  · exact h'.1.imp (fun hlt heq => by simp [heq] at hlt)

end Sys2Proof.Machine
end

