-- ==== Sys2Proof/Laws/State.lean ====
section
/-!
SUPPORT. One lemma per field per update of the state, so that no later proof unfolds a record update,
and the laws of reading a register.
-/

namespace Sys2Proof.Machine

@[simp] theorem State.setReg_regs (s : State) (i : Reg) (v : Word) : (s.setReg i v).regs = s.regs.set i v := rfl
@[simp] theorem State.setReg_hi (s : State) (i : Reg) (v : Word) : (s.setReg i v).hi = s.hi := rfl
@[simp] theorem State.setReg_lo (s : State) (i : Reg) (v : Word) : (s.setReg i v).lo = s.lo := rfl
@[simp] theorem State.setReg_pc (s : State) (i : Reg) (v : Word) : (s.setReg i v).pc = s.pc := rfl
@[simp] theorem State.setReg_mem (s : State) (i : Reg) (v : Word) : (s.setReg i v).mem = s.mem := rfl
@[simp] theorem State.setReg_status (s : State) (i : Reg) (v : Word) : (s.setReg i v).status = s.status := rfl
@[simp] theorem State.setReg_refused (s : State) (i : Reg) (v : Word) : (s.setReg i v).refused = s.refused := rfl
@[simp] theorem State.setReg_snap (s : State) (i : Reg) (v : Word) : (s.setReg i v).snap = s.snap := rfl
@[simp] theorem State.setReg_snapCompared (s : State) (i : Reg) (v : Word) : (s.setReg i v).snapCompared = s.snapCompared := rfl
@[simp] theorem State.setReg_stepping (s : State) (i : Reg) (v : Word) : (s.setReg i v).stepping = s.stepping := rfl
@[simp] theorem State.setReg_draws (s : State) (i : Reg) (v : Word) : (s.setReg i v).draws = s.draws := rfl
@[simp] theorem State.setReg_requests (s : State) (i : Reg) (v : Word) : (s.setReg i v).requests = s.requests := rfl

@[simp] theorem State.setHiLo_regs (s : State) (h l : Word) : (s.setHiLo h l).regs = s.regs := rfl
@[simp] theorem State.setHiLo_hi (s : State) (h l : Word) : (s.setHiLo h l).hi = h := rfl
@[simp] theorem State.setHiLo_lo (s : State) (h l : Word) : (s.setHiLo h l).lo = l := rfl
@[simp] theorem State.setHiLo_pc (s : State) (h l : Word) : (s.setHiLo h l).pc = s.pc := rfl
@[simp] theorem State.setHiLo_mem (s : State) (h l : Word) : (s.setHiLo h l).mem = s.mem := rfl
@[simp] theorem State.setHiLo_status (s : State) (h l : Word) : (s.setHiLo h l).status = s.status := rfl
@[simp] theorem State.setHiLo_refused (s : State) (h l : Word) : (s.setHiLo h l).refused = s.refused := rfl
@[simp] theorem State.setHiLo_snap (s : State) (h l : Word) : (s.setHiLo h l).snap = s.snap := rfl
@[simp] theorem State.setHiLo_snapCompared (s : State) (h l : Word) : (s.setHiLo h l).snapCompared = s.snapCompared := rfl
@[simp] theorem State.setHiLo_stepping (s : State) (h l : Word) : (s.setHiLo h l).stepping = s.stepping := rfl
@[simp] theorem State.setHiLo_draws (s : State) (h l : Word) : (s.setHiLo h l).draws = s.draws := rfl
@[simp] theorem State.setHiLo_requests (s : State) (h l : Word) : (s.setHiLo h l).requests = s.requests := rfl

@[simp] theorem State.setPc_regs (s : State) (t : Word) : (s.setPc t).regs = s.regs := rfl
@[simp] theorem State.setPc_hi (s : State) (t : Word) : (s.setPc t).hi = s.hi := rfl
@[simp] theorem State.setPc_lo (s : State) (t : Word) : (s.setPc t).lo = s.lo := rfl
@[simp] theorem State.setPc_pc (s : State) (t : Word) : (s.setPc t).pc = t := rfl
@[simp] theorem State.setPc_mem (s : State) (t : Word) : (s.setPc t).mem = s.mem := rfl
@[simp] theorem State.setPc_status (s : State) (t : Word) : (s.setPc t).status = s.status := rfl
@[simp] theorem State.setPc_refused (s : State) (t : Word) : (s.setPc t).refused = s.refused := rfl
@[simp] theorem State.setPc_snap (s : State) (t : Word) : (s.setPc t).snap = s.snap := rfl
@[simp] theorem State.setPc_snapCompared (s : State) (t : Word) : (s.setPc t).snapCompared = s.snapCompared := rfl
@[simp] theorem State.setPc_stepping (s : State) (t : Word) : (s.setPc t).stepping = s.stepping := rfl
@[simp] theorem State.setPc_draws (s : State) (t : Word) : (s.setPc t).draws = s.draws := rfl
@[simp] theorem State.setPc_requests (s : State) (t : Word) : (s.setPc t).requests = s.requests := rfl

@[simp] theorem State.advance_regs (s : State) : (s.advance).regs = s.regs := rfl
@[simp] theorem State.advance_hi (s : State) : (s.advance).hi = s.hi := rfl
@[simp] theorem State.advance_lo (s : State) : (s.advance).lo = s.lo := rfl
@[simp] theorem State.advance_pc (s : State) : (s.advance).pc = s.pc + 4 := rfl
@[simp] theorem State.advance_mem (s : State) : (s.advance).mem = s.mem := rfl
@[simp] theorem State.advance_status (s : State) : (s.advance).status = s.status := rfl
@[simp] theorem State.advance_refused (s : State) : (s.advance).refused = s.refused := rfl
@[simp] theorem State.advance_snap (s : State) : (s.advance).snap = s.snap := rfl
@[simp] theorem State.advance_snapCompared (s : State) : (s.advance).snapCompared = s.snapCompared := rfl
@[simp] theorem State.advance_stepping (s : State) : (s.advance).stepping = s.stepping := rfl
@[simp] theorem State.advance_draws (s : State) : (s.advance).draws = s.draws := rfl
@[simp] theorem State.advance_requests (s : State) : (s.advance).requests = s.requests := rfl

@[simp] theorem State.setMem_regs (s : State) (m : Memory) : (s.setMem m).regs = s.regs := rfl
@[simp] theorem State.setMem_hi (s : State) (m : Memory) : (s.setMem m).hi = s.hi := rfl
@[simp] theorem State.setMem_lo (s : State) (m : Memory) : (s.setMem m).lo = s.lo := rfl
@[simp] theorem State.setMem_pc (s : State) (m : Memory) : (s.setMem m).pc = s.pc := rfl
@[simp] theorem State.setMem_mem (s : State) (m : Memory) : (s.setMem m).mem = m := rfl
@[simp] theorem State.setMem_status (s : State) (m : Memory) : (s.setMem m).status = s.status := rfl
@[simp] theorem State.setMem_refused (s : State) (m : Memory) : (s.setMem m).refused = s.refused := rfl
@[simp] theorem State.setMem_snap (s : State) (m : Memory) : (s.setMem m).snap = s.snap := rfl
@[simp] theorem State.setMem_snapCompared (s : State) (m : Memory) : (s.setMem m).snapCompared = s.snapCompared := rfl
@[simp] theorem State.setMem_stepping (s : State) (m : Memory) : (s.setMem m).stepping = s.stepping := rfl
@[simp] theorem State.setMem_draws (s : State) (m : Memory) : (s.setMem m).draws = s.draws := rfl
@[simp] theorem State.setMem_requests (s : State) (m : Memory) : (s.setMem m).requests = s.requests := rfl

@[simp] theorem State.endFaulted_regs (s : State) (k : FaultKind) (p : Word) : (s.endFaulted k p).regs = s.regs := rfl
@[simp] theorem State.endFaulted_hi (s : State) (k : FaultKind) (p : Word) : (s.endFaulted k p).hi = s.hi := rfl
@[simp] theorem State.endFaulted_lo (s : State) (k : FaultKind) (p : Word) : (s.endFaulted k p).lo = s.lo := rfl
@[simp] theorem State.endFaulted_pc (s : State) (k : FaultKind) (p : Word) : (s.endFaulted k p).pc = s.pc := rfl
@[simp] theorem State.endFaulted_mem (s : State) (k : FaultKind) (p : Word) : (s.endFaulted k p).mem = s.mem := rfl
@[simp] theorem State.endFaulted_status (s : State) (k : FaultKind) (p : Word) : (s.endFaulted k p).status = .faulted k p := rfl
@[simp] theorem State.endFaulted_refused (s : State) (k : FaultKind) (p : Word) : (s.endFaulted k p).refused = s.refused := rfl
@[simp] theorem State.endFaulted_snap (s : State) (k : FaultKind) (p : Word) : (s.endFaulted k p).snap = s.snap := rfl
@[simp] theorem State.endFaulted_snapCompared (s : State) (k : FaultKind) (p : Word) : (s.endFaulted k p).snapCompared = s.snapCompared := rfl
@[simp] theorem State.endFaulted_stepping (s : State) (k : FaultKind) (p : Word) : (s.endFaulted k p).stepping = s.stepping := rfl
@[simp] theorem State.endFaulted_draws (s : State) (k : FaultKind) (p : Word) : (s.endFaulted k p).draws = s.draws := rfl
@[simp] theorem State.endFaulted_requests (s : State) (k : FaultKind) (p : Word) : (s.endFaulted k p).requests = s.requests := rfl

@[simp] theorem State.raise_regs (s : State) (k : FaultKind) : (s.raise k).regs = s.regs := rfl
@[simp] theorem State.raise_hi (s : State) (k : FaultKind) : (s.raise k).hi = s.hi := rfl
@[simp] theorem State.raise_lo (s : State) (k : FaultKind) : (s.raise k).lo = s.lo := rfl
@[simp] theorem State.raise_pc (s : State) (k : FaultKind) : (s.raise k).pc = s.pc := rfl
@[simp] theorem State.raise_mem (s : State) (k : FaultKind) : (s.raise k).mem = s.mem := rfl
@[simp] theorem State.raise_status (s : State) (k : FaultKind) : (s.raise k).status = .faulted k s.pcI := rfl
@[simp] theorem State.raise_refused (s : State) (k : FaultKind) : (s.raise k).refused = s.refused := rfl
@[simp] theorem State.raise_snap (s : State) (k : FaultKind) : (s.raise k).snap = s.snap := rfl
@[simp] theorem State.raise_snapCompared (s : State) (k : FaultKind) : (s.raise k).snapCompared = s.snapCompared := rfl
@[simp] theorem State.raise_stepping (s : State) (k : FaultKind) : (s.raise k).stepping = s.stepping := rfl
@[simp] theorem State.raise_draws (s : State) (k : FaultKind) : (s.raise k).draws = s.draws := rfl
@[simp] theorem State.raise_requests (s : State) (k : FaultKind) : (s.raise k).requests = s.requests := rfl

@[simp] theorem State.refuse_regs (s : State) : (s.refuse).regs = s.regs := rfl
@[simp] theorem State.refuse_hi (s : State) : (s.refuse).hi = s.hi := rfl
@[simp] theorem State.refuse_lo (s : State) : (s.refuse).lo = s.lo := rfl
@[simp] theorem State.refuse_pc (s : State) : (s.refuse).pc = s.pc := rfl
@[simp] theorem State.refuse_mem (s : State) : (s.refuse).mem = s.mem := rfl
@[simp] theorem State.refuse_status (s : State) : (s.refuse).status = .faulted (.unimplementedSyscall s.pcI) s.pcI := rfl
@[simp] theorem State.refuse_refused (s : State) : (s.refuse).refused = true := rfl
@[simp] theorem State.refuse_snap (s : State) : (s.refuse).snap = s.snap := rfl
@[simp] theorem State.refuse_snapCompared (s : State) : (s.refuse).snapCompared = s.snapCompared := rfl
@[simp] theorem State.refuse_stepping (s : State) : (s.refuse).stepping = s.stepping := rfl
@[simp] theorem State.refuse_draws (s : State) : (s.refuse).draws = s.draws := rfl
@[simp] theorem State.refuse_requests (s : State) : (s.refuse).requests = s.requests := rfl

@[simp] theorem State.exit_regs (s : State) (c : Word) : (s.exit c).regs = s.regs := rfl
@[simp] theorem State.exit_hi (s : State) (c : Word) : (s.exit c).hi = s.hi := rfl
@[simp] theorem State.exit_lo (s : State) (c : Word) : (s.exit c).lo = s.lo := rfl
@[simp] theorem State.exit_pc (s : State) (c : Word) : (s.exit c).pc = s.pc := rfl
@[simp] theorem State.exit_mem (s : State) (c : Word) : (s.exit c).mem = s.mem := rfl
@[simp] theorem State.exit_status (s : State) (c : Word) : (s.exit c).status = .exited c := rfl
@[simp] theorem State.exit_refused (s : State) (c : Word) : (s.exit c).refused = s.refused := rfl
@[simp] theorem State.exit_snap (s : State) (c : Word) : (s.exit c).snap = s.snap := rfl
@[simp] theorem State.exit_snapCompared (s : State) (c : Word) : (s.exit c).snapCompared = s.snapCompared := rfl
@[simp] theorem State.exit_stepping (s : State) (c : Word) : (s.exit c).stepping = s.stepping := rfl
@[simp] theorem State.exit_draws (s : State) (c : Word) : (s.exit c).draws = s.draws := rfl
@[simp] theorem State.exit_requests (s : State) (c : Word) : (s.exit c).requests = s.requests := rfl

@[simp] theorem State.ask_regs (s : State) (r : HostRequest) : (s.ask r).regs = s.regs := rfl
@[simp] theorem State.ask_hi (s : State) (r : HostRequest) : (s.ask r).hi = s.hi := rfl
@[simp] theorem State.ask_lo (s : State) (r : HostRequest) : (s.ask r).lo = s.lo := rfl
@[simp] theorem State.ask_pc (s : State) (r : HostRequest) : (s.ask r).pc = s.pc := rfl
@[simp] theorem State.ask_mem (s : State) (r : HostRequest) : (s.ask r).mem = s.mem := rfl
@[simp] theorem State.ask_status (s : State) (r : HostRequest) : (s.ask r).status = s.status := rfl
@[simp] theorem State.ask_refused (s : State) (r : HostRequest) : (s.ask r).refused = s.refused := rfl
@[simp] theorem State.ask_snap (s : State) (r : HostRequest) : (s.ask r).snap = s.snap := rfl
@[simp] theorem State.ask_snapCompared (s : State) (r : HostRequest) : (s.ask r).snapCompared = s.snapCompared := rfl
@[simp] theorem State.ask_stepping (s : State) (r : HostRequest) : (s.ask r).stepping = s.stepping := rfl
@[simp] theorem State.ask_draws (s : State) (r : HostRequest) : (s.ask r).draws = s.draws := rfl
@[simp] theorem State.ask_requests (s : State) (r : HostRequest) : (s.ask r).requests = r :: s.requests := rfl

@[simp] theorem State.drew_regs (s : State) (n : Nat) : (s.drew n).regs = s.regs := rfl
@[simp] theorem State.drew_hi (s : State) (n : Nat) : (s.drew n).hi = s.hi := rfl
@[simp] theorem State.drew_lo (s : State) (n : Nat) : (s.drew n).lo = s.lo := rfl
@[simp] theorem State.drew_pc (s : State) (n : Nat) : (s.drew n).pc = s.pc := rfl
@[simp] theorem State.drew_mem (s : State) (n : Nat) : (s.drew n).mem = s.mem := rfl
@[simp] theorem State.drew_status (s : State) (n : Nat) : (s.drew n).status = s.status := rfl
@[simp] theorem State.drew_refused (s : State) (n : Nat) : (s.drew n).refused = s.refused := rfl
@[simp] theorem State.drew_snap (s : State) (n : Nat) : (s.drew n).snap = s.snap := rfl
@[simp] theorem State.drew_snapCompared (s : State) (n : Nat) : (s.drew n).snapCompared = s.snapCompared := rfl
@[simp] theorem State.drew_stepping (s : State) (n : Nat) : (s.drew n).stepping = s.stepping := rfl
@[simp] theorem State.drew_draws (s : State) (n : Nat) : (s.drew n).draws = s.draws + n := rfl
@[simp] theorem State.drew_requests (s : State) (n : Nat) : (s.drew n).requests = s.requests := rfl

@[simp] theorem State.suspend_regs (s : State) : (s.suspend).regs = s.regs := rfl
@[simp] theorem State.suspend_hi (s : State) : (s.suspend).hi = s.hi := rfl
@[simp] theorem State.suspend_lo (s : State) : (s.suspend).lo = s.lo := rfl
@[simp] theorem State.suspend_pc (s : State) : (s.suspend).pc = s.pc := rfl
@[simp] theorem State.suspend_mem (s : State) : (s.suspend).mem = s.mem := rfl
@[simp] theorem State.suspend_status (s : State) : (s.suspend).status = .suspended := rfl
@[simp] theorem State.suspend_refused (s : State) : (s.suspend).refused = s.refused := rfl
@[simp] theorem State.suspend_snap (s : State) : (s.suspend).snap = s.snap := rfl
@[simp] theorem State.suspend_snapCompared (s : State) : (s.suspend).snapCompared = s.snapCompared := rfl
@[simp] theorem State.suspend_stepping (s : State) : (s.suspend).stepping = s.stepping := rfl
@[simp] theorem State.suspend_draws (s : State) : (s.suspend).draws = s.draws := rfl
@[simp] theorem State.suspend_requests (s : State) : (s.suspend).requests = .debug :: s.requests := rfl

@[simp] theorem State.link_regs (s : State) : (s.link).regs = s.regs.set 31 s.pc := rfl
@[simp] theorem State.link_hi (s : State) : (s.link).hi = s.hi := rfl
@[simp] theorem State.link_lo (s : State) : (s.link).lo = s.lo := rfl
@[simp] theorem State.link_pc (s : State) : (s.link).pc = s.pc := rfl
@[simp] theorem State.link_mem (s : State) : (s.link).mem = s.mem := rfl
@[simp] theorem State.link_status (s : State) : (s.link).status = s.status := rfl
@[simp] theorem State.link_refused (s : State) : (s.link).refused = s.refused := rfl
@[simp] theorem State.link_snap (s : State) : (s.link).snap = s.snap := rfl
@[simp] theorem State.link_snapCompared (s : State) : (s.link).snapCompared = s.snapCompared := rfl
@[simp] theorem State.link_stepping (s : State) : (s.link).stepping = s.stepping := rfl
@[simp] theorem State.link_draws (s : State) : (s.link).draws = s.draws := rfl
@[simp] theorem State.link_requests (s : State) : (s.link).requests = s.requests := rfl

/-! ### Reading a register -/

@[simp] theorem State.reg_setReg_same (s : State) (i : Reg) (v : Word) :
    (s.setReg i v).reg i = v := by
  simp [State.reg]

theorem State.reg_setReg (s : State) (i k : Reg) (v : Word) :
    (s.setReg i v).reg k = if i = k then v else s.reg k := by
  simp only [State.reg, State.setReg_regs, Fin.getElem_fin, Vector.getElem_set, Fin.ext_iff]

@[simp] theorem State.reg_setReg_ne (s : State) {i k : Reg} (v : Word) (h : k ≠ i) :
    (s.setReg i v).reg k = s.reg k := by
  rw [State.reg_setReg, if_neg (Ne.symm h)]

theorem State.reg_link (s : State) (k : Reg) :
    s.link.reg k = if 31 = k then s.pc else s.reg k :=
  s.reg_setReg 31 k s.pc

@[simp] theorem State.reg_setHiLo (s : State) (h l : Word) (x : Reg) : (s.setHiLo h l).reg x = s.reg x := rfl
@[simp] theorem State.reg_setPc (s : State) (t : Word) (x : Reg) : (s.setPc t).reg x = s.reg x := rfl
@[simp] theorem State.reg_advance (s : State) (x : Reg) : (s.advance).reg x = s.reg x := rfl
@[simp] theorem State.reg_setMem (s : State) (m : Memory) (x : Reg) : (s.setMem m).reg x = s.reg x := rfl
@[simp] theorem State.reg_endFaulted (s : State) (k : FaultKind) (p : Word) (x : Reg) : (s.endFaulted k p).reg x = s.reg x := rfl
@[simp] theorem State.reg_raise (s : State) (k : FaultKind) (x : Reg) : (s.raise k).reg x = s.reg x := rfl
@[simp] theorem State.reg_refuse (s : State) (x : Reg) : (s.refuse).reg x = s.reg x := rfl
@[simp] theorem State.reg_exit (s : State) (c : Word) (x : Reg) : (s.exit c).reg x = s.reg x := rfl
@[simp] theorem State.reg_ask (s : State) (r : HostRequest) (x : Reg) : (s.ask r).reg x = s.reg x := rfl
@[simp] theorem State.reg_drew (s : State) (n : Nat) (x : Reg) : (s.drew n).reg x = s.reg x := rfl
@[simp] theorem State.reg_suspend (s : State) (x : Reg) : (s.suspend).reg x = s.reg x := rfl

/-- Two states with the same 32 registers hold the same register file. -/
theorem State.regs_ext {s t : State} (h : ∀ k, s.reg k = t.reg k) : s.regs = t.regs := by
  apply Vector.ext
  intro i hi
  exact h ⟨i, hi⟩

/-! ### Branches: only the program counter can change -/

@[simp] theorem State.branchIf_regs (s : State) (c : Bool) (imm : BitVec 16) :
    (s.branchIf c imm).regs = s.regs := by
  cases c <;> rfl
@[simp] theorem State.branchIf_hi (s : State) (c : Bool) (imm : BitVec 16) :
    (s.branchIf c imm).hi = s.hi := by
  cases c <;> rfl
@[simp] theorem State.branchIf_lo (s : State) (c : Bool) (imm : BitVec 16) :
    (s.branchIf c imm).lo = s.lo := by
  cases c <;> rfl
theorem State.branchIf_pc (s : State) (c : Bool) (imm : BitVec 16) :
    (s.branchIf c imm).pc = if c then s.branchTarget imm else s.pc := by
  cases c <;> rfl
@[simp] theorem State.branchIf_mem (s : State) (c : Bool) (imm : BitVec 16) :
    (s.branchIf c imm).mem = s.mem := by
  cases c <;> rfl
@[simp] theorem State.branchIf_status (s : State) (c : Bool) (imm : BitVec 16) :
    (s.branchIf c imm).status = s.status := by
  cases c <;> rfl
@[simp] theorem State.branchIf_refused (s : State) (c : Bool) (imm : BitVec 16) :
    (s.branchIf c imm).refused = s.refused := by
  cases c <;> rfl
@[simp] theorem State.branchIf_snap (s : State) (c : Bool) (imm : BitVec 16) :
    (s.branchIf c imm).snap = s.snap := by
  cases c <;> rfl
@[simp] theorem State.branchIf_snapCompared (s : State) (c : Bool) (imm : BitVec 16) :
    (s.branchIf c imm).snapCompared = s.snapCompared := by
  cases c <;> rfl
@[simp] theorem State.branchIf_stepping (s : State) (c : Bool) (imm : BitVec 16) :
    (s.branchIf c imm).stepping = s.stepping := by
  cases c <;> rfl
@[simp] theorem State.branchIf_draws (s : State) (c : Bool) (imm : BitVec 16) :
    (s.branchIf c imm).draws = s.draws := by
  cases c <;> rfl
@[simp] theorem State.branchIf_requests (s : State) (c : Bool) (imm : BitVec 16) :
    (s.branchIf c imm).requests = s.requests := by
  cases c <;> rfl

/-- The program counter of an instruction body, before and after the advance. -/
@[simp] theorem State.advance_pcI (s : State) : s.advance.pcI = s.pc := by
  simp [State.pcI]

end Sys2Proof.Machine
end

