-- ==== Sys2Proof/Laws/Ops.lean ====
section
/-!
SUPPORT. One lemma for each shared operation that says everything it can do: checked writes, loads,
stores, fetches, range and string checks, the step. Later proofs cite these and do not unfold.
-/

namespace Sys2Proof.Machine

/-! ### Checked writes, loads and stores -/

theorem overflows_iff (n : Int) : overflows n = true ↔ n < -2 ^ 31 ∨ 2 ^ 31 - 1 < n := by
  simp [overflows]

theorem State.setRegChecked_of_fits (s : State) (r : Reg) {n : Int}
    (h : -2 ^ 31 ≤ n ∧ n ≤ 2 ^ 31 - 1) : s.setRegChecked r n = s.setReg r (wrap32 n) := by
  rw [State.setRegChecked, if_neg (by rw [overflows_iff]; omega)]

theorem State.setRegChecked_of_overflow (s : State) (r : Reg) {n : Int}
    (h : n < -2 ^ 31 ∨ 2 ^ 31 - 1 < n) :
    s.setRegChecked r n = s.raise (.integerOverflow s.pcI) := by
  rw [State.setRegChecked, if_pos ((overflows_iff n).2 h)]

theorem State.load_of_inRange (s : State) (rt rs : Reg) (imm : BitVec 16) {n : Nat}
    (ext : Word → Word) (h : (s.effAddr rs imm).toNat + n ≤ s.mem.size) :
    s.load rt rs imm n ext =
      s.setReg rt (ext (s.mem.littleEndian (s.effAddr rs imm).toNat n)) := by
  rw [State.load, Memory.read_eq_some.2 ⟨h, rfl⟩]

theorem State.load_of_outside (s : State) (rt rs : Reg) (imm : BitVec 16) {n : Nat}
    (ext : Word → Word) (h : s.mem.size < (s.effAddr rs imm).toNat + n) :
    s.load rt rs imm n ext = s.raise (.memoryFault (s.effAddr rs imm).toNat n .load) := by
  rw [State.load, Memory.read_eq_none.2 h]

theorem State.store_of_inRange (s : State) (rt rs : Reg) (imm : BitVec 16) {n : Nat}
    (h : (s.effAddr rs imm).toNat + n ≤ s.mem.size) :
    s.store rt rs imm n =
      s.setMem (s.mem.setBytes (s.effAddr rs imm).toNat (Memory.bytesOf (s.reg rt) n)) := by
  rw [State.store, Memory.write_eq_some.2 ⟨h, rfl⟩]

theorem State.store_of_outside (s : State) (rt rs : Reg) (imm : BitVec 16) {n : Nat}
    (h : s.mem.size < (s.effAddr rs imm).toNat + n) :
    s.store rt rs imm n = s.raise (.memoryFault (s.effAddr rs imm).toNat n .store) := by
  rw [State.store, Memory.write_eq_none.2 h]

/-! ### Fetch -/

theorem State.fetch_eq_ok {s : State} {w : Word} :
    s.fetch = .ok w ↔ s.pc.toNat % 4 = 0 ∧ s.mem.read s.pc.toNat 4 = some w := by
  unfold State.fetch
  by_cases h : s.pc.toNat % 4 = 0
  · simp only [h, ne_eq, not_true_eq_false, if_false, true_and]
    cases s.mem.read s.pc.toNat 4 <;> simp
  · simp [h]

theorem State.fetch_of_misaligned {s : State} (h : s.pc.toNat % 4 ≠ 0) :
    s.fetch = .error (.fetchMisaligned s.pc) := by
  rw [State.fetch, if_pos h]

theorem State.fetch_of_outside {s : State} (h : s.pc.toNat % 4 = 0)
    (hs : s.mem.size < s.pc.toNat + 4) :
    s.fetch = .error (.memoryFault s.pc.toNat 4 .fetch) := by
  rw [State.fetch, if_neg (by simp [h]), Memory.read_eq_none.2 hs]

/-- Every fetch is one of these three. -/
theorem State.fetch_cases (s : State) :
    (s.pc.toNat % 4 ≠ 0 ∧ s.fetch = .error (.fetchMisaligned s.pc)) ∨
    (s.pc.toNat % 4 = 0 ∧ s.mem.size < s.pc.toNat + 4 ∧
      s.fetch = .error (.memoryFault s.pc.toNat 4 .fetch)) ∨
    (s.pc.toNat % 4 = 0 ∧ ∃ w, s.mem.read s.pc.toNat 4 = some w ∧ s.fetch = .ok w) := by
  by_cases h : s.pc.toNat % 4 = 0
  · by_cases hs : s.mem.size < s.pc.toNat + 4
    · exact .inr (.inl ⟨h, hs, State.fetch_of_outside h hs⟩)
    · obtain ⟨w, hw⟩ : ∃ w, s.mem.read s.pc.toNat 4 = some w :=
        ⟨_, Memory.read_eq_some.2 ⟨by omega, rfl⟩⟩
      exact .inr (.inr ⟨h, w, hw, State.fetch_eq_ok.2 ⟨h, hw⟩⟩)
  · exact .inl ⟨h, State.fetch_of_misaligned h⟩

/-! ### Strings and ranges -/

theorem Memory.scan_eq_some {m : Memory} {fuel a : Nat} {bytes : List Byte} :
    m.scan fuel a = some bytes ↔
      bytes.length < fuel ∧ bytes = m.bytes a bytes.length ∧
        (∀ k, k < bytes.length → m.byte (a + k) ≠ 0) ∧ m.byte (a + bytes.length) = 0 := by
  induction fuel generalizing a bytes with
  | zero => simp [Memory.scan]
  | succ fuel ih =>
    unfold Memory.scan
    by_cases h0 : m.byte a = 0
    · rw [if_pos h0]
      constructor
      · rintro ⟨⟩
        simp [Memory.bytes, h0]
      · rintro ⟨_, _, hne, _⟩
        cases bytes with
        | nil => rfl
        | cons b bs => exact absurd h0 (hne 0 (by simp))
    · rw [if_neg h0]
      cases bytes with
      | nil =>
        constructor
        · cases m.scan fuel (a + 1) <;> simp
        · rintro ⟨_, _, _, h⟩
          exact absurd h h0
      | cons b bs =>
        have hshift : ∀ k, a + (k + 1) = a + 1 + k := by omega
        have key : (match m.scan fuel (a + 1) with
              | some bytes => some (m.byte a :: bytes)
              | none => none) = some (b :: bs) ↔
            m.byte a = b ∧ m.scan fuel (a + 1) = some bs := by
          cases m.scan fuel (a + 1) <;> simp
        refine key.trans ?_
        rw [ih]
        simp only [List.length_cons, Memory.bytes, List.cons.injEq, hshift bs.length]
        constructor
        · rintro ⟨rfl, hlt, hbs, hne, hz⟩
          refine ⟨by omega, ⟨rfl, hbs⟩, ?_, hz⟩
          intro k hk
          cases k with
          | zero => exact h0
          | succ k => rw [hshift]; exact hne k (by omega)
        · rintro ⟨hlt, ⟨rfl, hbs⟩, hne, hz⟩
          refine ⟨rfl, by omega, hbs, ?_, hz⟩
          intro k hk
          have := hne (k + 1) (by omega)
          rwa [hshift] at this

/-- The string at `a` has `n` bytes exactly when the first 0x00 from `a` on stands at `a + n`, below
MEM_SIZE. -/
theorem Memory.cString_of_terminated {m : Memory} {a n : Nat} (hn : a + n < m.size)
    (hne : ∀ k, k < n → m.byte (a + k) ≠ 0) (hz : m.byte (a + n) = 0) :
    m.cString a = some (m.bytes a n) := by
  refine Memory.scan_eq_some.2 ?_
  simp only [Memory.bytes_length]
  exact ⟨by omega, trivial, hne, hz⟩

theorem Memory.scan_eq_none {m : Memory} {fuel a : Nat}
    (h : ∀ k, k < fuel → m.byte (a + k) ≠ 0) : m.scan fuel a = none := by
  rw [Option.eq_none_iff_forall_not_mem]
  intro bytes hb
  obtain ⟨hlt, _, _, hz⟩ := Memory.scan_eq_some.1 (Option.mem_def.1 hb)
  exact h _ hlt hz

theorem Memory.cString_of_unterminated {m : Memory} {a : Nat}
    (h : ∀ b, a ≤ b → b < m.size → m.byte b ≠ 0) : m.cString a = none :=
  Memory.scan_eq_none fun k hk => h (a + k) (by omega) (by omega)

theorem State.withRange_of_inRange (s : State) {a n : Nat} (body : State)
    (h : a + n ≤ s.mem.size) : s.withRange a n body = body := by
  simp [State.withRange, Memory.inRange, h]

theorem State.withRange_of_outside (s : State) {a n : Nat} (body : State)
    (h : s.mem.size < a + n) : s.withRange a n body = s.raise (.memoryFault a n .syscall) := by
  simp [State.withRange, Memory.inRange, Nat.not_le.2 h]

theorem State.withRange_cases (s : State) (a n : Nat) (body : State) :
    (a + n ≤ s.mem.size ∧ s.withRange a n body = body) ∨
    (s.mem.size < a + n ∧ s.withRange a n body = s.raise (.memoryFault a n .syscall)) := by
  rcases Nat.lt_or_ge s.mem.size (a + n) with h | h
  · exact .inr ⟨h, s.withRange_of_outside body h⟩
  · exact .inl ⟨h, s.withRange_of_inRange body h⟩

theorem State.withString_cases (s : State) (a : Nat) (body : List Byte → State) :
    (∃ bytes, s.withString a body = body bytes) ∨
    s.withString a body = s.raise (.memoryFault (max a s.mem.size) 1 .syscall) := by
  unfold State.withString
  cases s.mem.cString a with
  | none => exact .inr rfl
  | some bytes => exact .inl ⟨bytes, rfl⟩

/-! ### The step -/

theorem mapNext_eq_next {f : State → State} {o : Host.Outcome State Fault Refusal} {t : State} :
    mapNext f o = .next t ↔ ∃ v, o = .next v ∧ t = f v := by
  cases o <;> simp [mapNext, eq_comm]

/-- `afterStep` changes the status and the single-step mark only. -/
theorem State.afterStep_of_not_stepping {s : State} (h : s.stepping = false) : s.afterStep = s := by
  rw [State.afterStep, if_neg (by simp [h])]

@[simp] theorem State.afterStep_regs (s : State) : s.afterStep.regs = s.regs := by
  unfold State.afterStep; split <;> rfl
@[simp] theorem State.afterStep_hi (s : State) : s.afterStep.hi = s.hi := by
  unfold State.afterStep; split <;> rfl
@[simp] theorem State.afterStep_lo (s : State) : s.afterStep.lo = s.lo := by
  unfold State.afterStep; split <;> rfl
@[simp] theorem State.afterStep_pc (s : State) : s.afterStep.pc = s.pc := by
  unfold State.afterStep; split <;> rfl
@[simp] theorem State.afterStep_mem (s : State) : s.afterStep.mem = s.mem := by
  unfold State.afterStep; split <;> rfl
@[simp] theorem State.afterStep_refused (s : State) : s.afterStep.refused = s.refused := by
  unfold State.afterStep; split <;> rfl
@[simp] theorem State.afterStep_snap (s : State) : s.afterStep.snap = s.snap := by
  unfold State.afterStep; split <;> rfl
@[simp] theorem State.afterStep_snapCompared (s : State) : s.afterStep.snapCompared = s.snapCompared := by
  unfold State.afterStep; split <;> rfl
@[simp] theorem State.afterStep_draws (s : State) : s.afterStep.draws = s.draws := by
  unfold State.afterStep; split <;> rfl
@[simp] theorem State.afterStep_requests (s : State) : s.afterStep.requests = s.requests := by
  unfold State.afterStep; split <;> rfl
@[simp] theorem State.reg_afterStep (s : State) (x : Reg) : s.afterStep.reg x = s.reg x := by
  simp [State.reg]

theorem State.afterStep_stepping (s : State) : s.afterStep.stepping = false := by
  unfold State.afterStep
  split
  · rfl
  · simp_all

theorem State.afterStep_status (s : State) :
    s.afterStep.status =
      if s.stepping = true ∧ s.status = .running then .suspended else s.status := by
  unfold State.afterStep
  by_cases h : s.stepping = true <;> simp [h]

/-- The debugger's turn changes the status, the single-step mark and the counter of draws only. -/
theorem State.debuggerTurn_cases (s : State) :
    (Config.drawDebug s.draws = none ∧ s.debuggerTurn = s.drew 1) ∨
    (Config.drawDebug s.draws = some .step ∧
      s.debuggerTurn = { s with status := .running, stepping := true }.drew 1) ∨
    (Config.drawDebug s.draws = some .resume ∧
      s.debuggerTurn = { s with status := .running, stepping := false }.drew 1) := by
  unfold State.debuggerTurn
  cases h : Config.drawDebug s.draws with
  | none => exact .inl ⟨rfl, rfl⟩
  | some a => cases a <;> simp

theorem step_of_running {s : State} (h : s.status = .running) :
    step s = mapNext State.afterStep (runInstruction s) := by
  simp [step, stepOnce, h]

theorem step_of_suspended {s : State} (h : s.status = .suspended) :
    step s = .next s.debuggerTurn := by
  simp [step, stepOnce, h]

/-- Everything a step that answers a next state can have done. -/
theorem step_cases {s t : State} (h : step s = .next t) :
    (s.status = .suspended ∧ t = s.debuggerTurn) ∨
    (s.status = .running ∧ s.pc.toNat % 4 ≠ 0 ∧
      t = (s.endFaulted (.fetchMisaligned s.pc) s.pc).afterStep) ∨
    (s.status = .running ∧ s.pc.toNat % 4 = 0 ∧ s.mem.size < s.pc.toNat + 4 ∧
      t = (s.endFaulted (.memoryFault s.pc.toNat 4 .fetch) s.pc).afterStep) ∨
    (∃ w e, Fetches s w ∧ decode w = .error e ∧
      t = (s.advance.raise (.illegalInstruction s.pc w)).afterStep) ∨
    (∃ w i v, Fetches s w ∧ decode w = .ok i ∧ exec i s.advance = .next v ∧ t = v.afterStep) := by
  cases hs : s.status with
  | suspended =>
    rw [step_of_suspended hs] at h
    cases h
    exact .inl ⟨rfl, rfl⟩
  | exited c => simp [step, stepOnce, hs] at h
  | faulted k p =>
    unfold step stepOnce at h
    rw [hs] at h
    dsimp only at h
    split at h <;> cases h
  | running =>
    rw [step_of_running hs] at h
    obtain ⟨v, hv, rfl⟩ := mapNext_eq_next.1 h
    unfold runInstruction at hv
    rcases s.fetch_cases with ⟨ha, hf⟩ | ⟨ha, hr, hf⟩ | ⟨ha, w, hr, hf⟩
    · rw [hf] at hv
      cases hv
      exact .inr (.inl ⟨rfl, ha, rfl⟩)
    · rw [hf] at hv
      cases hv
      exact .inr (.inr (.inl ⟨rfl, ha, hr, rfl⟩))
    · rw [hf] at hv
      dsimp only at hv
      unfold runWord at hv
      cases hd : decode w with
      | error e =>
        rw [hd] at hv
        dsimp only at hv
        rw [State.advance_pcI] at hv
        cases hv
        exact .inr (.inr (.inr (.inl ⟨w, e, ⟨hs, ha, hr⟩, hd, rfl⟩)))
      | ok i =>
        rw [hd] at hv
        exact .inr (.inr (.inr (.inr ⟨w, i, v, ⟨hs, ha, hr⟩, hd, hv, rfl⟩)))

/-- A step of a running state whose word decodes runs its instruction. -/
theorem step_of_decoded {s : State} {w : Word} {i : Instr} (h : Fetches s w)
    (hd : decode w = .ok i) : step s = mapNext State.afterStep (exec i s.advance) := by
  obtain ⟨hs, ha, hr⟩ := h
  rw [step_of_running hs, runInstruction, State.fetch_eq_ok.2 ⟨ha, hr⟩]
  simp only [runWord, hd]

/-- A step of a running state whose word does not decode. -/
theorem step_of_illegal {s : State} {w : Word} {e : DecodeError} (h : Fetches s w)
    (hd : decode w = .error e) :
    step s = .next (s.advance.raise (.illegalInstruction s.pc w)).afterStep := by
  obtain ⟨hs, ha, hr⟩ := h
  rw [step_of_running hs, runInstruction, State.fetch_eq_ok.2 ⟨ha, hr⟩]
  simp only [runWord, hd, State.advance_pcI, mapNext]

end Sys2Proof.Machine
end

