-- ==== Sys2Proof/Laws/Cases.lean ====
section
/-!
SUPPORT. Everything an instruction body can do, said once: each of the 51 bodies answers a next state of
one of the forms below. A rule over all instructions is a case analysis of these forms.
-/

namespace Sys2Proof.Machine

/-- What a syscall service can do to the state, with the code it happens for. -/
inductive ServiceEffect (s : State) (code : Nat) : State → Prop where
  /-- A code outside the table, or a comparison without a snapshot. -/
  | nothing : ServiceEffect s code s
  /-- The host is told something. -/
  | asks (r : HostRequest) : ServiceEffect s code (s.ask r)
  /-- The host answers a word for `x[2]`. -/
  | answers (r : HostRequest) (v : Word) :
    ServiceEffect s code (((s.ask r).setReg 2 v).drew 1)
  /-- Service 8. -/
  | readsLine (r : HostRequest) (a : Nat) (bytes : List Byte) (hc : code = 8)
    (hr : a + bytes.length ≤ s.mem.size) :
    ServiceEffect s code (((s.ask r).setMem (s.mem.setBytes a bytes)).drew 1)
  /-- Service 14. -/
  | readsFile (r : HostRequest) (a : Nat) (bytes : List Byte) (v : Word) (hc : code = 14)
    (hr : a + bytes.length ≤ s.mem.size) :
    ServiceEffect s code ((((s.ask r).setMem (s.mem.setBytes a bytes)).setReg 2 v).drew 1)
  /-- Service 9. -/
  | refuses (hc : code = 9) : ServiceEffect s code s.refuse
  /-- Services 10 and 17. -/
  | exits (c : Word) (hc : code = 10 ∨ code = 17) : ServiceEffect s code (s.exit c)
  /-- Service 18. -/
  | snapshots (hc : code = 18) : ServiceEffect s code s.serviceSnapshot
  /-- Service 19, with a snapshot. -/
  | compares (k : Snapshot) (r : HostRequest) (hk : s.snap = some k) (hc : code = 19) :
    ServiceEffect s code ({ s with snapCompared := true }.ask r)
  /-- Service 30. -/
  | tellsTime (r : HostRequest) (v w : Word) (hc : code = 30) :
    ServiceEffect s code ((((s.ask r).setReg 4 v).setReg 5 w).drew 1)
  /-- A range or a string that is not in memory. -/
  | faults (a n : Nat) (hc : code ∈ [4, 8, 13, 14, 15]) (hr : s.mem.size < a + n) :
    ServiceEffect s code (s.raise (.memoryFault a n .syscall))

theorem ServiceEffect.of_range {s : State} {code a n : Nat} {body : State}
    (hc : code ∈ [4, 8, 13, 14, 15]) (hb : a + n ≤ s.mem.size → ServiceEffect s code body) :
    ServiceEffect s code (s.withRange a n body) := by
  rcases s.withRange_cases a n body with ⟨h, he⟩ | ⟨h, he⟩ <;> rw [he]
  · exact hb h
  · exact .faults a n hc h

theorem ServiceEffect.of_string {s : State} {code a : Nat} {body : List Byte → State}
    (hc : code ∈ [4, 8, 13, 14, 15]) (hb : ∀ bytes, ServiceEffect s code (body bytes)) :
    ServiceEffect s code (s.withString a body) := by
  rcases s.withString_cases a body with ⟨bytes, he⟩ | he <;> rw [he]
  · exact hb bytes
  · exact .faults _ 1 hc (by omega)

/-- Every service has one of these effects. -/
theorem State.service_effect (s : State) (code : Nat) : ServiceEffect s code (s.service code) := by
  have htake : ∀ {a n : Nat} (bytes : List Byte), a + n ≤ s.mem.size →
      a + (bytes.take n).length ≤ s.mem.size := by
    intro a n bytes h
    rw [List.length_take]
    omega
  unfold State.service
  split
  · exact .asks _
  · exact .of_string (by simp) fun _ => .asks _
  · exact .answers _ _
  · exact .of_range (by simp) fun h => .readsLine _ _ _ rfl (htake _ h)
  · exact .refuses rfl
  · exact .exits _ (.inl rfl)
  · exact .asks _
  · exact .answers _ _
  · exact .of_string (by simp) fun _ => .answers _ _
  · exact .of_range (by simp) fun h => .readsFile _ _ _ _ rfl (htake _ h)
  · exact .of_range (by simp) fun _ => .answers _ _
  · exact .asks _
  · exact .exits _ (.inr rfl)
  · exact .snapshots rfl
  · unfold State.serviceCompare
    split
    · exact .nothing
    · exact .compares _ _ ‹_› rfl
  · exact .tellsTime _ _ _ rfl
  · exact .asks _
  · exact .asks _
  · exact .asks _
  · exact .asks _
  · exact .asks _
  · exact .asks _
  · exact .nothing

/-- What a snapshot service leaves. -/
theorem State.serviceSnapshot_eq (s : State) :
    ∃ q, s.serviceSnapshot =
      { s with snap := some s.takeSnapshot, snapCompared := false, requests := q } := by
  unfold State.serviceSnapshot
  split
  · exact ⟨_, rfl⟩
  · exact ⟨_, rfl⟩

/-- The exact sum or difference that add, sub and addi check. -/
inductive CheckedResult (s : State) : Instr → Reg → Int → Prop where
  | add (rd rs rt : Reg) :
    CheckedResult s (.add rd rs rt) rd ((s.reg rs).toInt + (s.reg rt).toInt)
  | sub (rd rs rt : Reg) :
    CheckedResult s (.sub rd rs rt) rd ((s.reg rs).toInt - (s.reg rt).toInt)
  | addi (rt rs : Reg) (imm : BitVec 16) :
    CheckedResult s (.addi rt rs imm) rt ((s.reg rs).toInt + (signedImm imm).toInt)

/-- The loads, with the width they read. -/
inductive Loads : Instr → Reg → BitVec 16 → Nat → Prop where
  | lb (rt imm rs) : Loads (.lb rt imm rs) rs imm 1
  | lh (rt imm rs) : Loads (.lh rt imm rs) rs imm 2
  | lw (rt imm rs) : Loads (.lw rt imm rs) rs imm 4
  | lbu (rt imm rs) : Loads (.lbu rt imm rs) rs imm 1
  | lhu (rt imm rs) : Loads (.lhu rt imm rs) rs imm 2

/-- The stores, with the width they write. -/
inductive Stores : Instr → Reg → Reg → BitVec 16 → Nat → Prop where
  | sb (rt imm rs) : Stores (.sb rt imm rs) rt rs imm 1
  | sh (rt imm rs) : Stores (.sh rt imm rs) rt rs imm 2
  | sw (rt imm rs) : Stores (.sw rt imm rs) rt rs imm 4

/-- What an instruction body can do to the state it runs in. -/
inductive BodyEffect (s : State) (i : Instr) : State → Prop where
  /-- A register takes a value. -/
  | writesReg (r : Reg) (v : Word) : BodyEffect s i (s.setReg r v)
  /-- A multiplication or a division writes HI and LO. -/
  | writesHiLo (h l : Word) (hi : IsMulDiv i) : BodyEffect s i (s.setHiLo h l)
  /-- The quotient that does not fit. -/
  | drawsHiLo (h l : Word) (hi : IsMulDiv i) : BodyEffect s i ((s.setHiLo h l).drew 2)
  /-- A branch not taken. -/
  | nothing : BodyEffect s i s
  /-- A branch or jump to an aligned address, from an aligned `pc`. -/
  | jumps (p : Word) (hp : s.pc.toNat % 4 = 0 → p.toNat % 4 = 0) : BodyEffect s i (s.setPc p)
  /-- jr. -/
  | returns (rs : Reg) (hi : i = .jr rs) : BodyEffect s i (s.setPc (s.reg rs))
  /-- A linking branch not taken. -/
  | links : BodyEffect s i s.link
  /-- A linking branch or jump taken. -/
  | linksAndJumps (p : Word) (hp : s.pc.toNat % 4 = 0 → p.toNat % 4 = 0) :
    BodyEffect s i (s.link.setPc p)
  /-- A store. -/
  | stores (rt rs : Reg) (imm : BitVec 16) (n : Nat) (hi : Stores i rt rs imm n)
    (hr : (s.effAddr rs imm).toNat + n ≤ s.mem.size) :
    BodyEffect s i
      (s.setMem (s.mem.setBytes (s.effAddr rs imm).toNat (Memory.bytesOf (s.reg rt) n)))
  /-- add, sub, addi: the exact result does not fit. -/
  | overflows (r : Reg) (n : Int) (hi : CheckedResult s i r n)
    (hn : n < -2 ^ 31 ∨ 2 ^ 31 - 1 < n) : BodyEffect s i (s.raise (.integerOverflow s.pcI))
  /-- div, divu: the divisor is zero. -/
  | dividesByZero (rs rt : Reg) (hi : i = .div rs rt ∨ i = .divu rs rt) (hz : s.reg rt = 0) :
    BodyEffect s i (s.raise (.divideByZero s.pcI))
  /-- A load outside memory. -/
  | loadFaults (rs : Reg) (imm : BitVec 16) (n : Nat) (hi : Loads i rs imm n)
    (hr : s.mem.size < (s.effAddr rs imm).toNat + n) :
    BodyEffect s i (s.raise (.memoryFault (s.effAddr rs imm).toNat n .load))
  /-- A store outside memory. -/
  | storeFaults (rt rs : Reg) (imm : BitVec 16) (n : Nat) (hi : Stores i rt rs imm n)
    (hr : s.mem.size < (s.effAddr rs imm).toNat + n) :
    BodyEffect s i (s.raise (.memoryFault (s.effAddr rs imm).toNat n .store))
  /-- break. -/
  | suspends (hi : i = .brk) : BodyEffect s i s.suspend
  /-- syscall. -/
  | serves (t : State) (hi : i = .syscall) (ht : ServiceEffect s (s.reg 2).toNat t) :
    BodyEffect s i t

theorem State.branchTarget_aligned (s : State) (imm : BitVec 16) (h : s.pc.toNat % 4 = 0) :
    (s.branchTarget imm).toNat % 4 = 0 := by
  have hs : (signedImm imm <<< 2).toNat % 4 = 0 := by
    rw [BitVec.toNat_shiftLeft, Nat.shiftLeft_eq]
    omega
  rw [State.branchTarget, BitVec.toNat_add]
  omega

theorem State.jumpTarget_toNat (s : State) (target : BitVec 26) :
    (s.jumpTarget target).toNat = s.pc.toNat / 2 ^ 28 * 2 ^ 28 + target.toNat * 4 := by
  have h := target.isLt
  have hp := s.pc.isLt
  simp only [State.jumpTarget, BitVec.toNat_append, BitVec.extractLsb'_toNat, Nat.shiftRight_eq_div_pow]
  rw [← Nat.shiftLeft_add_eq_or_of_lt (b := target.toNat) (by omega),
    ← Nat.shiftLeft_add_eq_or_of_lt (by simp)]
  simp only [Nat.shiftLeft_eq, BitVec.ofNat_eq_ofNat, BitVec.toNat_ofNat]
  omega

theorem State.jumpTarget_aligned (s : State) (target : BitVec 26) :
    (s.jumpTarget target).toNat % 4 = 0 := by
  rw [State.jumpTarget_toNat]
  omega

theorem BodyEffect.of_checked {s : State} {i : Instr} {r : Reg} {n : Int}
    (h : CheckedResult s i r n) : BodyEffect s i (s.setRegChecked r n) := by
  by_cases hn : n < -2 ^ 31 ∨ 2 ^ 31 - 1 < n
  · rw [State.setRegChecked_of_overflow s r hn]
    exact .overflows r n h hn
  · rw [State.setRegChecked_of_fits s r (by omega)]
    exact .writesReg _ _

theorem BodyEffect.of_branch (s : State) (i : Instr) (c : Bool) (imm : BitVec 16) :
    BodyEffect s i (s.branchIf c imm) := by
  cases c
  · exact .nothing
  · exact .jumps _ (s.branchTarget_aligned imm)

theorem BodyEffect.of_linked_branch (s : State) (i : Instr) (c : Bool) (imm : BitVec 16) :
    BodyEffect s i (s.link.branchIf c imm) := by
  cases c
  · exact .links
  · exact .linksAndJumps _ (s.branchTarget_aligned imm)

theorem BodyEffect.of_load {s : State} {i : Instr} {rt rs : Reg} {imm : BitVec 16} {n : Nat}
    (ext : Word → Word) (h : Loads i rs imm n) : BodyEffect s i (s.load rt rs imm n ext) := by
  rcases Nat.lt_or_ge s.mem.size ((s.effAddr rs imm).toNat + n) with hr | hr
  · rw [State.load_of_outside s rt rs imm ext hr]
    exact .loadFaults rs imm n h hr
  · rw [State.load_of_inRange s rt rs imm ext hr]
    exact .writesReg _ _

theorem BodyEffect.of_store {s : State} {i : Instr} {rt rs : Reg} {imm : BitVec 16} {n : Nat}
    (h : Stores i rt rs imm n) : BodyEffect s i (s.store rt rs imm n) := by
  rcases Nat.lt_or_ge s.mem.size ((s.effAddr rs imm).toNat + n) with hr | hr
  · rw [State.store_of_outside s rt rs imm hr]
    exact .storeFaults rt rs imm n h hr
  · rw [State.store_of_inRange s rt rs imm hr]
    exact .stores rt rs imm n h hr

theorem State.divSigned_cases (s : State) (a b : Int) :
    (b = 0 ∧ s.divSigned a b = s.raise (.divideByZero s.pcI)) ∨
    (a = -2 ^ 31 ∧ b = -1 ∧ s.divSigned a b =
      (s.setHiLo (Config.drawWord s.draws) (Config.drawWord (s.draws + 1))).drew 2) ∨
    (b ≠ 0 ∧ ¬(a = -2 ^ 31 ∧ b = -1) ∧ s.divSigned a b =
      s.setHiLo (wrap32 (a - a.tdiv b * b)) (wrap32 (a.tdiv b))) := by
  unfold State.divSigned
  split
  · exact .inl ⟨‹_›, rfl⟩
  · split
    · exact .inr (.inl ⟨(‹_ ∧ _›).1, (‹_ ∧ _›).2, rfl⟩)
    · exact .inr (.inr ⟨‹_›, ‹_›, rfl⟩)

theorem State.divUnsigned_cases (s : State) (a b : Nat) :
    (b = 0 ∧ s.divUnsigned a b = s.raise (.divideByZero s.pcI)) ∨
    (b ≠ 0 ∧ s.divUnsigned a b = s.setHiLo (wrap32 (a % b : Nat)) (wrap32 (a / b : Nat))) := by
  unfold State.divUnsigned
  split
  · exact .inl ⟨‹_›, rfl⟩
  · exact .inr ⟨‹_›, rfl⟩

theorem BodyEffect.of_div (s : State) (rs rt : Reg) :
    BodyEffect s (.div rs rt) (s.divSigned (s.reg rs).toInt (s.reg rt).toInt) := by
  rcases s.divSigned_cases (s.reg rs).toInt (s.reg rt).toInt with ⟨h, he⟩ | ⟨_, _, he⟩ | ⟨_, _, he⟩ <;>
    rw [he]
  · exact .dividesByZero rs rt (.inl rfl) (by rw [← BitVec.toInt_inj]; simpa using h)
  · exact .drawsHiLo _ _ trivial
  · exact .writesHiLo _ _ trivial

theorem BodyEffect.of_divu (s : State) (rs rt : Reg) :
    BodyEffect s (.divu rs rt) (s.divUnsigned (s.reg rs).toNat (s.reg rt).toNat) := by
  rcases s.divUnsigned_cases (s.reg rs).toNat (s.reg rt).toNat with ⟨h, he⟩ | ⟨_, he⟩ <;> rw [he]
  · exact .dividesByZero rs rt (.inr rfl) (by rw [← BitVec.toNat_inj]; simpa using h)
  · exact .writesHiLo _ _ trivial

/-- Every body has one of these effects; the word placed in a register, in HI or in LO is said by the
instruction's own equation in Laws/Exec.lean. -/
theorem exec_effect {i : Instr} {s t : State} (h : exec i s = .next t) : BodyEffect s i t := by
  cases i <;> cases h
  case add => exact .of_checked (.add ..)
  case sub => exact .of_checked (.sub ..)
  case addi => exact .of_checked (.addi ..)
  case mult => exact .writesHiLo _ _ trivial
  case multu => exact .writesHiLo _ _ trivial
  case div => exact .of_div s _ _
  case divu => exact .of_divu s _ _
  case j => exact .jumps _ fun _ => s.jumpTarget_aligned _
  case jal => exact .linksAndJumps _ fun _ => s.jumpTarget_aligned _
  case jr => exact .returns _ rfl
  case brk => exact .suspends rfl
  case syscall => exact .serves _ rfl (s.service_effect _)
  case beq | bne | blez | bgtz | bltz | bgez => exact .of_branch ..
  case bltzal | bgezal => exact .of_linked_branch ..
  case lb => exact .of_load _ (.lb ..)
  case lh => exact .of_load _ (.lh ..)
  case lw => exact .of_load _ (.lw ..)
  case lbu => exact .of_load _ (.lbu ..)
  case lhu => exact .of_load _ (.lhu ..)
  case sb => exact .of_store (.sb ..)
  case sh => exact .of_store (.sh ..)
  case sw => exact .of_store (.sw ..)
  all_goals exact .writesReg _ _

/-- No body touches the single-step mark. -/
theorem exec_stepping {i : Instr} {s t : State} (h : exec i s = .next t) :
    t.stepping = s.stepping := by
  cases exec_effect h <;> try rfl
  rename_i hi ht
  cases ht <;> try rfl
  obtain ⟨q, hq⟩ := s.serviceSnapshot_eq
  rw [hq]

/-- A body changes memory at most by writing bytes inside it. -/
theorem exec_mem {i : Instr} {s t : State} (h : exec i s = .next t) :
    t.mem = s.mem ∨ ∃ a bytes, a + List.length bytes ≤ s.mem.size ∧ t.mem = s.mem.setBytes a bytes := by
  cases exec_effect h <;> try exact .inl rfl
  · rename_i rt rs imm n hi hr
    exact .inr ⟨_, _, by rwa [Memory.bytesOf_length], rfl⟩
  rename_i hi ht
  cases ht <;> try exact .inl rfl
  · exact .inr ⟨_, _, ‹_›, rfl⟩
  · exact .inr ⟨_, _, ‹_›, rfl⟩
  · obtain ⟨q, hq⟩ := s.serviceSnapshot_eq
    rw [hq]
    exact .inl rfl

end Sys2Proof.Machine
end

