-- ==== Sys2Proof/Laws/Frames.lean ====
section
/-!
SUPPORT. The frame of each shared operation, in the terms of Safety.lean: a statement about an
instruction is its equation in Laws/Exec.lean and one of these.
-/

namespace Sys2Proof.Machine

theorem KeepsRegs.refl (s : State) : KeepsRegs [] s s := fun _ _ => rfl
theorem KeepsMemory.refl (s : State) : KeepsMemory s s := ⟨rfl, fun _ => rfl⟩
theorem KeepsBlock.refl (s : State) : KeepsBlock s s :=
  ⟨.refl s, rfl, ⟨rfl, rfl⟩, .refl s, ⟨rfl, rfl⟩⟩

theorem KeepsRegs.setReg (s : State) (r : Reg) (v : Word) : KeepsRegs [r] s (s.setReg r v) := by
  intro k hk
  rw [List.mem_singleton] at hk
  exact s.reg_setReg_ne v hk

/-- `x[r] <- v` writes `x[r]` and nothing else. -/
theorem WritesReg.setReg (s : State) (r : Reg) (v : Word) : WritesReg r v s (s.setReg r v) :=
  ⟨s.reg_setReg_same r v, .setReg s r v, rfl, ⟨rfl, rfl⟩, ⟨rfl, fun _ => rfl⟩, ⟨rfl, rfl, rfl⟩,
    ⟨rfl, rfl⟩, ⟨rfl, rfl⟩⟩

theorem WritesHiLo.setHiLo (s : State) (h l : Word) : WritesHiLo h l s (s.setHiLo h l) :=
  ⟨rfl, rfl, fun _ _ => rfl, rfl, ⟨rfl, fun _ => rfl⟩, ⟨rfl, rfl, rfl⟩, ⟨rfl, rfl⟩, ⟨rfl, rfl⟩⟩

theorem WritesPc.setPc (s : State) (t : Word) : WritesPc t s (s.setPc t) :=
  ⟨rfl, fun _ _ => rfl, ⟨rfl, rfl⟩, ⟨rfl, fun _ => rfl⟩, ⟨rfl, rfl, rfl⟩, ⟨rfl, rfl⟩, ⟨rfl, rfl⟩⟩

theorem WritesPc.same (s : State) : WritesPc s.pc s s := WritesPc.setPc s s.pc

/-- A branch writes the target or the `pc` it has. -/
theorem WritesPc.branchIf (s : State) (c : Prop) [Decidable c] (imm : BitVec 16) :
    WritesPc (if c then s.branchTarget imm else s.pc) s (s.branchIf (decide c) imm) := by
  by_cases h : c
  · rw [if_pos h, decide_eq_true h]
    exact .setPc s _
  · rw [if_neg h, decide_eq_false h]
    exact .same s

theorem EndsFaulted.endFaulted (s : State) (k : FaultKind) (p : Word) :
    EndsFaulted k p s (s.endFaulted k p) :=
  ⟨rfl, fun _ _ => rfl, rfl, ⟨rfl, rfl⟩, ⟨rfl, fun _ => rfl⟩, rfl, ⟨rfl, rfl⟩, ⟨rfl, rfl⟩⟩

/-- A fault raised in a body is recorded at `pc_i`, and nothing else changes. -/
theorem EndsFaulted.raise (s : State) (k : FaultKind) : EndsFaulted k (s.pc - 4) s (s.raise k) :=
  .endFaulted s k _

theorem OnlyAsks.ask (s : State) (r : HostRequest) : OnlyAsks r s (s.ask r) :=
  ⟨rfl, rfl, .refl s, ⟨rfl, rfl, rfl⟩⟩

/-- An instruction whose equation is known completes. -/
theorem Completes.of_eq {i : Instr} {s t : State} {P : State → Prop} (h : exec i s = .next t)
    (hp : P t) : Completes i s P := ⟨t, h, hp⟩

/-- What syscall answers when `x[2]` holds a code. -/
theorem exec_syscall_of_code {s : State} {c : Word} (h : s.reg 2 = c) :
    exec .syscall s = .next (s.service c.toNat) := by
  rw [exec_syscall, ← h]
  rfl

/-! ### Bytes read as numbers -/

theorem Memory.number_lt (m : Memory) (a n : Nat) : m.number a n < 2 ^ (8 * n) := by
  induction n generalizing a with
  | zero => simp [Memory.number]
  | succ n ih =>
    have h := ih (a + 1)
    have hb := (m.byte a).isLt
    rw [Memory.number, Nat.mul_succ, Nat.pow_add]
    omega

/-- The value of `n` bytes, at most four, is the word of their little-endian number. -/
theorem Memory.littleEndian_eq_number (m : Memory) (a : Nat) {n : Nat} (h : n ≤ 4) :
    m.littleEndian a n = BitVec.ofNat 32 (m.number a n) := by
  have hk : ∀ k, k ≤ 4 → ∀ a, (m.littleEndian a k).toNat = m.number a k := by
    intro k hk
    induction k with
    | zero => intro a; rfl
    | succ k ih =>
      intro a
      have h1 := ih (by omega) (a + 1)
      have h2 := m.number_lt (a + 1) k
      have h3 : 2 ^ (8 * k) ≤ 2 ^ 24 := Nat.pow_le_pow_right (by omega) (by omega)
      have hb := (m.byte a).isLt
      rw [Memory.littleEndian, BitVec.toNat_or, BitVec.toNat_shiftLeft, h1, BitVec.toNat_setWidth,
        Nat.or_comm, Nat.mod_eq_of_lt (a := (m.byte a).toNat) (by omega),
        Nat.mod_eq_of_lt (a := m.number (a + 1) k <<< 8) (by rw [Nat.shiftLeft_eq]; omega),
        ← Nat.shiftLeft_add_eq_or_of_lt hb, Memory.number, Nat.shiftLeft_eq]
      omega
  apply BitVec.eq_of_toNat_eq
  rw [hk n h, BitVec.toNat_ofNat, Nat.mod_eq_of_lt]
  have := m.number_lt a n
  have h3 : 2 ^ (8 * n) ≤ 2 ^ 32 := Nat.pow_le_pow_right (by omega) (by omega)
  omega

end Sys2Proof.Machine
end

