-- ==== Sys2Proof/Laws/PerInstr.lean ====
section
/-!
SUPPORT. A law per instruction: the encoder's word matches the instruction's own row of
spec/opcode_table.json: masked with the row's `mask` it is the row's `match`. The rows are copied from that
table, so this holds the encoder against the table and not against the decoder.
-/

namespace Sys2Proof.Laws.EncodesRow

/-- The `mask` of each instruction's row. -/
def mask : Instr → Word
  | .sll .. | .srl .. | .sra .. | .sllv .. | .srlv .. | .srav .. | .jr .. | .syscall | .brk
  | .mfhi .. | .mflo .. | .mult .. | .multu .. | .div .. | .divu .. | .add .. | .addu .. | .sub ..
  | .subu .. | .and .. | .or .. | .xor .. | .nor .. | .slt .. | .sltu .. => 0xFC00003F
  | .bltz .. | .bgez .. | .bltzal .. | .bgezal .. => 0xFC1F0000
  | .j .. | .jal .. | .beq .. | .bne .. | .blez .. | .bgtz .. | .addi .. | .addiu .. | .slti ..
  | .sltiu .. | .andi .. | .ori .. | .xori .. | .lui .. | .lb .. | .lh .. | .lw .. | .lbu ..
  | .lhu .. | .sb .. | .sh .. | .sw .. => 0xFC000000

/-- The `match` of each instruction's row. -/
def rowMatch : Instr → Word
  | .sll .. => 0x00000000
  | .srl .. => 0x00000002
  | .sra .. => 0x00000003
  | .sllv .. => 0x00000004
  | .srlv .. => 0x00000006
  | .srav .. => 0x00000007
  | .jr .. => 0x00000008
  | .syscall => 0x0000000C
  | .brk => 0x0000000D
  | .mfhi .. => 0x00000010
  | .mflo .. => 0x00000012
  | .mult .. => 0x00000018
  | .multu .. => 0x00000019
  | .div .. => 0x0000001A
  | .divu .. => 0x0000001B
  | .add .. => 0x00000020
  | .addu .. => 0x00000021
  | .sub .. => 0x00000022
  | .subu .. => 0x00000023
  | .and .. => 0x00000024
  | .or .. => 0x00000025
  | .xor .. => 0x00000026
  | .nor .. => 0x00000027
  | .slt .. => 0x0000002A
  | .sltu .. => 0x0000002B
  | .j .. => 0x08000000
  | .jal .. => 0x0C000000
  | .beq .. => 0x10000000
  | .bne .. => 0x14000000
  | .blez .. => 0x18000000
  | .bgtz .. => 0x1C000000
  | .addi .. => 0x20000000
  | .addiu .. => 0x24000000
  | .slti .. => 0x28000000
  | .sltiu .. => 0x2C000000
  | .andi .. => 0x30000000
  | .ori .. => 0x34000000
  | .xori .. => 0x38000000
  | .lui .. => 0x3C000000
  | .lb .. => 0x80000000
  | .lh .. => 0x84000000
  | .lw .. => 0x8C000000
  | .lbu .. => 0x90000000
  | .lhu .. => 0x94000000
  | .sb .. => 0xA0000000
  | .sh .. => 0xA4000000
  | .sw .. => 0xAC000000
  | .bltz .. => 0x04000000
  | .bgez .. => 0x04010000
  | .bltzal .. => 0x04100000
  | .bgezal .. => 0x04110000

/-- The statement of the family, about one instruction. -/
def Statement (i : Instr) : Prop := encode i &&& mask i = rowMatch i

/-! ### A masked word from its key fields -/

theorem and_field (w : Word) (lo width : Nat) :
    w &&& ((BitVec.allOnes width).setWidth 32 <<< lo) =
      (w.extractLsb' lo width).setWidth 32 <<< lo := by
  ext i hi
  simp only [BitVec.getElem_and, BitVec.getElem_shiftLeft, BitVec.getElem_setWidth,
    BitVec.getLsbD_allOnes, BitVec.getLsbD_extractLsb']
  by_cases h : i < lo
  · simp [h]
  · rw [show lo + (i - lo) = i by omega, BitVec.getLsbD_eq_getElem hi]
    simp [h, Bool.and_comm]

theorem mask_opcode (w : Word) : w &&& (0xFC000000 : Word) = (getOpcode w).setWidth 32 <<< 26 :=
  and_field w 26 6

theorem mask_special (w : Word) : w &&& (0xFC00003F : Word) =
    (getOpcode w).setWidth 32 <<< 26 ||| (getFunct w).setWidth 32 := by
  rw [show (0xFC00003F : Word) = 0xFC000000 ||| 0x3F from rfl, BitVec.and_or_distrib_left,
    mask_opcode]
  exact congrArg _ ((and_field w 0 6).trans (BitVec.shiftLeft_zero ..))

theorem mask_regimm (w : Word) : w &&& (0xFC1F0000 : Word) =
    (getOpcode w).setWidth 32 <<< 26 ||| (w.extractLsb' 16 5).setWidth 32 <<< 16 := by
  rw [show (0xFC1F0000 : Word) = 0xFC000000 ||| 0x1F0000 from rfl, BitVec.and_or_distrib_left,
    mask_opcode]
  exact congrArg _ (and_field w 16 5)

/-- The rt field of a REGIMM word, as bits. -/
theorem extract_rt_encodeImm (op : Int) (rs rt : Reg) (imm : BitVec 16) :
    (encodeImm op rs rt imm).extractLsb' 16 5 = BitVec.ofNat 5 rt.val := by
  have h := congrArg Fin.val (getRt_encodeImm op rs rt imm)
  change ((encodeImm op rs rt imm).extractLsb' 16 5).toNat = rt.val at h
  rw [← h, BitVec.ofNat_toNat, BitVec.setWidth_eq]

theorem special (rs rt rd : Reg) (sh : BitVec 5) (fn : Int) :
    encodeSpecial rs rt rd sh fn &&& (0xFC00003F : Word) = (BitVec.ofInt 6 fn).setWidth 32 := by
  rw [mask_special, getOpcode_encodeSpecial, getFunct_encodeSpecial]
  simp

theorem immediate (op : Int) (rs rt : Reg) (imm : BitVec 16) :
    encodeImm op rs rt imm &&& (0xFC000000 : Word) = (BitVec.ofInt 6 op).setWidth 32 <<< 26 := by
  rw [mask_opcode, getOpcode_encodeImm]

theorem jump (op target : Int) :
    encodeJ op target &&& (0xFC000000 : Word) = (BitVec.ofInt 6 op).setWidth 32 <<< 26 := by
  rw [mask_opcode, getOpcode_encodeJ]

theorem regimm (op : Int) (rs rt : Reg) (imm : BitVec 16) :
    encodeImm op rs rt imm &&& (0xFC1F0000 : Word) =
      (BitVec.ofInt 6 op).setWidth 32 <<< 26 ||| (BitVec.ofNat 5 rt.val).setWidth 32 <<< 16 := by
  rw [mask_regimm, getOpcode_encodeImm, extract_rt_encodeImm]

/-! ### The instructions -/

theorem sll (rd : Reg) (rt : Reg) (shamt : BitVec 5) : Statement (.sll rd rt shamt) :=
  special .. |>.trans rfl
theorem srl (rd : Reg) (rt : Reg) (shamt : BitVec 5) : Statement (.srl rd rt shamt) :=
  special .. |>.trans rfl
theorem sra (rd : Reg) (rt : Reg) (shamt : BitVec 5) : Statement (.sra rd rt shamt) :=
  special .. |>.trans rfl
theorem sllv (rd : Reg) (rt : Reg) (rs : Reg) : Statement (.sllv rd rt rs) :=
  special .. |>.trans rfl
theorem srlv (rd : Reg) (rt : Reg) (rs : Reg) : Statement (.srlv rd rt rs) :=
  special .. |>.trans rfl
theorem srav (rd : Reg) (rt : Reg) (rs : Reg) : Statement (.srav rd rt rs) :=
  special .. |>.trans rfl
theorem jr (rs : Reg) : Statement (.jr rs) :=
  special .. |>.trans rfl
theorem syscall : Statement (.syscall) :=
  special .. |>.trans rfl
theorem brk : Statement (.brk) :=
  special .. |>.trans rfl
theorem mfhi (rd : Reg) : Statement (.mfhi rd) :=
  special .. |>.trans rfl
theorem mflo (rd : Reg) : Statement (.mflo rd) :=
  special .. |>.trans rfl
theorem mult (rs : Reg) (rt : Reg) : Statement (.mult rs rt) :=
  special .. |>.trans rfl
theorem multu (rs : Reg) (rt : Reg) : Statement (.multu rs rt) :=
  special .. |>.trans rfl
theorem div (rs : Reg) (rt : Reg) : Statement (.div rs rt) :=
  special .. |>.trans rfl
theorem divu (rs : Reg) (rt : Reg) : Statement (.divu rs rt) :=
  special .. |>.trans rfl
theorem add (rd : Reg) (rs : Reg) (rt : Reg) : Statement (.add rd rs rt) :=
  special .. |>.trans rfl
theorem addu (rd : Reg) (rs : Reg) (rt : Reg) : Statement (.addu rd rs rt) :=
  special .. |>.trans rfl
theorem sub (rd : Reg) (rs : Reg) (rt : Reg) : Statement (.sub rd rs rt) :=
  special .. |>.trans rfl
theorem subu (rd : Reg) (rs : Reg) (rt : Reg) : Statement (.subu rd rs rt) :=
  special .. |>.trans rfl
theorem and (rd : Reg) (rs : Reg) (rt : Reg) : Statement (.and rd rs rt) :=
  special .. |>.trans rfl
theorem or (rd : Reg) (rs : Reg) (rt : Reg) : Statement (.or rd rs rt) :=
  special .. |>.trans rfl
theorem xor (rd : Reg) (rs : Reg) (rt : Reg) : Statement (.xor rd rs rt) :=
  special .. |>.trans rfl
theorem nor (rd : Reg) (rs : Reg) (rt : Reg) : Statement (.nor rd rs rt) :=
  special .. |>.trans rfl
theorem slt (rd : Reg) (rs : Reg) (rt : Reg) : Statement (.slt rd rs rt) :=
  special .. |>.trans rfl
theorem sltu (rd : Reg) (rs : Reg) (rt : Reg) : Statement (.sltu rd rs rt) :=
  special .. |>.trans rfl
theorem j (target : BitVec 26) : Statement (.j target) :=
  jump .. |>.trans rfl
theorem jal (target : BitVec 26) : Statement (.jal target) :=
  jump .. |>.trans rfl
theorem beq (rs : Reg) (rt : Reg) (imm : BitVec 16) : Statement (.beq rs rt imm) :=
  immediate .. |>.trans rfl
theorem bne (rs : Reg) (rt : Reg) (imm : BitVec 16) : Statement (.bne rs rt imm) :=
  immediate .. |>.trans rfl
theorem blez (rs : Reg) (imm : BitVec 16) : Statement (.blez rs imm) :=
  immediate .. |>.trans rfl
theorem bgtz (rs : Reg) (imm : BitVec 16) : Statement (.bgtz rs imm) :=
  immediate .. |>.trans rfl
theorem addi (rt : Reg) (rs : Reg) (imm : BitVec 16) : Statement (.addi rt rs imm) :=
  immediate .. |>.trans rfl
theorem addiu (rt : Reg) (rs : Reg) (imm : BitVec 16) : Statement (.addiu rt rs imm) :=
  immediate .. |>.trans rfl
theorem slti (rt : Reg) (rs : Reg) (imm : BitVec 16) : Statement (.slti rt rs imm) :=
  immediate .. |>.trans rfl
theorem sltiu (rt : Reg) (rs : Reg) (imm : BitVec 16) : Statement (.sltiu rt rs imm) :=
  immediate .. |>.trans rfl
theorem andi (rt : Reg) (rs : Reg) (imm : BitVec 16) : Statement (.andi rt rs imm) :=
  immediate .. |>.trans rfl
theorem ori (rt : Reg) (rs : Reg) (imm : BitVec 16) : Statement (.ori rt rs imm) :=
  immediate .. |>.trans rfl
theorem xori (rt : Reg) (rs : Reg) (imm : BitVec 16) : Statement (.xori rt rs imm) :=
  immediate .. |>.trans rfl
theorem lui (rt : Reg) (imm : BitVec 16) : Statement (.lui rt imm) :=
  immediate .. |>.trans rfl
theorem lb (rt : Reg) (imm : BitVec 16) (rs : Reg) : Statement (.lb rt imm rs) :=
  immediate .. |>.trans rfl
theorem lh (rt : Reg) (imm : BitVec 16) (rs : Reg) : Statement (.lh rt imm rs) :=
  immediate .. |>.trans rfl
theorem lw (rt : Reg) (imm : BitVec 16) (rs : Reg) : Statement (.lw rt imm rs) :=
  immediate .. |>.trans rfl
theorem lbu (rt : Reg) (imm : BitVec 16) (rs : Reg) : Statement (.lbu rt imm rs) :=
  immediate .. |>.trans rfl
theorem lhu (rt : Reg) (imm : BitVec 16) (rs : Reg) : Statement (.lhu rt imm rs) :=
  immediate .. |>.trans rfl
theorem sb (rt : Reg) (imm : BitVec 16) (rs : Reg) : Statement (.sb rt imm rs) :=
  immediate .. |>.trans rfl
theorem sh (rt : Reg) (imm : BitVec 16) (rs : Reg) : Statement (.sh rt imm rs) :=
  immediate .. |>.trans rfl
theorem sw (rt : Reg) (imm : BitVec 16) (rs : Reg) : Statement (.sw rt imm rs) :=
  immediate .. |>.trans rfl
theorem bltz (rs : Reg) (imm : BitVec 16) : Statement (.bltz rs imm) :=
  regimm .. |>.trans rfl
theorem bgez (rs : Reg) (imm : BitVec 16) : Statement (.bgez rs imm) :=
  regimm .. |>.trans rfl
theorem bltzal (rs : Reg) (imm : BitVec 16) : Statement (.bltzal rs imm) :=
  regimm .. |>.trans rfl
theorem bgezal (rs : Reg) (imm : BitVec 16) : Statement (.bgezal rs imm) :=
  regimm .. |>.trans rfl

end Sys2Proof.Laws.EncodesRow
end

