-- ==== Sys2Proof/Laws/Word.lean ====
section
/-!
SUPPORT. The laws of narrowing: what `wrap32` of a sum, a difference, a product or a quotient of words is,
in the word operations the meanings use.
-/

namespace Sys2Proof

theorem wrap32_natCast (n : Nat) : wrap32 (n : Int) = BitVec.ofNat 32 n :=
  BitVec.ofInt_natCast 32 n

theorem wrap32_toNat (n : Int) : ((wrap32 n).toNat : Int) = n % 2 ^ 32 := by
  rw [wrap32, BitVec.toNat_ofInt]
  omega

/-- `wrap32` reads back a word from its unsigned value. -/
@[simp] theorem wrap32_unsigned (v : Word) : wrap32 (v.toNat : Int) = v := by
  rw [wrap32_natCast, BitVec.ofNat_toNat, BitVec.setWidth_eq]

/-- `wrap32` reads back a word from its signed value. -/
@[simp] theorem wrap32_signed (v : Word) : wrap32 v.toInt = v :=
  BitVec.ofInt_toInt

theorem wrap32_add (v w : Word) : wrap32 ((v.toNat : Int) + w.toNat) = v + w := by
  rw [wrap32, BitVec.ofInt_add, BitVec.ofInt_natCast, BitVec.ofInt_natCast]
  simp

theorem wrap32_sub (v w : Word) : wrap32 ((v.toNat : Int) - w.toNat) = v - w := by
  apply BitVec.eq_of_toNat_eq
  have h := wrap32_toNat ((v.toNat : Int) - w.toNat)
  rw [BitVec.toNat_sub]
  omega

theorem wrap32_mul_pow (v : Word) (k : Nat) : wrap32 (v.toNat * 2 ^ k : Nat) = v <<< k := by
  rw [wrap32_natCast]
  apply BitVec.eq_of_toNat_eq
  rw [BitVec.toNat_ofNat, BitVec.toNat_shiftLeft, Nat.shiftLeft_eq]

theorem wrap32_div_pow (v : Word) (k : Nat) : wrap32 (v.toNat / 2 ^ k : Nat) = v >>> k := by
  rw [wrap32_natCast]
  apply BitVec.eq_of_toNat_eq
  rw [BitVec.toNat_ofNat, BitVec.toNat_ushiftRight, Nat.shiftRight_eq_div_pow]
  exact Nat.mod_eq_of_lt (lt_of_le_of_lt (Nat.div_le_self _ _) v.isLt)

theorem wrap32_ediv_pow (v : Word) (k : Nat) : wrap32 (v.toInt / 2 ^ k) = v.sshiftRight k := by
  rw [wrap32, BitVec.sshiftRight_eq, Int.shiftRight_eq_div_pow]
  norm_cast

/-- An integer that fits is the signed value of its word. -/
theorem wrap32_toInt {n : Int} (h : -2 ^ 31 ≤ n ∧ n < 2 ^ 31) : (wrap32 n).toInt = n := by
  rw [wrap32, BitVec.toInt_ofInt, Int.bmod]
  simp only [Nat.reducePow]
  omega

/-- An integer that fits is the unsigned value of its word. -/
theorem wrap32_toNat_of_fits {n : Nat} (h : n < 2 ^ 32) : (wrap32 (n : Int)).toNat = n := by
  rw [wrap32_natCast, BitVec.toNat_ofNat, Nat.mod_eq_of_lt h]

namespace Machine

theorem boolWord_decide (c : Prop) [Decidable c] : boolWord (decide c) = if c then 1 else 0 := by
  by_cases h : c <;> simp [boolWord, h]

theorem shiftAmount_toNat (v : Word) : (shiftAmount v).toNat = v.toNat % 32 := by
  simp [shiftAmount]

/-- Four times the signed 16-bit field, as the word a branch adds. -/
theorem wrap32_branch (v : Word) (imm : BitVec 16) :
    wrap32 (v.toNat + 4 * imm.toInt) = v + (signedImm imm <<< 2) := by
  have h : signedImm imm <<< 2 = wrap32 (4 * imm.toInt) := by
    apply BitVec.eq_of_toNat_eq
    have h1 := wrap32_toNat (4 * imm.toInt)
    have h2 : (signedImm imm) = wrap32 imm.toInt := by
      rw [wrap32, signedImm, BitVec.signExtend]
    have h3 := wrap32_toNat imm.toInt
    rw [BitVec.toNat_shiftLeft, Nat.shiftLeft_eq, h2]
    omega
  rw [h, wrap32, wrap32, BitVec.ofInt_add, BitVec.ofInt_natCast]
  simp

end Machine

end Sys2Proof
end

