-- ==== Sys2Proof/Tests/Slice0.lean ====
section
/-!
SUPPORT. Small tests, each one step, one word or one check. Expected values come from the spec's worked
examples and vectors (spec/95_test_vectors.md, and the examples in the rules), never from the model. After
them, a witness for the hypotheses of every statement of Certificates/Slice0/Obligations.lean that has any.
-/

open Sys2Proof Sys2Proof.Machine

namespace Sys2Proof.Tests

/-! ### Helpers -/

/-- The reset state with some registers set. -/
def withRegs (regs : List (Reg × Word)) : State :=
  regs.foldl (fun s p => s.setReg p.1 p.2) State.reset

/-- A state with some bytes set. -/
def withBytes (s : State) (bytes : List (Nat × Byte)) : State :=
  bytes.foldl (fun s p => s.setMem (s.mem.setByte p.1 p.2)) s

def nextOf : Host.Outcome State Fault Refusal → Option State
  | .next t => some t
  | .fault _ => none
  | .refused _ => none

/-- The state after one step that runs `w`. -/
def ran (s : State) (w : Nat) : Option State := nextOf (step (s.withFetchWord 32 w))

/-- A register and `pc` after one step that runs `w`. -/
def regAfter (s : State) (w : Nat) (r : Reg) : Option (Word × Word) :=
  (ran s w).map fun t => (t.reg r, t.pc)

/-- HI, LO and `pc` after one step that runs `w`. -/
def hiLoAfter (s : State) (w : Nat) : Option (Word × Word × Word) :=
  (ran s w).map fun t => (t.hi, t.lo, t.pc)

/-- The status, one register that must not change, and `pc` after one step that runs `w`. -/
def endAfter (s : State) (w : Nat) (r : Reg) : Option (RunStatus × Word × Word) :=
  (ran s w).map fun t => (t.status, t.reg r, t.pc)

/-- Bytes from `a` on, and `pc`, after one step that runs `w`. -/
def bytesAfter (s : State) (w : Nat) (a n : Nat) : Option (List Byte × Word) :=
  (ran s w).map fun t => (t.mem.bytes a n, t.pc)

/-- `w` decodes to `i`, and `i` is encoded as `w`. -/
abbrev Encodes (w : Word) (i : Instr) : Prop := decode w = .ok i ∧ encode i = w

def isNext (o : Host.Outcome State Fault Refusal) : Bool := (nextOf o).isSome

def isOk {ε α : Type} : Except ε α → Bool
  | .ok _ => true
  | .error _ => false

/-! ### Decoding and encoding: a word of every instruction, written out from R62 and R71 to R73 -/

theorem test_words_alu :
    Encodes 0x01095020 (.add 10 8 9) ∧
    Encodes 0x01095021 (.addu 10 8 9) ∧
    Encodes 0x01095022 (.sub 10 8 9) ∧
    Encodes 0x01095023 (.subu 10 8 9) ∧
    Encodes 0x01095024 (.and 10 8 9) ∧
    Encodes 0x01095025 (.or 10 8 9) ∧
    Encodes 0x01095026 (.xor 10 8 9) ∧
    Encodes 0x01095027 (.nor 10 8 9) ∧
    Encodes 0x0109502A (.slt 10 8 9) ∧
    Encodes 0x0109502B (.sltu 10 8 9) := by decide

theorem test_words_shift :
    Encodes 0x00085100 (.sll 10 8 4) ∧
    Encodes 0x000857C2 (.srl 10 8 31) ∧
    Encodes 0x00085043 (.sra 10 8 1) ∧
    Encodes 0x01285004 (.sllv 10 8 9) ∧
    Encodes 0x01285006 (.srlv 10 8 9) ∧
    Encodes 0x01285007 (.srav 10 8 9) := by decide

theorem test_words_muldiv :
    Encodes 0x01090018 (.mult 8 9) ∧
    Encodes 0x01090019 (.multu 8 9) ∧
    Encodes 0x0109001A (.div 8 9) ∧
    Encodes 0x0109001B (.divu 8 9) ∧
    Encodes 0x00005010 (.mfhi 10) ∧
    Encodes 0x00005012 (.mflo 10) := by decide

theorem test_words_control :
    Encodes 0x03E00008 (.jr 31) ∧
    Encodes 0x0000000C (.syscall) ∧
    Encodes 0x0000000D (.brk) ∧
    Encodes 0x08000018 (.j 0x18) ∧
    Encodes 0x0C000018 (.jal 0x18) ∧
    Encodes 0x0BFFFFFF (.j 0x3FFFFFF) := by decide

theorem test_words_immediate :
    Encodes 0x2109FFFF (.addi 9 8 0xFFFF) ∧
    Encodes 0x25098000 (.addiu 9 8 0x8000) ∧
    Encodes 0x29090000 (.slti 9 8 0) ∧
    Encodes 0x2D09FFFF (.sltiu 9 8 0xFFFF) ∧
    Encodes 0x31098000 (.andi 9 8 0x8000) ∧
    Encodes 0x35098765 (.ori 9 8 0x8765) ∧
    Encodes 0x390900FF (.xori 9 8 0x00FF) ∧
    Encodes 0x3C091234 (.lui 9 0x1234) := by decide

theorem test_words_branch :
    Encodes 0x11090003 (.beq 8 9 3) ∧
    Encodes 0x1509FFFE (.bne 8 9 0xFFFE) ∧
    Encodes 0x19000001 (.blez 8 1) ∧
    Encodes 0x1D000001 (.bgtz 8 1) ∧
    Encodes 0x05000001 (.bltz 8 1) ∧
    Encodes 0x05010001 (.bgez 8 1) ∧
    Encodes 0x05100001 (.bltzal 8 1) ∧
    Encodes 0x05110001 (.bgezal 8 1) := by decide

theorem test_words_memory :
    Encodes 0x81090004 (.lb 9 4 8) ∧
    Encodes 0x85090004 (.lh 9 4 8) ∧
    Encodes 0x8D090004 (.lw 9 4 8) ∧
    Encodes 0x91090004 (.lbu 9 4 8) ∧
    Encodes 0x95090004 (.lhu 9 4 8) ∧
    Encodes 0xA1090004 (.sb 9 4 8) ∧
    Encodes 0xA5090004 (.sh 9 4 8) ∧
    Encodes 0xAFA9FFFC (.sw 9 0xFFFC 29) := by decide

/-- The worked encoding of the source (30_encoding.md R69; 95_test_vectors.md L1.2). -/
theorem test_word_of_the_source : Encodes 0x012A4020 (.add 8 9 10) ∧
    encodeR 0 9 10 8 0 0x20 = 0x012A4020 := by decide

/-- Illegal keys (95_test_vectors.md, the dispatch table). -/
theorem test_illegal_words :
    [0xFFFFFFFF, 0x40000000, 0x88000000, 0x98000000, 0x9C000000, 0x0000003F, 0x00000001, 0x0000000E,
      0x00000011, 0x04020000].all (fun w => !isOk (decode w)) = true := by decide

/-- Bits an instruction ignores (95_test_vectors.md: shamt of add, rs of sll, rt of blez, rd of jr). -/
theorem test_ignored_bits : decode 0x01095160 = .ok (.add 10 8 9) ∧
    decode 0x01285100 = .ok (.sll 10 8 4) ∧ decode 0x19050001 = .ok (.blez 8 1) ∧
    decode 0x01002808 = .ok (.jr 8) ∧ decode 0x03FFFFCD = .ok .brk := by decide

/-- Getters and setters outside their range (95_test_vectors.md L1.1 and L2, codec). -/
theorem test_setters_reduce : setRs 33 = 0x00200000 ∧ setShamt 32 = 0 ∧ setFunct 0x40 = 0 ∧
    setImm (-1) = 0x0000FFFF ∧ setTarget (-1) = 0x03FFFFFF ∧
    getImm (setImm 0x18000) = 0xFFFF8000 := by decide

theorem test_getters_check_no_format : getRd 0x8D09FFFC = 31 ∧ getImm 0x8D09FFFC = 0xFFFFFFFC ∧
    getTarget 0x0BFFFFFF = 0x03FFFFFF := by decide

theorem test_formats : [0x00000000, 0x04000000, 0x08000000, 0x0C000000, 0x10000000, 0x3C000000,
    0x40000000, 0x88000000, 0xFC000000].map decodeFormat = [.r, .i, .j, .j, .i, .i, .i, .i, .i] := by
  decide

theorem test_decode_needs_four_bytes :
    decodeBytes [0x20, 0x50, 0x09] = .error .truncated := by decide

theorem test_decode_leaves_the_rest :
    decodeBytes [0x20, 0x50, 0x09, 0x01, 0xAA] = .ok (.add 10 8 9, [0xAA]) := by decide

/-! ### Well-formedness: each check refuses an ill-formed term -/

/-- An image the loader accepts, to break one constraint at a time. -/
def image : Config.Image :=
  { text := [0x0C, 0, 0, 0], progBase := 0x40, data := some ([1, 2, 3], 0x0FFF) }

/-- Parameters with every OPEN value different from 0. -/
def params : Config.Params :=
  { initGpr := fun _ => 0x55555555, initHi := 1, initLo := 2, initMem := fun _ => 0xAA }

theorem test_wf_accepts : WellFormed.image params image = true := by decide
theorem test_wf_field : WellFormed.fieldFits 5 31 = true ∧ WellFormed.fieldFits 5 32 = false ∧
    WellFormed.fieldFits 5 (-1) = false := by decide
theorem test_wf_imm : WellFormed.immFits (-32768) = true ∧ WellFormed.immFits 32768 = false ∧
    WellFormed.immFits (-32769) = false := by decide
theorem test_wf_data : WellFormed.dataFits 1 255 = true ∧ WellFormed.dataFits 1 256 = false ∧
    WellFormed.dataFits 2 (-32769) = false := by decide
theorem test_wf_mem_size : WellFormed.memSize 0 = false ∧ WellFormed.memSize (2 ^ 32) = true ∧
    WellFormed.memSize (2 ^ 32 + 1) = false := by decide
theorem test_wf_text_length :
    WellFormed.image params { image with text := [] } = false ∧
    WellFormed.image params { image with text := [0x0C, 0, 0] } = false := by decide
theorem test_wf_prog_base : WellFormed.progBaseAligned { image with progBase := 0x42 } = false := by
  decide
theorem test_wf_segment_inside : WellFormed.segmentInside 8192 8188 4 = true ∧
    WellFormed.segmentInside 8192 8188 8 = false ∧
    WellFormed.segmentInside 8192 (-4) 4 = false := by decide
theorem test_wf_data_inside :
    WellFormed.dataInside 8192 { image with data := some ([1, 2, 3], 8190) } = false := by decide
theorem test_wf_disjoint :
    WellFormed.segmentsDisjoint { image with data := some ([1, 2, 3], 0x43) } = false ∧
    WellFormed.segmentsDisjoint { image with data := some ([1, 2, 3], 0x3E) } = false ∧
    WellFormed.segmentsDisjoint { image with data := some ([], 0x42) } = true := by decide
theorem test_wf_init_pc : WellFormed.image { params with initPc := 0x44 } image = false := by decide
theorem test_wf_container_fields : WellFormed.containerFields image = true ∧
    WellFormed.int32Fits (2 ^ 31 - 1) = true ∧ WellFormed.int32Fits (-2 ^ 31 - 1) = false ∧
    WellFormed.containerFields { image with progBase := 2 ^ 31 } = false ∧
    WellFormed.containerFields { image with data := some ([1], 2 ^ 31) } = false := by decide

/-! ### One step of each instruction (95_test_vectors.md L2) -/

theorem test_add : regAfter (withRegs [(8, 5), (9, 3)]) 0x01095020 10 = some (8, 0x44) := by decide
theorem test_add_overflow :
    endAfter (withRegs [(8, 0x7FFFFFFF), (9, 1), (10, 0xDEADBEEF)]) 0x01095020 10 =
    some (.faulted (.integerOverflow 0x40) 0x40, 0xDEADBEEF, 0x44) := by decide
theorem test_addu_wraps :
    regAfter (withRegs [(8, 0x7FFFFFFF), (9, 1)]) 0x01095021 10 =
      some (0x80000000, 0x44) := by decide
theorem test_sub :
    regAfter (withRegs [(8, 3), (9, 5)]) 0x01095022 10 = some (0xFFFFFFFE, 0x44) := by decide
theorem test_sub_overflow : endAfter (withRegs [(9, 0x80000000), (10, 0xDEADBEEF)]) 0x01095022 10 =
    some (.faulted (.integerOverflow 0x40) 0x40, 0xDEADBEEF, 0x44) := by decide
theorem test_subu_wraps :
    regAfter (withRegs [(9, 1)]) 0x01095023 10 = some (0xFFFFFFFF, 0x44) := by decide
theorem test_and :
    regAfter (withRegs [(8, 0xF0F0F0F0), (9, 0xFF00FF00)]) 0x01095024 10 =
      some (0xF000F000, 0x44) := by decide
theorem test_or :
    regAfter (withRegs [(8, 0xF0F0F0F0), (9, 0xFF00FF00)]) 0x01095025 10 =
      some (0xFFF0FFF0, 0x44) := by decide
theorem test_xor :
    regAfter (withRegs [(8, 0xF0F0F0F0), (9, 0xFF00FF00)]) 0x01095026 10 =
      some (0x0FF00FF0, 0x44) := by decide
theorem test_nor :
    regAfter (withRegs [(8, 0xF0F0F0F0), (9, 0xFF00FF00)]) 0x01095027 10 =
      some (0x000F000F, 0x44) := by decide
theorem test_slt_signed :
    regAfter (withRegs [(8, 0x80000000), (9, 0x7FFFFFFF)]) 0x0109502A 10 =
      some (1, 0x44) := by decide
theorem test_sltu_unsigned :
    regAfter (withRegs [(8, 0xFFFFFFFF), (9, 1)]) 0x0109502B 10 = some (0, 0x44) := by decide
theorem test_write_to_register_zero :
    regAfter (withRegs [(8, 5), (9, 3)]) 0x01090021 0 = some (8, 0x44) := by decide
theorem test_sll :
    regAfter (withRegs [(8, 0x80000001)]) 0x000857C0 10 = some (0x80000000, 0x44) := by decide
theorem test_srl_zeros_enter :
    regAfter (withRegs [(8, 0x80000001)]) 0x00085042 10 = some (0x40000000, 0x44) := by decide
theorem test_sra_sign_enters :
    regAfter (withRegs [(8, 0x80000001)]) 0x00085043 10 = some (0xC0000000, 0x44) := by decide
theorem test_sllv_amount_mod_32 :
    regAfter (withRegs [(8, 0x80000001), (9, 36)]) 0x01285004 10 = some (0x10, 0x44) := by decide
theorem test_srlv_amount_mod_32 :
    regAfter (withRegs [(8, 0x80000001), (9, 36)]) 0x01285006 10 =
      some (0x08000000, 0x44) := by decide
theorem test_srav_amount_mod_32 :
    regAfter (withRegs [(8, 0x80000001), (9, 36)]) 0x01285007 10 =
      some (0xF8000000, 0x44) := by decide
theorem test_mult_signed :
    hiLoAfter (withRegs [(8, 0xFFFFFFFE), (9, 3)]) 0x01090018 =
      some (0xFFFFFFFF, 0xFFFFFFFA, 0x44) := by decide
theorem test_mult_largest :
    hiLoAfter (withRegs [(8, 0x80000000), (9, 0x80000000)]) 0x01090018 =
      some (0x40000000, 0, 0x44) := by decide
theorem test_multu_unsigned :
    hiLoAfter (withRegs [(8, 0xFFFFFFFF), (9, 0xFFFFFFFF)]) 0x01090019 =
      some (0xFFFFFFFE, 1, 0x44) := by decide
theorem test_div_truncates :
    hiLoAfter (withRegs [(8, 0xFFFFFFF9), (9, 2)]) 0x0109001A =
      some (0xFFFFFFFF, 0xFFFFFFFD, 0x44) := by decide
theorem test_div_by_zero : endAfter (withRegs [(8, 5)]) 0x0109001A 8 =
    some (.faulted (.divideByZero 0x40) 0x40, 5, 0x44) := by decide
theorem test_divu :
    hiLoAfter (withRegs [(8, 0xFFFFFFF9), (9, 2)]) 0x0109001B =
      some (1, 0x7FFFFFFC, 0x44) := by decide
theorem test_divu_by_zero : endAfter (withRegs [(8, 7)]) 0x0109001B 8 =
    some (.faulted (.divideByZero 0x40) 0x40, 7, 0x44) := by decide
theorem test_mfhi : regAfter (State.reset.setHiLo 0x12345678 0x9ABCDEF0) 0x00005010 10 =
    some (0x12345678, 0x44) := by decide
theorem test_mflo : regAfter (State.reset.setHiLo 0x12345678 0x9ABCDEF0) 0x00005012 10 =
    some (0x9ABCDEF0, 0x44) := by decide
theorem test_addi : regAfter (withRegs [(8, 5)]) 0x2109FFFF 9 = some (4, 0x44) := by decide
theorem test_addi_overflow : endAfter (withRegs [(8, 0x80000000), (9, 0xDEADBEEF)]) 0x2109FFFF 9 =
    some (.faulted (.integerOverflow 0x40) 0x40, 0xDEADBEEF, 0x44) := by decide
theorem test_addiu_sign_extends :
    regAfter (withRegs []) 0x25098000 9 = some (0xFFFF8000, 0x44) := by decide
theorem test_slti : regAfter (withRegs [(8, 5)]) 0x29098000 9 = some (0, 0x44) := by decide
theorem test_slti_negative :
    regAfter (withRegs [(8, 0xFFFFFFFF)]) 0x29090000 9 = some (1, 0x44) := by decide
theorem test_sltiu_sign_extends :
    regAfter (withRegs [(8, 0x00007FFF)]) 0x2D098000 9 = some (1, 0x44) := by decide
theorem test_sltiu_equal :
    regAfter (withRegs [(8, 0xFFFFFFFF)]) 0x2D09FFFF 9 = some (0, 0x44) := by decide
theorem test_andi_zero_extends :
    regAfter (withRegs [(8, 0xFFFFFFFF)]) 0x31098000 9 = some (0x8000, 0x44) := by decide
theorem test_ori_zero_extends :
    regAfter (withRegs [(8, 0x12340000)]) 0x35098765 9 = some (0x12348765, 0x44) := by decide
theorem test_xori_zero_extends :
    regAfter (withRegs [(8, 0xFFFFFFFF)]) 0x3909FFFF 9 = some (0xFFFF0000, 0x44) := by decide
theorem test_lui :
    regAfter (withRegs [(9, 0xDEADBEEF)]) 0x3C091234 9 = some (0x12340000, 0x44) := by decide
theorem test_beq_taken : regAfter (withRegs []) 0x11098000 31 = some (0, 0xFFFE0044) := by decide
theorem test_beq_not_taken :
    regAfter (withRegs [(8, 7), (9, 8)]) 0x11090003 31 = some (0, 0x44) := by decide
theorem test_bne_taken :
    regAfter (withRegs [(8, 1), (9, 2)]) 0x1509FFFE 31 = some (0, 0x3C) := by decide
theorem test_bne_not_taken :
    regAfter (withRegs [(8, 2), (9, 2)]) 0x1509FFFE 31 = some (0, 0x44) := by decide
theorem test_blez_zero : regAfter (withRegs []) 0x19000001 31 = some (0, 0x48) := by decide
theorem test_blez_positive :
    regAfter (withRegs [(8, 1)]) 0x19000001 31 = some (0, 0x44) := by decide
theorem test_bgtz_positive :
    regAfter (withRegs [(8, 0x7FFFFFFF)]) 0x1D000001 31 = some (0, 0x48) := by decide
theorem test_bgtz_zero : regAfter (withRegs []) 0x1D000001 31 = some (0, 0x44) := by decide
theorem test_bltz_negative :
    regAfter (withRegs [(8, 0xFFFFFFFF)]) 0x05000001 31 = some (0, 0x48) := by decide
theorem test_bltz_zero : regAfter (withRegs []) 0x05000001 31 = some (0, 0x44) := by decide
theorem test_bgez_zero : regAfter (withRegs []) 0x05010001 31 = some (0, 0x48) := by decide
theorem test_bgez_negative :
    regAfter (withRegs [(8, 0x80000000)]) 0x05010001 31 = some (0, 0x44) := by decide
theorem test_bltzal_reads_before_link :
    regAfter (withRegs [(31, 0xFFFFFFFF)]) 0x07F00001 31 = some (0x44, 0x48) := by decide
theorem test_bltzal_links_untaken :
    regAfter (withRegs [(8, 1)]) 0x05100001 31 = some (0x44, 0x44) := by decide
theorem test_bgezal_taken : regAfter (withRegs []) 0x05110001 31 = some (0x44, 0x48) := by decide
theorem test_bgezal_links_untaken :
    regAfter (withRegs [(8, 0xFFFFFFFF)]) 0x05110001 31 = some (0x44, 0x44) := by decide

/-- The bytes of 47_loadstore.md's examples, with `x[8] = 0x0FFC` and `x[9] = 0x12345678`. -/
def bytesA : State :=
  withBytes (withRegs [(8, 0x00000FFC), (9, 0x12345678)])
    [(0x1000, 0x88), (0x1001, 0x99), (0x1002, 0x66), (0x1003, 0x55), (0x1004, 0x11)]

theorem test_lb_sign_extends : regAfter bytesA 0x81090004 9 = some (0xFFFFFF88, 0x44) := by decide
theorem test_lh_sign_extends : regAfter bytesA 0x85090004 9 = some (0xFFFF9988, 0x44) := by decide
theorem test_lh_odd_address : regAfter bytesA 0x85090005 9 = some (0x6699, 0x44) := by decide
theorem test_lw : regAfter bytesA 0x8D090004 9 = some (0x55669988, 0x44) := by decide
theorem test_lbu_zero_extends : regAfter bytesA 0x91090004 9 = some (0x88, 0x44) := by decide
theorem test_lhu_odd_address : regAfter bytesA 0x95090007 9 = some (0x1155, 0x44) := by decide
theorem test_lw_crosses_the_end : endAfter (withRegs [(8, 0x1FFE), (9, 0xDEADBEEF)]) 0x8D090000 9 =
    some (.faulted (.memoryFault 0x1FFE 4 .load) 0x40, 0xDEADBEEF, 0x44) := by decide
theorem test_lbu_at_the_end : endAfter (withRegs [(8, 0x2000), (9, 0xDEADBEEF)]) 0x91090000 9 =
    some (.faulted (.memoryFault 0x2000 1 .load) 0x40, 0xDEADBEEF, 0x44) := by decide
theorem test_sb :
    bytesAfter bytesA 0xA1090004 0x1000 4 = some ([0x78, 0x99, 0x66, 0x55], 0x44) := by decide
theorem test_sh :
    bytesAfter bytesA 0xA5090004 0x1000 4 = some ([0x78, 0x56, 0x66, 0x55], 0x44) := by decide
theorem test_sw_odd_address : bytesAfter bytesA 0xAD090005 0x1000 5 =
    some ([0x88, 0x78, 0x56, 0x34, 0x12], 0x44) := by decide
theorem test_sh_crosses_the_end : endAfter bytesA 0xA5091003 9 =
    some (.faulted (.memoryFault 0x1FFF 2 .store) 0x40, 0x12345678, 0x44) := by decide
theorem test_sw_last_word :
    bytesAfter (withRegs [(29, 0x2000), (9, 0x12345678)]) 0xAFA9FFFC 0x1FFC 4 =
    some ([0x78, 0x56, 0x34, 0x12], 0x44) := by decide
theorem test_j : regAfter (State.reset.setPc 0x44) 0x08000018 31 = some (0, 0x60) := by decide
theorem test_jal : regAfter (State.reset.setPc 0x44) 0x0C000018 31 = some (0x48, 0x60) := by decide
theorem test_jr :
    regAfter ((withRegs [(31, 0x51)]).setPc 0x60) 0x03E00008 31 = some (0x51, 0x51) := by decide
theorem test_break_suspends :
    endAfter State.reset 0x0000000D 0 = some (.suspended, 0, 0x44) := by decide
theorem test_syscall_prints_minus_seven :
    (ran (withRegs [(2, 1), (4, 0xFFFFFFF9)]) 0x0000000C).map (fun t => (t.requests, t.pc)) =
      some ([.printInt (-7)], 0x44) := by decide
theorem test_syscall_codes :
    endAfter (withRegs [(2, 10)]) 0x0000000C 2 = some (.exited 0, 10, 0x44) ∧
    endAfter (withRegs [(2, 17), (4, 3)]) 0x0000000C 2 = some (.exited 3, 17, 0x44) ∧
    endAfter (withRegs [(2, 9)]) 0x0000000C 2 =
      some (.faulted (.unimplementedSyscall 0x40) 0x40, 9, 0x44) ∧
    (ran (withRegs [(2, 36), (4, 0xFFFFFFF9)]) 0x0000000C).map State.requests =
      some [.printUnsigned 4294967289] := by decide

/-! ### Fetch (95_test_vectors.md, the dispatch table) -/

theorem test_illegal_word : endAfter State.reset 0x88000000 0 =
    some (.faulted (.illegalInstruction 0x40 0x88000000) 0x40, 0, 0x44) := by decide
theorem test_fetch_misaligned :
    (nextOf (step (State.reset.setPc 0x51))).map (fun t => (t.status, t.pc)) =
    some (.faulted (.fetchMisaligned 0x51) 0x51, 0x51) := by decide
theorem test_fetch_at_the_end :
    (nextOf (step (State.reset.setPc 0x2000))).map (fun t => (t.status, t.pc)) =
    some (.faulted (.memoryFault 0x2000 4 .fetch) 0x2000, 0x2000) := by decide
theorem test_fetch_last_word :
    (nextOf (step (State.reset.setPc 0x1FFC))).map (fun t => (t.status, t.pc)) =
    some (.running, 0x2000) := by decide

/-! ### The host's two questions, on one word -/

theorem test_table_word : decodeTableWord 32 0x01095020 = some (.add 10 8 9) ∧
    decodeTableWord 32 0xFFFFFFFF = none := by decide

/-! ### Construction and the assembler (95_test_vectors.md L1, L2) -/

/-- `x[0] = 0` and `pc = PROG_BASE` whatever the OPEN parameters are (R243). -/
theorem test_construct : (match construct params image with
    | .ok s => some (s.reg 0, s.reg 1, s.hi, s.lo, s.pc, s.status)
    | .error _ => none) = some (0, 0x55555555, 1, 2, 0x40, .running) := by decide

/-- The loader's named refusals (R241, R242). -/
theorem test_load_refusals :
    parseContainer [0x2E, 0x74, 0x65, 0x78] = .error .badMagic ∧
    parseContainer [0x2E, 0x74, 0x65, 0x78, 0x74, 4, 0, 0, 0, 0x40, 0, 0, 0, 0x0C] =
      .error .truncated ∧
    parseContainer [0x2E, 0x74, 0x65, 0x78, 0x74, 4, 0, 0, 0, 0x40, 0, 0, 0, 0x0C, 0, 0, 0, 1] =
      .error .badTail := by decide

/-- The 59 bytes of L1.5's container with `.ascii`, `.space` and `.word`. -/
theorem test_container_of_the_source :
    isOk (assembleContainer {}
      (".data\nmsg: .ascii \"hi\"\npad: .space 3\nn: .word 0x01020304\n.text\nla $t0,n\n" ++
        "lw $t1,0($t0)\nli $v0,10\nsyscall\n").toList) = true ∧
    (match assembleContainer {}
      (".data\nmsg: .ascii \"hi\"\npad: .space 3\nn: .word 0x01020304\n.text\nla $t0,n\n" ++
        "lw $t1,0($t0)\nli $v0,10\nsyscall\n").toList with
    | .ok bytes => bytes
    | .error _ => []) =
      [0x2e, 0x74, 0x65, 0x78, 0x74, 0x18, 0, 0, 0, 0x40, 0, 0, 0, 0x00, 0x00, 0x08, 0x3c, 0x04, 0x10,
       0x08, 0x35, 0x00, 0x00, 0x09, 0x8d, 0x00, 0x00, 0x02, 0x3c, 0x0a, 0x00, 0x42, 0x34, 0x0c, 0, 0, 0,
       0x2e, 0x64, 0x61, 0x74, 0x61, 0x09, 0, 0, 0, 0xff, 0x0f, 0, 0, 0x68, 0x69, 0, 0, 0, 4, 3, 2, 1] := by
  decide +kernel

/-- L1.3, L1.4 and L1.8: branch, data and jump relocation. -/
theorem test_relocations :
    relocateBranch 0x10000000 0 0x0C = .ok 0x10000002 ∧
    relocateBranch 0x10000000 0 0 = .ok 0x1000FFFF ∧
    relocateJump {} 0x08000000 0 0x20 = .ok 0x08000018 ∧
    relocateData { dataBase := 0x12348000 } 0x3C080000 (some .high) 0 = .ok 0x3C081234 ∧
    relocateData { dataBase := 0x12348000 } 0x35080000 (some .low) 0 = .ok 0x35088000 := by decide

/-- `li $a0,-7` (L3, P3). -/
theorem test_li_negative : liWords 4 (-7) = [0x3C04FFFF, 0x3484FFF9] := by decide

/-- How a text line ends: the labels defined and the number of words, or the error. -/
def textLineOf (l : String) : Except AsmError (List (String × Nat) × Nat × List String) :=
  match textLine {} AsmState.start l.toList with
  | .ok a => .ok (a.textLabels, a.words.length, a.skipped)
  | .error e => .error e

/-- A line that ends in `:` is a label, with or without a blank before it (R78). -/
theorem test_label_lines : textLineOf "loop:" = .ok ([("loop", 0)], 0, []) ∧
    textLineOf "loop :" = .ok ([("loop", 0)], 0, []) := by decide +kernel

/-- A label and an instruction on one line, and a trailing comment, are refused however they are spaced
(R78; 93_implementation_defined.md B19); an unknown mnemonic is skipped with a report (R88). -/
theorem test_refused_lines :
    (["L: add $t0,$t1,$t2", "L:add $t0,$t1,$t2", "L : add $t0,$t1,$t2", "add $t0,$t1,$t2 # c",
      "add $t0,$t1,$t2#c", ".globl main", ".word 5"].all
      fun l => decide (textLineOf l = .error .badLine)) = true ∧
    textLineOf "frob $t0" = .ok ([], 0, ["frob"]) := by decide +kernel

/-- The colon of a slice is no label's: the three forms that take a slice assemble to one word (R79, R86),
and a label before one is still refused. -/
theorem test_slice_lines :
    (["lui $t0,buf[31:16]", "ori $t0,$t0,buf[15:0]", "lw $t1,buf[15:0]($t0)"].all
      fun l => decide (textLineOf l = .ok ([], 1, []))) = true ∧
    textLineOf "L: lui $t0,buf[31:16]" = .error .badLine := by decide +kernel

/-- The words of `la $t0,buf` written with slices (R82, R86), at DATA_BASE 0x0FFF. -/
theorem test_slice_words : (match assemble {}
      (".text\nlui $t0,buf[31:16]\nori $t0,$t0,buf[15:0]\n.data\nbuf: .word 1\n").toList with
    | .ok (img, _) => img.text
    | .error _ => []) = [0x00, 0x00, 0x08, 0x3C, 0xFF, 0x0F, 0x08, 0x35] := by decide +kernel
/-! ### Witnesses: for every statement with hypotheses, values that meet them, each clause at its bounds -/

theorem next_of_nextOf {o : Host.Outcome State Fault Refusal} {t : State} (h : nextOf o = some t) :
    o = .next t := by
  cases o <;> simp_all [nextOf]

theorem next_of_isNext {o : Host.Outcome State Fault Refusal} (h : isNext o = true) :
    ∃ t, o = .next t := by
  cases o <;> simp_all [isNext, nextOf]

/-- The reset state with the word `w` at `pc` and some registers set. -/
def placed (w : Nat) (regs : List (Reg × Word)) : State := (withRegs regs).withFetchWord 32 w

theorem fetches_of {s : State} {w : Word}
    (h : s.status = .running ∧ s.pc.toNat % 4 = 0 ∧ s.mem.read s.pc.toNat 4 = some w) :
    Fetches s w := h

theorem witness_illegal_words :
    (∃ e, decode 0xFFFFFFFF = .error e) ∧ (getOpcode 0xFFFFFFFF).toNat = 0x3F ∧
    Fetches (placed 0xFFFFFFFF []) 0xFFFFFFFF ∧ IllegalKey 0xFFFFFFFF ∧
    Fetches (placed 0x0000003F []) 0x0000003F ∧ IllegalKey 0x0000003F ∧
    Fetches (placed 0x04020000 []) 0x04020000 ∧ IllegalKey 0x04020000 := by
  refine ⟨⟨_, rfl⟩, by decide, fetches_of (by decide), .inl (by decide), fetches_of (by decide),
    .inr (.inl (by decide)), fetches_of (by decide), .inr (.inr (by decide))⟩

theorem witness_unused_fields : decode 0x01095020 = .ok (.add 10 8 9) ∧
    0x01095160 &&& ~~~ignoredBits (.add 10 8 9) = 0x01095020 &&& ~~~ignoredBits (.add 10 8 9) ∧
    decode 0x00085100 = .ok (.sll 10 8 4) ∧
    0x03E85100 &&& ~~~ignoredBits (.sll 10 8 4) = 0x00085100 &&& ~~~ignoredBits (.sll 10 8 4) := by
  decide

theorem witness_field_values :
    WellFormed.fieldFits 6 0 = true ∧ WellFormed.fieldFits 6 63 = true ∧
    WellFormed.fieldFits 5 0 = true ∧ WellFormed.fieldFits 5 31 = true ∧
    WellFormed.fieldFits 26 0 = true ∧ WellFormed.fieldFits 26 0x3FFFFFF = true ∧
    WellFormed.immFits (-32768) = true ∧ WellFormed.immFits 32767 = true := by decide

theorem witness_step_runs : Fetches (placed 0x01095020 []) 0x01095020 ∧
    decode 0x01095020 = .ok (.add 10 8 9) ∧ (placed 0x01095020 []).stepping = false :=
  ⟨fetches_of (by decide), by decide⟩

theorem witness_fetch_faults :
    (State.reset.setPc 0x51).status = .running ∧ (State.reset.setPc 0x51).pc.toNat % 4 ≠ 0 ∧
    (State.reset.setPc 0x2000).pc.toNat % 4 = 0 ∧
    (State.reset.setPc 0x2000).mem.size < (State.reset.setPc 0x2000).pc.toNat + 4 ∧
    (State.reset.setPc 0x1FFC).pc.toNat % 4 = 0 ∧
    (State.reset.setPc 0x1FFC).pc.toNat + 4 ≤ (State.reset.setPc 0x1FFC).mem.size := by decide

/-- A suspended run. -/
def suspended : State := { (withRegs [(8, 5)]) with status := .suspended }

theorem witness_suspended : suspended.status = .suspended ∧ suspended.status ≠ .running ∧
    ∃ t, step suspended = .next t := ⟨rfl, by decide, _, rfl⟩

theorem witness_single_step :
    ∃ t, step { (placed 0x01095020 []) with stepping := true } = .next t ∧
      (placed 0x01095020 []).status = .running := by
  obtain ⟨t, h⟩ := next_of_isNext (o := step { (placed 0x01095020 []) with stepping := true })
    (by decide)
  exact ⟨t, h, rfl⟩

theorem witness_ended :
    ({ State.reset with status := .exited 3 } : State).status = .exited 3 ∧
    ({ State.reset with status := .faulted (.divideByZero 0x40) 0x40 } : State).refused = false ∧
    (State.reset.refuse).refused = true ∧
    State.reset.refuse.status = .faulted (.unimplementedSyscall 0x3C) 0x3C := ⟨rfl, rfl, rfl, rfl⟩

/-- The largest and the smallest result that fit, and the first that does not on each side. -/
theorem witness_checked_sums :
    ((withRegs [(8, 0x7FFFFFFE), (9, 1)]).reg 8).toInt + ((withRegs [(9, 1)]).reg 9).toInt =
      2 ^ 31 - 1 ∧
    ((withRegs [(8, 0x7FFFFFFF), (9, 1)]).reg 8).toInt + ((withRegs [(9, 1)]).reg 9).toInt =
      2 ^ 31 ∧
    ((withRegs [(8, 0x80000001)]).reg 8).toInt - ((withRegs [(9, 1)]).reg 9).toInt = -2 ^ 31 ∧
    ((withRegs [(8, 0x80000000)]).reg 8).toInt - ((withRegs [(9, 1)]).reg 9).toInt = -2 ^ 31 - 1 ∧
    ((withRegs [(8, 0x80000001)]).reg 8).toInt + ((0xFFFF : BitVec 16).signExtend 32).toInt =
      -2 ^ 31 ∧
    ((withRegs [(8, 0x80000000)]).reg 8).toInt + ((0xFFFF : BitVec 16).signExtend 32).toInt =
      -2 ^ 31 - 1 := by decide

theorem witness_signed_division :
    ((withRegs [(8, 5)]).reg 9).toInt = 0 ∧
    ((withRegs [(8, 0x80000000), (9, 0xFFFFFFFF)]).reg 8).toInt = -2 ^ 31 ∧
    ((withRegs [(8, 0x80000000), (9, 0xFFFFFFFF)]).reg 9).toInt = -1 ∧
    ((withRegs [(8, 0x80000001), (9, 0xFFFFFFFF)]).reg 9).toInt ≠ 0 ∧
    ¬(((withRegs [(8, 0x80000001), (9, 0xFFFFFFFF)]).reg 8).toInt = -2 ^ 31 ∧
      ((withRegs [(8, 0x80000001), (9, 0xFFFFFFFF)]).reg 9).toInt = -1) ∧
    0 ≤ ((withRegs [(9, 7)]).reg 8).toInt ∧ ((withRegs [(9, 7)]).reg 8).toInt ≤ 0 := by decide

theorem witness_unsigned_division :
    (withRegs [(8, 7)]).reg 9 = 0 ∧ (withRegs [(8, 7), (9, 1)]).reg 9 ≠ 0 ∧
    (withRegs [(8, 7), (9, 0xFFFFFFFF)]).reg 9 ≠ 0 := by decide

theorem witness_register_zero :
    (withRegs [(8, 5)]).reg 0 = 0 := by decide

theorem witness_zero_word : Fetches State.reset 0 ∧ Fetches (State.reset.setPc 0x1FFC) 0 :=
  ⟨fetches_of (by decide), fetches_of (by decide)⟩

/-- A last access that is in range and the first that is not, for each width of loads and stores. -/
theorem witness_loads_and_stores :
    ((withRegs [(8, 0x1FFF)]).effAddr 8 0).toNat + 1 = 8192 ∧
    ((withRegs [(8, 0x1FFF)]).effAddr 8 1).toNat + 1 = 8193 ∧
    ((withRegs [(8, 0x1FFF)]).effAddr 8 0xFFFF).toNat + 2 = 8192 ∧
    ((withRegs [(8, 0x1FFF)]).effAddr 8 0).toNat + 2 = 8193 ∧
    ((withRegs [(8, 0x1FFF)]).effAddr 8 0xFFFD).toNat + 4 = 8192 ∧
    ((withRegs [(8, 0x1FFF)]).effAddr 8 0xFFFE).toNat + 4 = 8193 ∧
    ((withRegs []).effAddr 8 0xFFFF).toNat + 1 = 2 ^ 32 := by decide

theorem witness_memory_accesses :
    1 ∈ [1, 2, 4] ∧ 2 ∈ [1, 2, 4] ∧ 4 ∈ [1, 2, 4] ∧
    State.reset.mem.size = 8191 + 1 ∧ State.reset.mem.size < 8192 + 1 ∧
    State.reset.mem.size = 8190 + 2 ∧ State.reset.mem.size < 8191 + 2 ∧
    State.reset.mem.size = 8188 + 4 ∧ State.reset.mem.size < 8189 + 4 ∧
    (State.reset.mem.write 8188 4 0x12345678).isSome = true ∧
    (State.reset.mem.write 0 4 0x12345678).isSome = true := by decide

theorem witness_stored_word :
    (withRegs [(8, 0x40), (9, 0x01095020)]).status = .running ∧
    (withRegs [(8, 0x40), (9, 0x01095020)]).stepping = false ∧
    (withRegs [(8, 0x40), (9, 0x01095020)]).pc.toNat % 4 = 0 ∧
    (withRegs [(8, 0x40), (9, 0x01095020)]).pc.toNat + 4 ≤
      (withRegs [(8, 0x40), (9, 0x01095020)]).mem.size ∧
    (withRegs [(8, 0x40), (9, 0x01095020)]).effAddr 8 0 =
      (withRegs [(8, 0x40), (9, 0x01095020)]).pc ∧
    decode ((withRegs [(8, 0x40), (9, 0x01095020)]).reg 9) = .ok (.add 10 8 9) := by decide

/-- The codes of the service clauses that ask nothing else of the state, and the codes of no service, at
the ends of each range. -/
theorem witness_service_codes :
    ([1, 5, 9, 10, 11, 12, 16, 17, 18, 30, 31, 32, 33, 34, 35, 36].all
      fun c => (withRegs [(2, c)]).reg 2 = c) = true ∧
    ([0, 2, 3, 6, 7] : List Word).all
      (fun c => ((withRegs [(2, c)]).reg 2).toNat ∈ [0, 2, 3, 6, 7]) = true ∧
    ([20, 29] : List Word).all (fun c => 20 ≤ ((withRegs [(2, c)]).reg 2).toNat ∧
      ((withRegs [(2, c)]).reg 2).toNat ≤ 29) = true ∧
    ([37, 0xFFFFFFFF] : List Word).all
      (fun c => 37 ≤ ((withRegs [(2, c)]).reg 2).toNat) = true := by decide

/-- `x[2]` is a code, and two registers are a buffer. -/
def buffer (code : Word) (ra : Reg) (a : Word) (rn : Reg) (n : Word) : State :=
  withRegs [(2, code), (ra, a), (rn, n)]

/-- The largest buffers that are in memory, an empty one at its end, and the first that is not. -/
theorem witness_buffers :
    ([(8, 4, 5), (14, 5, 6), (15, 5, 6)] : List (Word × Reg × Reg)).all (fun (c, ra, rn) =>
      (buffer c ra 0 rn 8192).reg 2 = c ∧
      ((buffer c ra 0 rn 8192).reg ra).toNat + ((buffer c ra 0 rn 8192).reg rn).toNat ≤ 8192 ∧
      ((buffer c ra 8192 rn 0).reg ra).toNat + ((buffer c ra 8192 rn 0).reg rn).toNat ≤ 8192 ∧
      8192 < ((buffer c ra 8192 rn 1).reg ra).toNat + ((buffer c ra 8192 rn 1).reg rn).toNat ∧
      8192 < ((buffer c ra 0xFFFFFFFF rn 1).reg ra).toNat +
        ((buffer c ra 0xFFFFFFFF rn 1).reg rn).toNat) = true := by decide

/-- An empty string at the last byte of memory, and a string of one byte before it, for services 4
and 13. -/
theorem witness_strings :
    ([4, 13] : List Word).all (fun c =>
      (withRegs [(2, c), (4, 8191)]).reg 2 = c ∧
      ((withRegs [(2, c), (4, 8191)]).reg 4).toNat + 0 < 8192 ∧
      (withRegs [(2, c), (4, 8191)]).mem.byte 8191 = 0 ∧
      (withBytes (withRegs [(2, c), (4, 8190)]) [(8190, 0x68)]).mem.byte 8190 ≠ 0 ∧
      (withBytes (withRegs [(2, c), (4, 8190)]) [(8190, 0x68)]).mem.byte 8191 = 0) = true := by decide

/-- A string with no 0x00 before the end of memory, and one that starts there. -/
theorem witness_no_terminator :
    (∀ c : Word, c = 4 ∨ c = 13 →
      let s := withBytes (withRegs [(2, c), (4, 8191)]) [(8191, 0x68)]
      s.reg 2 = c ∧ ∀ a, (s.reg 4).toNat ≤ a → a < s.mem.size → s.mem.byte a ≠ 0) ∧
    (∀ a, ((withRegs [(2, 4), (4, 8192)]).reg 4).toNat ≤ a →
      ¬a < (withRegs [(2, 4), (4, 8192)]).mem.size) := by
  refine ⟨fun c hc => ⟨by rcases hc with rfl | rfl <;> decide, fun a h1 h2 => ?_⟩, fun a h1 h2 => ?_⟩
  · have h1 : 8191 ≤ a := by rcases hc with rfl | rfl <;> exact h1
    have h2 : a < 8192 := h2
    obtain rfl : a = 8191 := by omega
    rcases hc with rfl | rfl <;> decide
  · have h1 : 8192 ≤ a := h1
    have h2 : a < 8192 := h2
    omega

/-- A snapshot taken of the reset state, not yet compared. -/
def snapped : State :=
  { (withRegs [(2, 19), (8, 1)]) with snap := some State.reset.takeSnapshot, snapCompared := false }

theorem witness_snapshots :
    snapped.reg 2 = 19 ∧ snapped.snap = some State.reset.takeSnapshot ∧
    (withRegs [(2, 19)]).reg 2 = 19 ∧ (withRegs [(2, 19)]).snap = none ∧
    (snapped.setReg 2 18).reg 2 = 18 ∧ (snapped.setReg 2 18).snap.isSome = true ∧
    (snapped.setReg 2 18).snapCompared = false := by decide

/-- The clauses of construction at the ends of the text, of the data and of what lies around them. -/
theorem witness_construction :
    WellFormed.image params image = true ∧ (31 : Reg) ≠ 0 ∧ 0 < image.text.length ∧
    3 < image.text.length ∧ image.data = some ([1, 2, 3], 0x0FFF) ∧ 2 < [1, 2, 3].length ∧
    ([0, 0x3F, 0x44, 0x0FFE, 0x1002, 8191] : List Nat).all (fun a => a < params.memSize ∧
      ((a : Int) < image.progBase ∨ image.progBase + image.text.length ≤ a) ∧
      ((a : Int) < 0x0FFF ∨ 0x0FFF + 3 ≤ (a : Int))) = true := by decide

theorem witness_containers :
    0 < image.text.length ∧ image.text.length < 2 ^ 31 ∧ -2 ^ 31 ≤ image.progBase ∧
    image.progBase < 2 ^ 31 ∧
    (∀ bytes base, image.data = some (bytes, base) →
      bytes.length < 2 ^ 31 ∧ -2 ^ 31 ≤ base ∧ base < 2 ^ 31) ∧
    (∀ bytes base, ({ image with data := none } : Config.Image).data = some (bytes, base) →
      bytes.length < 2 ^ 31 ∧ -2 ^ 31 ≤ base ∧ base < 2 ^ 31) := by
  refine ⟨by decide, by decide, by decide, by decide, fun bytes base h => ?_, fun _ _ h => nomatch h⟩
  cases h
  decide

/-- The state of the load examples, with a snapshot of reset in it. -/
def bytesAndSnapshot : State := { bytesA with snap := some State.reset.takeSnapshot }

/-- A state no run starts in that meets the invariant, and takes a step. -/
theorem witness_invariant : bytesAndSnapshot.Inv ∧
    ∃ t, step bytesAndSnapshot = .next t := by
  refine ⟨⟨by decide, by decide, fun k h => ?_, fun h => (nomatch h), fun h => (nomatch h),
    fun k p h => (nomatch h), ⟨fun h => (nomatch h), fun ⟨p, h⟩ => (nomatch h)⟩⟩, next_of_isNext (by decide)⟩
  cases h
  decide

theorem witness_constructed : ∃ s, construct params image = .ok s := ⟨_, rfl⟩

theorem witness_faulting_body :
    (withRegs [(8, 0x7FFFFFFF), (9, 1)]).status = .running ∧
    (nextOf (exec (.add 10 8 9) (withRegs [(8, 0x7FFFFFFF), (9, 1)]))).map State.status =
      some (.faulted (.integerOverflow 0x3C) 0x3C) := by decide

/-- One step for each fault kind and each access kind. -/
theorem witness_fault_kinds :
    [(ran State.reset 0xFFFFFFFF).map State.status,
     (ran (withRegs [(8, 0x7FFFFFFF), (9, 1)]) 0x01095020).map State.status,
     (ran (withRegs [(9, 0x80000000)]) 0x01095022).map State.status,
     (ran (withRegs [(8, 0x80000000)]) 0x2109FFFF).map State.status,
     (nextOf (step (State.reset.setPc 0x2000))).map State.status,
     (ran (withRegs [(8, 0x1FFF)]) 0x85090000).map State.status,
     (ran (withRegs [(8, 0x1FFD)]) 0xAD090000).map State.status,
     (ran (withRegs [(2, 4), (4, 0x2001)]) 0x0000000C).map State.status,
     (nextOf (step (State.reset.setPc 0x51))).map State.status,
     (ran State.reset 0x0109001B).map State.status,
     (ran (withRegs [(2, 9)]) 0x0000000C).map State.status] =
    [some (.faulted (.illegalInstruction 0x40 0xFFFFFFFF) 0x40),
     some (.faulted (.integerOverflow 0x40) 0x40),
     some (.faulted (.integerOverflow 0x40) 0x40),
     some (.faulted (.integerOverflow 0x40) 0x40),
     some (.faulted (.memoryFault 0x2000 4 .fetch) 0x2000),
     some (.faulted (.memoryFault 0x1FFF 2 .load) 0x40),
     some (.faulted (.memoryFault 0x1FFD 4 .store) 0x40),
     some (.faulted (.memoryFault 0x2001 1 .syscall) 0x40),
     some (.faulted (.fetchMisaligned 0x51) 0x51),
     some (.faulted (.divideByZero 0x40) 0x40),
     some (.faulted (.unimplementedSyscall 0x40) 0x40)] := by decide

/-- A step that answers a next state from an aligned `pc`: what the rules over every step, and the one on
past requests, ask for. -/
theorem witness_step : (placed 0xA1090000 [(8, 0x1FFF), (9, 1)]).pc.toNat % 4 = 0 ∧
    ∃ t, step (placed 0xA1090000 [(8, 0x1FFF), (9, 1)]) = .next t :=
  ⟨by decide, next_of_isNext (by decide)⟩

/-- The exceptional side of each rule over every step happens: sb changes a byte, mult changes HI and LO,
service 18 takes a snapshot, jr leaves `pc` misaligned. -/
theorem witness_exceptional_steps :
    (ran (withRegs [(8, 0x1FFF), (9, 1)]) 0xA1090000).map (fun t => t.mem.byte 0x1FFF) = some 1 ∧
    (ran (withRegs [(8, 2), (9, 3)]) 0x01090018).map State.lo = some 6 ∧
    (ran (withRegs [(2, 18)]) 0x0000000C).map (fun t => t.snap.isSome) = some true ∧
    (ran (withRegs [(8, 0x51)]) 0x01000008).map (fun t => t.pc.toNat % 4) = some 1 := by decide

theorem witness_no_host : Instr.add 10 8 9 ≠ .syscall ∧ Instr.add 10 8 9 ≠ .brk ∧
    ∃ t, exec (.add 10 8 9) State.reset = .next t := ⟨by decide, by decide, _, rfl⟩

/-- The ends of the range of `li`, of the displacements of a branch and of the region of a jump, and the
largest data address. -/
theorem witness_assembler :
    (-2 ^ 31 : Int) < 2 ^ 32 ∧ (-2 ^ 31 : Int) ≤ 2 ^ 32 - 1 ∧
    isOk (relocateBranch (encodeI 0x04 8 9 0) 0 (32767 * 4 + 4)) = true ∧
    isOk (relocateBranch (encodeI 0x04 8 9 0) 0 (32768 * 4 + 4)) = false ∧
    isOk (relocateBranch (encodeI 0x04 8 9 0) (32767 * 4) 0) = true ∧
    isOk (relocateBranch (encodeI 0x04 8 9 0) (32768 * 4) 0) = false ∧
    isOk (relocateJump {} (encodeJ 0x02 0) 0 (2 ^ 28 - 4 - 0x40)) = true ∧
    isOk (relocateJump {} (encodeJ 0x02 0) 0 (2 ^ 28 - 0x40)) = false ∧
    ({} : Config.AsmParams).progBase % 4 = 0 ∧
    ({} : Config.AsmParams).progBase + 0 + 4 < 2 ^ 32 ∧
    (({} : Config.AsmParams).progBase + 0 + 4) / 2 ^ 28 =
      (({} : Config.AsmParams).progBase + (2 ^ 28 - 4 - 0x40)) / 2 ^ 28 ∧
    ({} : Config.AsmParams).dataBase + (2 ^ 32 - 1 - 0x0FFF) < 2 ^ 32 := by decide

/-- The last jump of a region and the first label of it: both stand in one region, the word after the jump
does not, and neither j nor jal is resolved; to the region after it, both are (R210). -/
theorem witness_jump_at_a_region_end :
    0x40 + (2 ^ 28 - 4 - 0x40) + 4 < 2 ^ 32 ∧ (0x40 + (2 ^ 28 - 4 - 0x40) + 4) / 2 ^ 28 = 1 ∧
    (0x40 + 0) / 2 ^ 28 = 0 ∧ (0x40 + (2 ^ 28 - 0x40)) / 2 ^ 28 = 1 ∧
    ([0x02, 0x03] : List Int).all (fun op =>
      !isOk (relocateJump {} (encodeJ op 0) (2 ^ 28 - 4 - 0x40) 0) &&
      isOk (relocateJump {} (encodeJ op 0) (2 ^ 28 - 4 - 0x40) (2 ^ 28 - 0x40)) &&
      isOk (relocateJump {} (encodeJ op 0) 0 (2 ^ 28 - 4 - 0x40))) = true := by decide

/-- A state a resolved branch is taken in. -/
theorem witness_branch_taken :
    (State.reset.setPc 0x44).pc = BitVec.ofNat 32 (0x40 + 0 + 4) ∧
    (State.reset.setPc 0x44).reg 8 = (State.reset.setPc 0x44).reg 9 := by decide

end Sys2Proof.Tests
end

/-! ## Proofs: registers (spec/10_state.md) -/

namespace Sys2Proof.Machine

/-- A register written with the value it holds leaves the state as it is. -/
@[simp] theorem State.setReg_reg_self (s : State) (r : Reg) : s.setReg r (s.reg r) = s := by
  have hregs : s.regs.set r (s.reg r) = s.regs := Vector.set_getElem_self r.isLt
  rw [State.setReg, hregs]

/-- The signed value of a word always fits a register: no checked write of it overflows. -/
theorem State.setRegChecked_toInt (s : State) (r : Reg) (v : Word) :
    s.setRegChecked r v.toInt = s.setReg r v := by
  have hlow := v.le_toInt
  have hhigh := v.toInt_lt
  rw [State.setRegChecked_of_fits s r (by omega), wrap32_signed]

/-- `sll $zero,$zero,0` is the identity on states: it writes back what register 0 holds (R76). -/
theorem exec_sll_zero (s : State) : exec (.sll 0 0 0) s = .next s := by
  simp only [exec_sll, BitVec.ofNat_eq_ofNat, BitVec.toNat_zero, BitVec.shiftLeft_zero,
    State.setReg_reg_self]

/-- `or rd,rs,rs` copies `rs` to `rd`, whatever the two registers are. -/
theorem exec_or_self (rd rs : Reg) (s : State) :
    exec (.or rd rs rs) s = .next (s.setReg rd (s.reg rs)) := by
  rw [exec_or, BitVec.or_self]

/-- `add rd,rs,$zero`, the expansion of `move`, copies `rs` and cannot overflow while register 0
holds 0. -/
theorem exec_add_zero {s : State} (h0 : s.reg 0 = 0) (rd rs : Reg) :
    exec (.add rd rs 0) s = .next (s.setReg rd (s.reg rs)) := by
  have hsum : (s.reg rs).toInt + (s.reg 0).toInt = (s.reg rs).toInt := by simp [h0]
  rw [exec_add, hsum, State.setRegChecked_toInt]

/-- The sum that addu writes, as the rule states it (R121). -/
theorem exec_addu_wrap32 (rd rs rt : Reg) (s : State) : exec (.addu rd rs rt) s =
    .next (s.setReg rd (wrap32 (((s.reg rs).toNat : Int) + (s.reg rt).toNat))) := by
  rw [exec_addu, wrap32_add]

/-- Settles O17: the rules of `setReg` hold for every register number, so each part is the equation of
its instruction and a read of the register it wrote. -/
theorem registerZeroKeepsWhatIsWritten : Obligations.RegisterZeroKeepsWhatIsWritten := by
  unfold Obligations.RegisterZeroKeepsWhatIsWritten
  refine ⟨by decide, fun r v s => .setReg s r v, fun rd rs rt s => ?sum, fun s => ?nop,
    fun rd rs s h0 => ?move⟩
  case sum =>
    refine .of_eq (exec_addu_wrap32 0 rs rt s) ⟨State.reg_setReg_same .., ?_⟩
    refine .of_eq (exec_or_self rd 0 _) ?_
    rw [State.reg_setReg_same, State.reg_setReg_same]
  case nop => exact .of_eq (exec_sll_zero s) (.refl s)
  case move => exact .of_eq (exec_add_zero h0 rd rs) (.setReg s rd _)

end Sys2Proof.Machine

/-! ## Proofs: memory (spec/20_memory.md) -/

namespace Sys2Proof.Machine

/-- A field of `n + 1` bytes is its lowest byte, with the field of the `n` bytes above it shifted over it. -/
theorem setWidth_extractLsb'_bytes_succ (v : Word) (lo n : Nat) :
    (v.extractLsb' lo (8 * (n + 1))).setWidth 32 =
      (v.extractLsb' lo 8).setWidth 32 ||| ((v.extractLsb' (lo + 8) (8 * n)).setWidth 32 <<< 8) := by
  apply BitVec.eq_of_getLsbD_eq
  intro i hi
  simp only [BitVec.getLsbD_or, BitVec.getLsbD_shiftLeft, BitVec.getLsbD_setWidth,
    BitVec.getLsbD_extractLsb', hi, decide_true, Bool.true_and]
  by_cases hlow : i < 8
  · simp [hlow, show i < 8 * (n + 1) by omega]
  · have hpos : lo + 8 + (i - 8) = lo + i := by omega
    have hfield : i < 8 * (n + 1) ↔ i - 8 < 8 * n := by omega
    simp [hlow, hpos, hfield, show i - 8 < 32 by omega]

/-- Where `n` consecutive bytes are those of a word from its byte `k` up, their value is that field of the
word (R45). -/
theorem Memory.littleEndian_of_bytes {m : Memory} {a n : Nat} (v : Word) (k : Nat)
    (h : ∀ j, j < n → m.byte (a + j) = v.extractLsb' (8 * (k + j)) 8) :
    m.littleEndian a n = (v.extractLsb' (8 * k) (8 * n)).setWidth 32 := by
  induction n generalizing a k with
  | zero => simp [Memory.littleEndian]
  | succ n ih =>
    have hfirst : m.byte a = v.extractLsb' (8 * k) 8 := h 0 (by omega)
    have hrest : m.littleEndian (a + 1) n = (v.extractLsb' (8 * k + 8) (8 * n)).setWidth 32 := by
      refine ih (k + 1) fun j hj => ?_
      rw [Nat.add_right_comm a, Nat.add_right_comm k]
      exact h (j + 1) (by omega)
    rw [Memory.littleEndian, hfirst, hrest, setWidth_extractLsb'_bytes_succ]

/-- Byte `k` of a written value is the byte at `a + k` (R44). -/
theorem Memory.byte_setBytes_bytesOf (m : Memory) (a : Nat) (v : Word) {n k : Nat} (h : k < n) :
    (m.setBytes a (Memory.bytesOf v n)).byte (a + k) = v.extractLsb' (8 * k) 8 := by
  rw [Memory.byte_setBytes, Memory.bytesOf_length, if_pos (by omega), Nat.add_sub_cancel_left,
    Memory.bytesOf_getD v h]

/-- What a write of `n` bytes wrote reads back, at every offset and width inside it, as that field of the
value (R45). -/
theorem Memory.read_of_write {m m' : Memory} {a n : Nat} {v : Word} (hw : m.write a n v = some m')
    {k w : Nat} (h : k + w ≤ n) :
    m'.read (a + k) w = some ((v.extractLsb' (8 * k) (8 * w)).setWidth 32) := by
  obtain ⟨hrange, rfl⟩ := Memory.write_eq_some.1 hw
  refine Memory.read_eq_some.2 ⟨by rw [Memory.setBytes_size]; omega, Eq.symm ?_⟩
  refine Memory.littleEndian_of_bytes v k fun j hj => ?_
  rw [Nat.add_assoc]
  exact Memory.byte_setBytes_bytesOf m a v (by omega)

/-- Settles O25: each answer of `read` and `write` is its equation, the bytes of a write are the rules of
`setBytes`, and the three widths that read a stored word back are fields of one written value. -/
theorem memoryAccessesAreLittleEndian : Obligations.MemoryAccessesAreLittleEndian := by
  unfold Obligations.MemoryAccessesAreLittleEndian
  refine ⟨fun m a n v hn => ⟨fun hout => ?outside, fun hin => ⟨?read, ?write⟩⟩,
    fun m m' a v hw => ⟨?word, fun k hk => ?half, fun k hk => ?byte⟩⟩
  case outside => exact ⟨Memory.read_eq_none.2 hout, Memory.write_eq_none.2 hout⟩
  case read =>
    have hwidths : ∀ w ∈ [1, 2, 4], w ≤ 4 := by decide
    exact Memory.read_eq_some.2 ⟨hin, (m.littleEndian_eq_number a (hwidths n hn)).symm⟩
  case write =>
    refine ⟨_, Memory.write_eq_some.2 ⟨hin, rfl⟩, Memory.setBytes_size .., fun k hk => ?_,
      fun b hb => ?_⟩
    · exact m.byte_setBytes_bytesOf a v hk
    · exact m.byte_setBytes_outside a _ (by rwa [Memory.bytesOf_length])
  case word => simpa using Memory.read_of_write hw (k := 0) (w := 4) (by omega)
  case half => exact Memory.read_of_write hw (by omega)
  case byte => exact Memory.read_of_write hw (by omega)

end Sys2Proof.Machine

/-! ## Proofs: encoding (spec/30_encoding.md) -/

/-! ### Illegal words -/

namespace Sys2Proof.Machine

/-- The table of opcode 0 rejects exactly the functs without a row (R72). -/
theorem decodeSpecial_error_iff (w : Word) : (∃ e, decodeSpecial w = .error e) ↔
    (getFunct w).toNat ∉ [0x00, 0x02, 0x03, 0x04, 0x06, 0x07, 0x08, 0x0C, 0x0D, 0x10, 0x12, 0x18, 0x19,
      0x1A, 0x1B, 0x20, 0x21, 0x22, 0x23, 0x24, 0x25, 0x26, 0x27, 0x2A, 0x2B] := by
  unfold decodeSpecial
  split
  case h_26 => simp_all
  all_goals simp [*]

/-- The table of opcode 1 rejects exactly the rt fields without a row (R73). -/
theorem decodeRegimm_error_iff (w : Word) : (∃ e, decodeRegimm w = .error e) ↔
    (getRt w).val ∉ [0x00, 0x01, 0x10, 0x11] := by
  unfold decodeRegimm
  split
  case h_5 => simp_all
  all_goals simp [*]

/-- The decoder rejects exactly the words whose key has no row: opcodes 0 and 1 hand the question to their
own tables, every other row answers an instruction, and the last case is an opcode without a row (R74). -/
theorem decode_error_iff (w : Word) : (∃ e, decode w = .error e) ↔ IllegalKey w := by
  unfold decode IllegalKey
  split
  case h_1 hop => simp [hop, decodeSpecial_error_iff]
  case h_2 hop => simp [hop, decodeRegimm_error_iff]
  case h_25 => simp_all
  all_goals simp [*]

/-- The end of a step keeps a fault and its frame: a run that has ended is not suspended again. -/
theorem EndsFaulted.afterStep {k : FaultKind} {p : Word} {s t : State} (h : EndsFaulted k p s t) :
    EndsFaulted k p s t.afterStep := by
  obtain ⟨hstatus, hregs, hframe⟩ := h
  have hstatus' : t.afterStep.status = .faulted k p := by
    rw [State.afterStep_status, if_neg (by simp [hstatus]), hstatus]
  have hregs' : KeepsRegs [] s t.afterStep := fun r hr => (t.reg_afterStep r).trans (hregs r hr)
  refine ⟨hstatus', hregs', ?_⟩
  simpa [KeepsHiLo, KeepsMemory, KeepsSnapshot, KeepsHost] using hframe

/-- Settles O3: the decoder's rejections are `decode_error_iff`, and the step of a rejected word is the
raise of its fault in the advanced state, whose frame is `EndsFaulted.raise`. -/
theorem illegalWordsFaultAfterTheAdvance : Obligations.IllegalWordsFaultAfterTheAdvance := by
  unfold Obligations.IllegalWordsFaultAfterTheAdvance
  refine ⟨decode_error_iff, fun s w hfetch hkey => ?_⟩
  obtain ⟨e, hdecode⟩ := (decode_error_iff w).2 hkey
  have hends := (EndsFaulted.raise s.advance (.illegalInstruction s.pc w)).afterStep
  obtain ⟨hstatus, hregs, hpc, hframe⟩ := hends
  rw [State.advance_pc, BitVec.add_sub_cancel] at hstatus
  exact ⟨_, step_of_illegal hfetch hdecode, hpc, hstatus, hregs, hframe⟩

end Sys2Proof.Machine

/-! ### Ignored bits -/

namespace Sys2Proof

/-- A field that a mask leaves alone is read the same when the masked bits are cleared. -/
theorem extractLsb'_and_not (w : Word) {m : Word} {lo width : Nat}
    (hm : m.extractLsb' lo width = 0) :
    (w &&& ~~~m).extractLsb' lo width = w.extractLsb' lo width := by
  ext i hi
  have hbit := congrArg (BitVec.getLsbD · i) hm
  grind

section Agreement
variable {w w' m : Word} (h : w' &&& ~~~m = w &&& ~~~m)
include h

/-- Words that agree outside a mask agree in every field the mask leaves alone. -/
theorem extractLsb'_eq_of_agree {lo width : Nat} (hm : m.extractLsb' lo width = 0) :
    w'.extractLsb' lo width = w.extractLsb' lo width := by
  rw [← extractLsb'_and_not w' hm, h, extractLsb'_and_not w hm]

theorem getOpcode_eq_of_agree (hm : getOpcode m = 0) : getOpcode w' = getOpcode w :=
  extractLsb'_eq_of_agree h hm

theorem getRs_eq_of_agree (hm : getRs m = 0) : getRs w' = getRs w :=
  congrArg BitVec.toFin (extractLsb'_eq_of_agree h (congrArg BitVec.ofFin hm))

theorem getRt_eq_of_agree (hm : getRt m = 0) : getRt w' = getRt w :=
  congrArg BitVec.toFin (extractLsb'_eq_of_agree h (congrArg BitVec.ofFin hm))

theorem getRd_eq_of_agree (hm : getRd m = 0) : getRd w' = getRd w :=
  congrArg BitVec.toFin (extractLsb'_eq_of_agree h (congrArg BitVec.ofFin hm))

theorem getShamt_eq_of_agree (hm : getShamt m = 0) : getShamt w' = getShamt w :=
  extractLsb'_eq_of_agree h hm

theorem getFunct_eq_of_agree (hm : getFunct m = 0) : getFunct w' = getFunct w :=
  extractLsb'_eq_of_agree h hm

theorem getImmField_eq_of_agree (hm : getImmField m = 0) : getImmField w' = getImmField w :=
  extractLsb'_eq_of_agree h hm

theorem getTarget_eq_of_agree (hm : getTarget m = 0) : getTarget w' = getTarget w :=
  extractLsb'_eq_of_agree h hm

end Agreement

end Sys2Proof

namespace Sys2Proof.Machine

/-- No instruction ignores a bit of its opcode. -/
theorem getOpcode_ignoredBits (i : Instr) : getOpcode (ignoredBits i) = 0 := by
  cases i <;> simp only [ignoredBits] <;> decide

/-- No instruction ignores a bit of `w[5:0]`, the funct field of the R format. -/
theorem getFunct_ignoredBits (i : Instr) : getFunct (ignoredBits i) = 0 := by
  cases i <;> simp only [ignoredBits] <;> decide

section Agreement
variable {w w' : Word} {i : Instr} (h : w' &&& ~~~ignoredBits i = w &&& ~~~ignoredBits i)
include h

/-- Both words select the same row of R72, and each row ignores no field it reads. -/
theorem decodeSpecial_of_agree (hd : decodeSpecial w = .ok i) : decodeSpecial w' = .ok i := by
  have hkey := getFunct_eq_of_agree h (getFunct_ignoredBits i)
  unfold decodeSpecial at hd ⊢
  rw [hkey]
  split at hd <;> cases hd <;> simp only [ignoredBits] at h <;>
    simp (disch := decide) only [getRs_eq_of_agree h, getRt_eq_of_agree h, getRd_eq_of_agree h,
      getShamt_eq_of_agree h]

/-- The rows of R73 ignore no bit at all. -/
theorem decodeRegimm_of_agree (hd : decodeRegimm w = .ok i) : decodeRegimm w' = .ok i := by
  have hmask : ignoredBits i = 0#32 := by
    unfold decodeRegimm at hd
    split at hd <;> cases hd <;> rfl
  have hsame : w' = w := by simpa only [hmask, BitVec.not_zero, BitVec.and_allOnes] using h
  rw [hsame, hd]

/-- Both words select the same row of R71, and each row ignores no field it reads. -/
theorem decode_of_agree (hd : decode w = .ok i) : decode w' = .ok i := by
  have hkey := getOpcode_eq_of_agree h (getOpcode_ignoredBits i)
  unfold decode at hd ⊢
  rw [hkey]
  split at hd
  case h_1 => exact decodeSpecial_of_agree h hd
  case h_2 => exact decodeRegimm_of_agree h hd
  case h_25 => cases hd
  all_goals
    cases hd
    simp only [ignoredBits] at h
    simp (disch := decide) only [getRs_eq_of_agree h, getRt_eq_of_agree h,
      getImmField_eq_of_agree h, getTarget_eq_of_agree h]

end Agreement

/-- Settles O4: words that agree outside the ignored bits select one row and agree in every field that row
reads. -/
theorem unusedFieldsAreIgnored : Obligations.UnusedFieldsAreIgnored := by
  unfold Obligations.UnusedFieldsAreIgnored
  exact fun w w' i hd h => decode_of_agree h hd

end Sys2Proof.Machine

/-! ## Proofs: dispatch (spec/40_dispatch.md) -/

namespace Sys2Proof.Machine

/-- A fetch fault ends the run in the state that was to fetch: no advance comes before it (R100). -/
theorem step_of_fetch_error {s : State} {k : FaultKind} (hrun : s.status = .running)
    (hfetch : s.fetch = .error k) : step s = .next (s.endFaulted k s.pc).afterStep := by
  rw [step_of_running hrun, runInstruction, hfetch]
  rfl

/-- The step of a fetch fault records it at `pc` and changes nothing else. -/
theorem step_endsFaulted_of_fetch_error {s : State} {k : FaultKind} (hrun : s.status = .running)
    (hfetch : s.fetch = .error k) : ∃ t, step s = .next t ∧ EndsFaulted k s.pc s t :=
  ⟨_, step_of_fetch_error hrun hfetch, (EndsFaulted.endFaulted s k s.pc).afterStep⟩

/-- Of the states that are not running, only a suspended one steps, and its step is the debugger's turn. -/
theorem step_of_not_running {s t : State} (hrun : s.status ≠ .running) (hstep : step s = .next t) :
    s.status = .suspended ∧ t = s.debuggerTurn := by
  rcases step_cases hstep with hturn | ⟨hs, -⟩ | ⟨hs, -⟩ | ⟨-, -, ⟨hs, -⟩, -⟩ |
    ⟨-, -, -, ⟨hs, -⟩, -⟩
  · exact hturn
  all_goals exact absurd hs hrun

/-- The debugger's turn changes nothing of the block, whatever the debugger answers (R165). -/
theorem KeepsBlock.debuggerTurn (s : State) : KeepsBlock s s.debuggerTurn := by
  rcases s.debuggerTurn_cases with ⟨-, hturn⟩ | ⟨-, hturn⟩ | ⟨-, hturn⟩ <;> rw [hturn] <;>
    exact .refl s

/-- Settles O7: the two fetch faults are `step_endsFaulted_of_fetch_error` at the two equations of `fetch`,
a word in range is the number of its bytes, and the only step outside `Running` is the debugger's turn. -/
theorem fetchFaultsComeBeforeTheAdvance : Obligations.FetchFaultsComeBeforeTheAdvance := by
  unfold Obligations.FetchFaultsComeBeforeTheAdvance
  refine ⟨fun s hrun hpc => ?misaligned, fun s hrun hpc hout => ?outside,
    fun s hrun hpc hin => ?fetched, fun s t hrun hstep => ?notRunning⟩
  case misaligned => exact step_endsFaulted_of_fetch_error hrun (State.fetch_of_misaligned hpc)
  case outside => exact step_endsFaulted_of_fetch_error hrun (State.fetch_of_outside hpc hout)
  case fetched =>
    have hword := s.mem.littleEndian_eq_number s.pc.toNat (n := 4) le_rfl
    exact ⟨hrun, hpc, Memory.read_eq_some.2 ⟨hin, hword.symm⟩⟩
  case notRunning =>
    obtain ⟨-, rfl⟩ := step_of_not_running hrun hstep
    exact .debuggerTurn s

end Sys2Proof.Machine

/-! ## Proofs: R-format arithmetic, logic and compare (spec/41_r_alu.md) -/

/-! ### Selection -/

namespace Sys2Proof.Machine

/-- A row of the opcode 0 table is selected by its funct: opcode 0 hands the word to that table
(R71, R72). -/
theorem SelectedByFunct.of_row {funct : Nat} {mk : Reg → Reg → Reg → BitVec 5 → Instr}
    (hrow : ∀ w : Word, (getFunct w).toNat = funct →
      decodeSpecial w = .ok (mk (getRs w) (getRt w) (getRd w) (getShamt w))) :
    SelectedByFunct funct mk := by
  intro w hop hfunct
  rw [decode, hop]
  exact hrow w hfunct

end Sys2Proof.Machine

/-! ### The wrapping instructions -/

namespace Sys2Proof.Machine

/-- The difference that subu writes, as the rule states it (R123). -/
theorem exec_subu_wrap32 (rd rs rt : Reg) (s : State) : exec (.subu rd rs rt) s =
    .next (s.setReg rd (wrap32 (((s.reg rs).toNat : Int) - (s.reg rt).toNat))) := by
  rw [exec_subu, wrap32_sub]

/-- The word that slt writes, as the rule states it (R128). -/
theorem exec_slt_ite (rd rs rt : Reg) (s : State) : exec (.slt rd rs rt) s =
    .next (s.setReg rd (if (s.reg rs).toInt < (s.reg rt).toInt then 1 else 0)) := by
  rw [exec_slt, signedLess, boolWord_decide]

/-- The word that sltu writes, as the rule states it (R129). -/
theorem exec_sltu_ite (rd rs rt : Reg) (s : State) : exec (.sltu rd rs rt) s =
    .next (s.setReg rd (if (s.reg rs).toNat < (s.reg rt).toNat then 1 else 0)) := by
  rw [exec_sltu, unsignedLess, boolWord_decide]

/-- An instruction that answers one register write completes with that write and nothing else. -/
theorem Completes.of_setReg {i : Instr} {r : Reg} {v : Word} {s : State}
    (h : exec i s = .next (s.setReg r v)) : Completes i s (WritesReg r v s) :=
  .of_eq h (.setReg s r v)

/-- Settles O10: the eight functs are rows of R72's table, and each body is one write of a register with
the rule's value. -/
theorem wrappingAluWritesOnlyItsResult : Obligations.WrappingAluWritesOnlyItsResult := by
  unfold Obligations.WrappingAluWritesOnlyItsResult
  refine ⟨?selection, fun rd rs rt s => ?effect⟩
  case selection =>
    refine ⟨.of_row ?_, .of_row ?_, .of_row ?_, .of_row ?_, .of_row ?_, .of_row ?_, .of_row ?_,
      .of_row ?_⟩ <;>
    · intro w hfunct
      simp only [decodeSpecial, hfunct]
  case effect =>
    exact ⟨.of_setReg (exec_addu_wrap32 rd rs rt s), .of_setReg (exec_subu_wrap32 rd rs rt s),
      .of_setReg (exec_and rd rs rt s), .of_setReg (exec_or rd rs rt s),
      .of_setReg (exec_xor rd rs rt s), .of_setReg (exec_nor rd rs rt s),
      .of_setReg (exec_slt_ite rd rs rt s), .of_setReg (exec_sltu_ite rd rs rt s)⟩

end Sys2Proof.Machine

/-! ### The checked instructions -/

namespace Sys2Proof.Machine

section Checked
variable {s : State} {i : Instr} {r : Reg} {n : Int} (h : CheckedResult s i r n)
include h

/-- add, sub and addi answer the checked write of their exact result (R120, R122, R180). -/
theorem CheckedResult.exec_eq : exec i s = .next (s.setRegChecked r n) := by
  cases h with
  | add => exact exec_add ..
  | sub => exact exec_sub ..
  | addi => exact exec_addi ..

/-- A result that fits is written, and nothing else changes. -/
theorem CheckedResult.completes_of_fits (hn : -2 ^ 31 ≤ n ∧ n ≤ 2 ^ 31 - 1) :
    Completes i s (WritesReg r (wrap32 n) s) := by
  refine .of_setReg ?_
  rw [h.exec_eq, State.setRegChecked_of_fits s r hn]

/-- A result that does not fit ends the run at `pc_i`, and nothing is written. -/
theorem CheckedResult.completes_of_overflow (hn : n < -2 ^ 31 ∨ 2 ^ 31 - 1 < n) :
    Completes i s (EndsFaulted (.integerOverflow (s.pc - 4)) (s.pc - 4) s) := by
  refine .of_eq ?_ (.raise s _)
  rw [h.exec_eq, State.setRegChecked_of_overflow s r hn, State.pcI]

end Checked

/-- Settles O11: the three instructions are those with a `CheckedResult`, whose checked write either writes
the exact result or raises the fault. -/
theorem checkedAluFaultsOnOverflow : Obligations.CheckedAluFaultsOnOverflow := by
  unfold Obligations.CheckedAluFaultsOnOverflow
  refine ⟨⟨.of_row fun w hfunct => ?add, .of_row fun w hfunct => ?sub, fun w hop => ?addi⟩,
    fun i r n s hi => ?effect⟩
  case add => simp only [decodeSpecial, hfunct]
  case sub => simp only [decodeSpecial, hfunct]
  case addi => simp only [decode, hop]
  case effect =>
    have hchecked : CheckedResult s i r n := by
      rcases hi with ⟨_, rs, rt, rfl, rfl, rfl⟩ | ⟨_, rs, rt, rfl, rfl, rfl⟩ |
        ⟨_, rs, imm, rfl, rfl, rfl⟩
      · exact .add ..
      · exact .sub ..
      · exact .addi ..
    exact ⟨hchecked.completes_of_fits, hchecked.completes_of_overflow⟩

end Sys2Proof.Machine

/-! ## Proofs: R-format shifts (spec/42_r_shift.md) -/

/-! ### The value of each constant shift -/

namespace Sys2Proof.Machine

/-- The product that sll writes (R140). -/
theorem exec_sll_wrap32 (rd rt : Reg) (sh : BitVec 5) (s : State) : exec (.sll rd rt sh) s =
    .next (s.setReg rd (wrap32 ((s.reg rt).toNat * 2 ^ sh.toNat : Nat))) := by
  rw [exec_sll, wrap32_mul_pow]

/-- The unsigned quotient that srl writes (R141). -/
theorem exec_srl_wrap32 (rd rt : Reg) (sh : BitVec 5) (s : State) : exec (.srl rd rt sh) s =
    .next (s.setReg rd (wrap32 ((s.reg rt).toNat / 2 ^ sh.toNat : Nat))) := by
  rw [exec_srl, wrap32_div_pow]

/-- The signed quotient, rounded down, that sra writes (R142). -/
theorem exec_sra_wrap32 (rd rt : Reg) (sh : BitVec 5) (s : State) : exec (.sra rd rt sh) s =
    .next (s.setReg rd (wrap32 ((s.reg rt).toInt / 2 ^ sh.toNat))) := by
  rw [exec_sra, wrap32_ediv_pow]

/-! ### A variable shift is the constant shift by its register's amount -/

/-- R143: sllv is sll by the amount in `x[rs]`. -/
theorem exec_sllv_eq_exec_sll (rd rt rs : Reg) (s : State) :
    exec (.sllv rd rt rs) s = exec (.sll rd rt (shiftAmount (s.reg rs))) s := by
  rw [exec_sllv, exec_sll]

/-- R144: srlv is srl by the amount in `x[rs]`. -/
theorem exec_srlv_eq_exec_srl (rd rt rs : Reg) (s : State) :
    exec (.srlv rd rt rs) s = exec (.srl rd rt (shiftAmount (s.reg rs))) s := by
  rw [exec_srlv, exec_srl]

/-- R145: srav is sra by the amount in `x[rs]`. -/
theorem exec_srav_eq_exec_sra (rd rt rs : Reg) (s : State) :
    exec (.srav rd rt rs) s = exec (.sra rd rt (shiftAmount (s.reg rs))) s := by
  rw [exec_srav, exec_sra]

/-- Settles O12: the six functs are rows of R72's table; a constant shift is one write of a register with
the rule's value, and a variable shift is the constant shift by `x[rs]` modulo 32. -/
theorem shiftsScaleByPowersOfTwo : Obligations.ShiftsScaleByPowersOfTwo := by
  unfold Obligations.ShiftsScaleByPowersOfTwo
  refine ⟨?selection, fun rd rt rs sh s => ?effect⟩
  case selection =>
    refine ⟨.of_row ?_, .of_row ?_, .of_row ?_, .of_row ?_, .of_row ?_, .of_row ?_⟩ <;>
    · intro w hfunct
      simp only [decodeSpecial, hfunct]
  case effect =>
    refine ⟨.of_setReg (exec_sll_wrap32 rd rt sh s), .of_setReg (exec_srl_wrap32 rd rt sh s),
      .of_setReg (exec_sra_wrap32 rd rt sh s), .of_setReg ?sllv, .of_setReg ?srlv, .of_setReg ?srav⟩
    case sllv => rw [exec_sllv_eq_exec_sll, exec_sll_wrap32, shiftAmount_toNat]
    case srlv => rw [exec_srlv_eq_exec_srl, exec_srl_wrap32, shiftAmount_toNat]
    case srav => rw [exec_srav_eq_exec_sra, exec_sra_wrap32, shiftAmount_toNat]

end Sys2Proof.Machine

/-! ## Proofs: multiply, divide and HI/LO transfer (spec/43_muldiv.md) -/

/-! ### The two halves of an exact product -/

namespace Sys2Proof.Machine

/-- The quotient by `2^32` that `setProduct` puts in HI (R150, R151), and the remainder that it puts in
LO, make up the product. -/
theorem shiftRight_mul_two_pow_add_wrap32 (p : Int) :
    (p >>> (32 : Nat)) * 2 ^ 32 + (wrap32 p).toNat = p := by
  rw [Int.shiftRight_eq_div_pow, wrap32_toNat]
  exact Int.ediv_mul_add_emod p (2 ^ 32)

/-- HI and LO after `setProduct` of a product that fits 64 signed bits. -/
theorem State.setProduct_signed (s : State) {p : Int} (h : -2 ^ 63 ≤ p ∧ p < 2 ^ 63) :
    (s.setProduct p).hi.toInt * 2 ^ 32 + (s.setProduct p).lo.toNat = p := by
  have hhi : (wrap32 (p >>> (32 : Nat))).toInt = p >>> (32 : Nat) := by
    apply wrap32_toInt
    rw [Int.shiftRight_eq_div_pow]
    omega
  rw [State.setProduct, State.setHiLo_hi, State.setHiLo_lo, hhi, shiftRight_mul_two_pow_add_wrap32]

/-- HI and LO after `setProduct` of a product that fits 64 unsigned bits. -/
theorem State.setProduct_unsigned (s : State) {p : Nat} (h : p < 2 ^ 64) :
    (s.setProduct p).hi.toNat * 2 ^ 32 + (s.setProduct p).lo.toNat = p := by
  have hhi : ((wrap32 ((p : Int) >>> (32 : Nat))).toNat : Int) = (p : Int) >>> (32 : Nat) := by
    rw [wrap32_toNat, Int.shiftRight_eq_div_pow]
    omega
  have hp := shiftRight_mul_two_pow_add_wrap32 p
  rw [← hhi] at hp
  rw [State.setProduct, State.setHiLo_hi, State.setHiLo_lo]
  exact_mod_cast hp

theorem WritesHiLo.setProduct (s : State) (p : Int) :
    WritesHiLo (s.setProduct p).hi (s.setProduct p).lo s (s.setProduct p) :=
  .setHiLo s _ _

/-- Settles O13: the two functs are rows of R72's table, and the product of two words fits the 64 bits of
HI and LO. -/
theorem productFillsHiAndLo : Obligations.ProductFillsHiAndLo := by
  unfold Obligations.ProductFillsHiAndLo
  refine ⟨⟨.of_row fun w hfunct => ?mult, .of_row fun w hfunct => ?multu⟩, fun rs rt s =>
    ⟨.of_eq (exec_mult rs rt s) ⟨s.setProduct_signed ?signed, .setProduct s _⟩,
      .of_eq (exec_multu rs rt s) ⟨s.setProduct_unsigned BitVec.toNat_mul_toNat_lt, .setProduct s _⟩⟩⟩
  case mult => simp only [decodeSpecial, hfunct]
  case multu => simp only [decodeSpecial, hfunct]
  case signed =>
    have hlow : -2 ^ 62 ≤ (s.reg rs).toInt * (s.reg rt).toInt := BitVec.le_toInt_mul_toInt
    have hhigh : (s.reg rs).toInt * (s.reg rt).toInt ≤ 2 ^ 62 := BitVec.toInt_mul_toInt_le
    omega

end Sys2Proof.Machine

/-! ### Division of words -/

namespace Sys2Proof.Machine

theorem State.divSigned_of_zero (s : State) (a : Int) {b : Int} (h : b = 0) :
    s.divSigned a b = s.raise (.divideByZero s.pcI) :=
  if_pos h

theorem State.divSigned_of_overflow (s : State) {a b : Int} (h : a = -2 ^ 31 ∧ b = -1) :
    s.divSigned a b =
      (s.setHiLo (Config.drawWord s.draws) (Config.drawWord (s.draws + 1))).drew 2 := by
  rw [State.divSigned, if_neg (by omega), if_pos h]

/-- The quotient of every dividend and divisor but -2^31 and -1 fits a word (R152). -/
theorem toInt_sdiv_of_fits {a b : Word} (hfit : ¬(a.toInt = -2 ^ 31 ∧ b.toInt = -1)) :
    (a.sdiv b).toInt = a.toInt.tdiv b.toInt := by
  refine BitVec.toInt_sdiv_of_ne_or_ne a b (not_and_or.1 fun h => hfit ?_)
  obtain ⟨rfl, rfl⟩ := h
  decide

/-- Outside R152's two exceptions, LO and HI hold the signed quotient and remainder of words. -/
theorem State.divSigned_of_fits (s : State) {a b : Word} (hb : b.toInt ≠ 0)
    (hfit : ¬(a.toInt = -2 ^ 31 ∧ b.toInt = -1)) :
    s.divSigned a.toInt b.toInt = s.setHiLo (a.srem b) (a.sdiv b) := by
  have hrem : a.toInt - a.toInt.tdiv b.toInt * b.toInt = (a.srem b).toInt := by
    rw [BitVec.toInt_srem, Int.tmod_def, Int.mul_comm]
  rw [State.divSigned, if_neg hb, if_neg hfit, hrem, ← toInt_sdiv_of_fits hfit,
    wrap32_signed, wrap32_signed]

theorem State.divUnsigned_of_zero (s : State) (a : Nat) {b : Nat} (h : b = 0) :
    s.divUnsigned a b = s.raise (.divideByZero s.pcI) :=
  if_pos h

/-- With a divisor other than zero, LO and HI hold the unsigned quotient and remainder of words (R153). -/
theorem State.divUnsigned_of_ne_zero (s : State) (a : Word) {b : Word} (h : b.toNat ≠ 0) :
    s.divUnsigned a.toNat b.toNat = s.setHiLo (a % b) (a / b) := by
  rw [State.divUnsigned, if_neg h, ← BitVec.toNat_umod, ← BitVec.toNat_udiv, wrap32_unsigned,
    wrap32_unsigned]

/-- `Int.tmod_lt_of_pos` for a divisor of either sign. -/
theorem abs_tmod_lt (a : Int) {b : Int} (h : b ≠ 0) : |a.tmod b| < |b| := by
  rw [Int.abs_eq_natAbs, Int.abs_eq_natAbs, Int.natAbs_tmod]
  exact_mod_cast Nat.mod_lt _ (Int.natAbs_pos.2 h)

/-- The mirror of `Int.tmod_nonneg`: the remainder's sign is the dividend's (R152). -/
theorem tmod_nonpos {a : Int} (b : Int) (h : a ≤ 0) : a.tmod b ≤ 0 := by
  have hneg := Int.tmod_nonneg b (Int.neg_nonneg_of_nonpos h)
  rw [Int.neg_tmod] at hneg
  omega

/-- Settles O14: the funct is a row of R72's table, and the three cases are the three equations of
`divSigned`; in the general one HI is the remainder of division toward zero. -/
theorem signedDivision : Obligations.SignedDivision := by
  unfold Obligations.SignedDivision
  refine ⟨.of_row fun w hfunct => ?selection, fun rs rt s => ⟨fun hzero => ?zero,
    fun hover => ?overflow, fun hb hfit => ?general⟩⟩
  case selection => simp only [decodeSpecial, hfunct]
  case zero =>
    refine .of_eq ?_ (.raise s _)
    rw [exec_div, s.divSigned_of_zero _ hzero, State.pcI]
  case overflow =>
    refine .of_eq (by rw [exec_div, s.divSigned_of_overflow hover]) ?_
    exact ⟨fun _ _ => rfl, rfl, ⟨rfl, fun _ => rfl⟩, ⟨rfl, rfl, rfl⟩, ⟨rfl, rfl⟩, rfl⟩
  case general =>
    have hquot := toInt_sdiv_of_fits hfit
    have hrem := (s.reg rs).toInt_srem (s.reg rt)
    refine .of_eq (by rw [exec_div, s.divSigned_of_fits hb hfit]) ?_
    simp only [State.setHiLo_hi, State.setHiLo_lo, hquot, hrem]
    exact ⟨Int.tdiv_mul_add_tmod _ _, abs_tmod_lt _ hb, Int.tmod_nonneg _, tmod_nonpos _,
      .setHiLo s _ _⟩

/-- Settles O15: the funct is a row of R72's table, and the two cases are the two equations of
`divUnsigned`. -/
theorem unsignedDivision : Obligations.UnsignedDivision := by
  unfold Obligations.UnsignedDivision
  refine ⟨.of_row fun w hfunct => ?selection, fun rs rt s => ⟨fun hzero => ?zero, fun hb => ?general⟩⟩
  case selection => simp only [decodeSpecial, hfunct]
  case zero =>
    have hdivisor : (s.reg rt).toNat = 0 := congrArg BitVec.toNat hzero
    refine .of_eq ?_ (.raise s _)
    rw [exec_divu, s.divUnsigned_of_zero _ hdivisor, State.pcI]
  case general =>
    have hpos : 0 < (s.reg rt).toNat := BitVec.toNat_pos_of_ne_zero hb
    refine .of_eq (by rw [exec_divu, s.divUnsigned_of_ne_zero _ hpos.ne']) ?_
    simp only [State.setHiLo_hi, State.setHiLo_lo, BitVec.toNat_udiv, BitVec.toNat_umod]
    exact ⟨Nat.div_add_mod' _ _, Nat.mod_lt _ hpos, .setHiLo s _ _⟩

end Sys2Proof.Machine

/-! ### The moves -/

namespace Sys2Proof.Machine

/-- Settles O16: the two functs are rows of R72's table, and each body is one write of a register. -/
theorem movesFromHiAndLo : Obligations.MovesFromHiAndLo := by
  unfold Obligations.MovesFromHiAndLo
  refine ⟨⟨.of_row fun w hfunct => ?mfhi, .of_row fun w hfunct => ?mflo⟩,
    fun rd s => ⟨.of_setReg (exec_mfhi rd s), .of_setReg (exec_mflo rd s)⟩⟩
  case mfhi => simp only [decodeSpecial, hfunct]
  case mflo => simp only [decodeSpecial, hfunct]

end Sys2Proof.Machine

/-! ## Proofs: control and system (spec/44_r_control_system.md) -/

/-! ### Jumps -/

namespace Sys2Proof.Machine

/-- The word a jump goes to, as the rule's number (R210). -/
theorem State.jumpTarget_eq_wrap32 (s : State) (target : BitVec 26) :
    s.jumpTarget target = wrap32 (s.pc.toNat / 2 ^ 28 * 2 ^ 28 + target.toNat * 4 : Nat) := by
  rw [← State.jumpTarget_toNat, wrap32_unsigned]

/-- An instruction that answers one write of `pc` completes with that write and nothing else. -/
theorem Completes.of_setPc {i : Instr} {p : Word} {s : State} (h : exec i s = .next (s.setPc p)) :
    Completes i s (WritesPc p s) :=
  .of_eq h (.setPc s p)

/-- Settles O22: the opcodes and the funct are rows of R71's and R72's tables, and each body is one write
of `pc`, with jal's link before it. -/
theorem jumpsReachTheirTargets : Obligations.JumpsReachTheirTargets := by
  unfold Obligations.JumpsReachTheirTargets
  refine ⟨⟨fun w hop => ?j, fun w hop => ?jal, .of_row fun w hfunct => ?jr⟩, fun rs target s => ?effect⟩
  case j => simp only [decode, hop]
  case jal => simp only [decode, hop]
  case jr => simp only [decodeSpecial, hfunct]
  case effect =>
    rw [← s.jumpTarget_eq_wrap32 target]
    have hlink : s.link.reg 31 = s.pc := s.reg_setReg_same 31 s.pc
    have hregs : KeepsRegs [31] s s.link := .setReg s 31 s.pc
    exact ⟨.of_setPc (exec_j target s),
      .of_eq (exec_jal target s) ⟨rfl, hlink, hregs, ⟨rfl, rfl⟩, ⟨rfl, fun _ => rfl⟩, ⟨rfl, rfl, rfl⟩,
        ⟨rfl, rfl⟩, ⟨rfl, rfl⟩⟩,
      .of_setPc (exec_jr rs s)⟩

end Sys2Proof.Machine

/-! ### The end of the run, and the codes outside the table -/

namespace Sys2Proof.Machine

/-- An exited run takes no step (R168). -/
theorem step_exit_ne_next (s : State) (c : Word) (v : State) : step (s.exit c) ≠ .next v := by
  intro hstep
  obtain ⟨hsuspended, -⟩ := step_of_not_running (by simp) hstep
  cases hsuspended

/-- Settles O27: both codes answer `exit`, which writes the status only, and an exited run takes no
step. -/
theorem exitServicesEndTheRun : Obligations.ExitServicesEndTheRun := by
  unfold Obligations.ExitServicesEndTheRun
  intro s c hcode
  have hexec : exec .syscall s = .next (s.exit c) := by
    rcases hcode with ⟨h10, rfl⟩ | ⟨h17, rfl⟩
    · exact exec_syscall_of_code h10
    · exact exec_syscall_of_code h17
  exact .of_eq hexec ⟨rfl, .refl s, ⟨rfl, rfl⟩, rfl, rfl, step_exit_ne_next s c⟩

/-- A code outside the table has no row of `service` (R175). -/
theorem State.service_of_unlisted (s : State) {code : Nat}
    (h : code ∈ [0, 2, 3, 6, 7] ∨ (20 ≤ code ∧ code ≤ 29) ∨ 37 ≤ code) : s.service code = s := by
  unfold State.service
  split
  case h_23 => rfl
  all_goals exact absurd h (by decide)

/-- Settles O28: the body of syscall is `service`, which answers its own state for these codes. -/
theorem unknownServicesDoNothing : Obligations.UnknownServicesDoNothing := by
  unfold Obligations.UnknownServicesDoNothing
  intro s hcode
  rw [exec_syscall_of_code rfl, s.service_of_unlisted hcode]

end Sys2Proof.Machine

/-! ### Services that check a range or a string first (R172) -/

namespace Sys2Proof.Machine

section Range
variable {s body : State} {a n : Nat} (h : exec .syscall s = .next (s.withRange a n body))
include h

/-- A service whose buffer is in memory does what its body does. -/
theorem Completes.of_inRange {P : State → Prop} (hin : a + n ≤ s.mem.size) (hp : P body) :
    Completes .syscall s P :=
  .of_eq (by rw [h, s.withRange_of_inRange body hin]) hp

/-- A service whose buffer is not in memory ends the run at `pc_i`, and nothing is written. -/
theorem Completes.of_outside (hout : s.mem.size < a + n) :
    Completes .syscall s (EndsFaulted (.memoryFault a n .syscall) (s.pc - 4) s) :=
  .of_eq (by rw [h, s.withRange_of_outside body hout]) (.raise s _)

end Range

section CString
variable {s : State} {a : Nat} {body : List Byte → State}
  (h : exec .syscall s = .next (s.withString a body))
include h

/-- A service whose string ends inside memory does what its body does with the bytes before the 0x00. -/
theorem Completes.of_terminated {P : State → Prop} {n : Nat} (hn : a + n < s.mem.size)
    (hne : ∀ k, k < n → s.mem.byte (a + k) ≠ 0) (hz : s.mem.byte (a + n) = 0)
    (hp : P (body (s.mem.bytes a n))) : Completes .syscall s P :=
  .of_eq (by rw [h, State.withString, Memory.cString_of_terminated hn hne hz]) hp

/-- A service whose string meets the end of memory ends the run there, and nothing is written. -/
theorem Completes.of_unterminated (hne : ∀ b, a ≤ b → b < s.mem.size → s.mem.byte b ≠ 0) :
    Completes .syscall s
      (EndsFaulted (.memoryFault (max a s.mem.size) 1 .syscall) (s.pc - 4) s) :=
  .of_eq (by rw [h, State.withString, Memory.cString_of_unterminated hne]) (.raise s _)

end CString

end Sys2Proof.Machine

/-! ### Output (R167) -/

namespace Sys2Proof.Machine

/-- A code whose service is one request only asks the host. -/
theorem Completes.of_ask {i : Instr} {s : State} {r : HostRequest} (h : exec i s = .next (s.ask r)) :
    Completes i s (OnlyAsks r s) :=
  .of_eq h (.ask s r)

/-- Settles O29: five services are one request, and service 4 is one after its string is found. -/
theorem outputServicesWriteNoBlockState : Obligations.OutputServicesWriteNoBlockState := by
  unfold Obligations.OutputServicesWriteNoBlockState
  exact fun s =>
    ⟨fun h => .of_ask (exec_syscall_of_code h),
      fun n h hn hne hz => .of_terminated (exec_syscall_of_code h) hn hne hz (.ask s _),
      fun h => .of_ask (exec_syscall_of_code h), fun h => .of_ask (exec_syscall_of_code h),
      fun h => .of_ask (exec_syscall_of_code h), fun h => .of_ask (exec_syscall_of_code h)⟩

end Sys2Proof.Machine

/-! ### Input (R169) -/

namespace Sys2Proof.Machine

/-- The host is asked `r`, its answer `v` goes to `x[2]`, and nothing else of the block changes. -/
def AnswersInCodeReg (r : HostRequest) (v : Word) (s t : State) : Prop :=
  t.reg 2 = v ∧ KeepsRegs [2] s t ∧ t.pc = s.pc ∧ KeepsHiLo s t ∧ KeepsMemory s t ∧ KeepsRun s t ∧
    KeepsSnapshot s t ∧ t.requests = r :: s.requests

theorem AnswersInCodeReg.ask_setReg_drew (s : State) (r : HostRequest) (v : Word) :
    AnswersInCodeReg r v s (((s.ask r).setReg codeReg v).drew 1) :=
  ⟨State.reg_setReg_same .., .setReg s codeReg v, rfl, ⟨rfl, rfl⟩, ⟨rfl, fun _ => rfl⟩, ⟨rfl, rfl, rfl⟩,
    ⟨rfl, rfl⟩, rfl⟩

/-- Writing the first bytes of a string, `n` at most, puts a string of at most `n` bytes at `a` and leaves
every other byte. -/
theorem Memory.byte_setBytes_take (m : Memory) (a n : Nat) (bytes : List Byte) :
    ∃ written : List Byte, written.length ≤ n ∧ ∀ b, (m.setBytes a (bytes.take n)).byte b =
      if a ≤ b ∧ b < a + written.length then written.getD (b - a) 0 else m.byte b :=
  ⟨bytes.take n, List.length_take_le n bytes, m.byte_setBytes a _⟩

/-- Settles O30: 5 and 12 write one answer to `x[2]`; 8 and 14 check their buffer, and with it in memory
write the first bytes of the answer, as many as were asked for at most, from its start on. -/
theorem inputServicesWriteOnlyWhatTheyName : Obligations.InputServicesWriteOnlyWhatTheyName := by
  unfold Obligations.InputServicesWriteOnlyWhatTheyName
  refine fun s => ⟨fun h => ?readInt, fun h => ?readChar, fun h hin => ?readLine, fun h hin => ?readFile,
    fun h hout => .of_outside (exec_syscall_of_code h) hout,
    fun h hout => .of_outside (exec_syscall_of_code h) hout⟩
  case readInt => exact .of_eq (exec_syscall_of_code h) (AnswersInCodeReg.ask_setReg_drew s _ _)
  case readChar => exact .of_eq (exec_syscall_of_code h) (AnswersInCodeReg.ask_setReg_drew s _ _)
  case readLine =>
    refine .of_inRange (exec_syscall_of_code h) hin
      ⟨⟨Memory.setBytes_size .., s.mem.byte_setBytes_take ..⟩, ?_⟩
    exact ⟨fun _ _ => rfl, rfl, ⟨rfl, rfl⟩, ⟨rfl, rfl, rfl⟩, ⟨rfl, rfl⟩, rfl⟩
  case readFile =>
    refine .of_inRange (exec_syscall_of_code h) hin
      ⟨⟨Memory.setBytes_size .., s.mem.byte_setBytes_take ..⟩, ?_⟩
    exact ⟨State.reg_setReg_same .., .setReg s codeReg _, rfl, ⟨rfl, rfl⟩, ⟨rfl, rfl, rfl⟩, ⟨rfl, rfl⟩,
      rfl⟩

end Sys2Proof.Machine

/-! ### Checked ranges (R172) -/

namespace Sys2Proof.Machine

/-- Writing at most `n` bytes at `a` leaves every byte outside the `n` at `a`. -/
theorem KeepsMemoryOutside.of_setBytes_take {s t : State} {a n : Nat} {bytes : List Byte}
    (h : t.mem = s.mem.setBytes a (bytes.take n)) : KeepsMemoryOutside a n s t := by
  obtain ⟨written, hlen, hbyte⟩ := s.mem.byte_setBytes_take a n bytes
  refine ⟨by rw [h, Memory.setBytes_size], fun b hb => ?_⟩
  rw [h, hbyte, if_neg (by omega)]

/-- Settles O33: the checks are `withString` and `withRange`; a string without 0x00 faults at the first
address not in memory, a buffer at its own range, and the bytes answered are cut to the buffer. -/
theorem servicesCheckTheirRangesFirst : Obligations.ServicesCheckTheirRangesFirst := by
  unfold Obligations.ServicesCheckTheirRangesFirst
  refine fun s => ⟨fun h hne => ?string, fun h hout => .of_outside (exec_syscall_of_code h) hout,
    fun h hout => ?fileBuffer,
    fun h hin => .of_inRange (exec_syscall_of_code h) hin (.of_setBytes_take rfl),
    fun h hin => .of_inRange (exec_syscall_of_code h) hin (.of_setBytes_take rfl)⟩
  case string =>
    have hends : Completes .syscall s (EndsFaulted
        (.memoryFault (max (s.reg 4).toNat s.mem.size) 1 .syscall) (s.pc - 4) s) := by
      rcases h with h4 | h13
      · exact .of_unterminated (exec_syscall_of_code h4) hne
      · exact .of_unterminated (exec_syscall_of_code h13) hne
    obtain ⟨t, hexec, hfault⟩ := hends
    exact ⟨t, hexec, _, _, hfault, by omega⟩
  case fileBuffer =>
    rcases h with h14 | h15
    · exact .of_outside (exec_syscall_of_code h14) hout
    · exact .of_outside (exec_syscall_of_code h15) hout

end Sys2Proof.Machine

/-! ### Time, tones and waiting (R174) -/

namespace Sys2Proof.Machine

theorem KeepsRegs.setReg_setReg (s : State) (i k : Reg) (v w : Word) :
    KeepsRegs [i, k] s ((s.setReg i v).setReg k w) := by
  intro x hx
  obtain ⟨hi, hk⟩ : x ≠ i ∧ x ≠ k := by simpa using hx
  rw [State.reg_setReg_ne _ w hk, State.reg_setReg_ne _ v hi]

/-- Settles O35: service 30 is two writes of different registers after its request, and the others are
one request. -/
theorem timeServicesWriteTwoRegisters : Obligations.TimeServicesWriteTwoRegisters := by
  unfold Obligations.TimeServicesWriteTwoRegisters
  refine fun s => ⟨fun h => ?time, fun h => ?tone, fun h => .of_ask (exec_syscall_of_code h)⟩
  case time =>
    have hlow : s.serviceTime.reg 4 = (Config.drawTime s.draws).extractLsb' 0 32 :=
      (State.reg_setReg_ne _ _ (by decide)).trans (State.reg_setReg_same ..)
    have hregs : KeepsRegs [4, 5] s s.serviceTime := .setReg_setReg s 4 5 _ _
    exact .of_eq (exec_syscall_of_code h) ⟨hlow, State.reg_setReg_same .., hregs, rfl, ⟨rfl, rfl⟩,
      ⟨rfl, fun _ => rfl⟩, ⟨rfl, rfl, rfl⟩, ⟨rfl, rfl⟩, rfl⟩
  case tone =>
    rcases h with h31 | h33
    · exact .of_ask (exec_syscall_of_code h31)
    · exact .of_ask (exec_syscall_of_code h33)

end Sys2Proof.Machine

/-! ## Proofs: immediate arithmetic, logic and compare (spec/45_i_alu.md) -/

/-! ### The value of each immediate -/

namespace Sys2Proof.Machine

/-- Sign extension keeps the signed value of the field (R70). -/
@[simp] theorem signedImm_toInt (imm : BitVec 16) : (signedImm imm).toInt = imm.toInt :=
  BitVec.toInt_signExtend_of_le (by decide)

/-- The upper immediate of lui is the field times `2^16`, which always fits a word (R187). -/
@[simp] theorem upperImm_toNat (imm : BitVec 16) : (upperImm imm).toNat = imm.toNat * 2 ^ 16 :=
  (BitVec.toNat_append imm (0 : BitVec 16)).trans (by simp [Nat.shiftLeft_eq])

/-! ### The word each instruction writes -/

/-- The sum that addiu writes, as the rule states it (R181). -/
theorem exec_addiu_wrap32 (rt rs : Reg) (imm : BitVec 16) (s : State) : exec (.addiu rt rs imm) s =
    .next (s.setReg rt (wrap32 (((s.reg rs).toNat : Int) + (imm.signExtend 32).toNat))) := by
  rw [exec_addiu, wrap32_add, signedImm]

/-- The word that slti writes, as the rule states it (R182). -/
theorem exec_slti_ite (rt rs : Reg) (imm : BitVec 16) (s : State) : exec (.slti rt rs imm) s =
    .next (s.setReg rt (if (s.reg rs).toInt < imm.toInt then 1 else 0)) := by
  rw [exec_slti, signedLess, boolWord_decide, signedImm_toInt]

/-- The word that sltiu writes, as the rule states it (R183). -/
theorem exec_sltiu_ite (rt rs : Reg) (imm : BitVec 16) (s : State) : exec (.sltiu rt rs imm) s =
    .next (s.setReg rt (if (s.reg rs).toNat < (imm.signExtend 32).toNat then 1 else 0)) := by
  rw [exec_sltiu, unsignedLess, boolWord_decide, signedImm]

/-- The word that lui writes, as the rule's number (R187). -/
theorem exec_lui_wrap32 (rt : Reg) (imm : BitVec 16) (s : State) : exec (.lui rt imm) s =
    .next (s.setReg rt (wrap32 (imm.toNat * 2 ^ 16 : Nat))) := by
  rw [exec_lui, ← upperImm_toNat, wrap32_unsigned]

/-- Settles O19: the seven opcodes are rows of R71's table, and each body is one write of a register with
the rule's value. -/
theorem immediateAluWritesOnlyItsResult : Obligations.ImmediateAluWritesOnlyItsResult := by
  unfold Obligations.ImmediateAluWritesOnlyItsResult
  refine ⟨?selection, fun rt rs imm s => ?effect⟩
  case selection =>
    refine ⟨?_, ?_, ?_, ?_, ?_, ?_, ?_⟩ <;>
    · intro w hop
      simp only [decode, hop]
  case effect =>
    exact ⟨.of_setReg (exec_addiu_wrap32 rt rs imm s), .of_setReg (exec_slti_ite rt rs imm s),
      .of_setReg (exec_sltiu_ite rt rs imm s), .of_setReg (exec_andi rt rs imm s),
      .of_setReg (exec_ori rt rs imm s), .of_setReg (exec_xori rt rs imm s),
      .of_setReg (exec_lui_wrap32 rt imm s)⟩

end Sys2Proof.Machine

/-! ## Proofs: branches (spec/46_branches.md) -/

/-! ### Selection -/

namespace Sys2Proof.Machine

/-- A row of the opcode 1 table is selected by its rt: opcode 1 hands the word to that table (R71, R73). -/
theorem SelectedByRt.of_row {sel : Nat} {mk : Reg → BitVec 16 → Instr}
    (hrow : ∀ w : Word, (getRt w).val = sel → decodeRegimm w = .ok (mk (getRs w) (getImmField w))) :
    SelectedByRt sel mk := by
  intro w hop hrt
  rw [decode, hop]
  exact hrow w hrt

end Sys2Proof.Machine

/-! ### Branches without a link -/

namespace Sys2Proof.Machine

/-- A branch writes the rule's target or the `pc` it has. -/
theorem WritesPc.branchIf_wrap32 (s : State) (c : Prop) [Decidable c] (imm : BitVec 16) :
    WritesPc (if c then wrap32 (s.pc.toNat + 4 * imm.toInt) else s.pc) s
      (s.branchIf (decide c) imm) := by
  rw [wrap32_branch]
  exact .branchIf s c imm

/-- An instruction that answers one conditional write of `pc` completes with that write and nothing
else. -/
theorem Completes.of_branchIf {i : Instr} {s : State} {c : Prop} [Decidable c] {imm : BitVec 16}
    (h : exec i s = .next (s.branchIf (decide c) imm)) :
    Completes i s (WritesPc (if c then wrap32 (s.pc.toNat + 4 * imm.toInt) else s.pc) s) :=
  .of_eq h (.branchIf_wrap32 s c imm)

/-- Settles O20: the four opcodes are rows of R71's table and the two rt values rows of R73's, and each
body is one conditional write of `pc`. -/
theorem branchesWriteOnlyThePc : Obligations.BranchesWriteOnlyThePc := by
  unfold Obligations.BranchesWriteOnlyThePc
  refine ⟨⟨fun w hop => ?beq, fun w hop => ?bne, fun w hop => ?blez, fun w hop => ?bgtz,
    .of_row fun w hrt => ?bltz, .of_row fun w hrt => ?bgez⟩, fun rs rt imm s => ?effect⟩
  case beq | bne | blez | bgtz => simp only [decode, hop]
  case bltz | bgez => simp only [decodeRegimm, hrt]
  case effect =>
    exact ⟨.of_branchIf (exec_beq rs rt imm s), .of_branchIf (exec_bne rs rt imm s),
      .of_branchIf (exec_blez rs imm s), .of_branchIf (exec_bgtz rs imm s),
      .of_branchIf (exec_bltz rs imm s), .of_branchIf (exec_bgez rs imm s)⟩

end Sys2Proof.Machine

/-! ### Branches with a link -/

namespace Sys2Proof.Machine

/-- `pc` takes `target` and `x[31]` the `pc` before; nothing else changes. -/
def LinksAndWritesPc (target : Word) (s t : State) : Prop :=
  t.pc = target ∧ t.reg 31 = s.pc ∧ KeepsRegs [31] s t ∧ KeepsHiLo s t ∧ KeepsMemory s t ∧
    KeepsRun s t ∧ KeepsSnapshot s t ∧ KeepsHost s t

/-- A write of `pc` after the link keeps what the link wrote and what it left. -/
theorem LinksAndWritesPc.of_link {target : Word} {s t : State} (h : WritesPc target s.link t) :
    LinksAndWritesPc target s t := by
  obtain ⟨hpc, hregs, hhilo, hmem, hrun, hsnap, hhost⟩ := h
  have hreg (k : Reg) : t.reg k = s.link.reg k := hregs k List.not_mem_nil
  have hlink : t.reg 31 = s.pc := (hreg 31).trans (s.reg_setReg_same 31 s.pc)
  have hkeep : KeepsRegs [31] s t := fun k hk => (hreg k).trans (KeepsRegs.setReg s 31 s.pc k hk)
  exact ⟨hpc, hlink, hkeep, hhilo, hmem, hrun, hsnap, hhost⟩

/-- An instruction that answers the link and then one conditional write of `pc` completes with both and
nothing else; the link leaves `pc`, and so the target, as they were. -/
theorem Completes.of_link_branchIf {i : Instr} {s : State} {c : Prop} [Decidable c] {imm : BitVec 16}
    (h : exec i s = .next (s.link.branchIf (decide c) imm)) :
    Completes i s
      (LinksAndWritesPc (if c then wrap32 (s.pc.toNat + 4 * imm.toInt) else s.pc) s) :=
  .of_eq h (.of_link (.branchIf_wrap32 s.link c imm))

/-- Settles O21: the two rt values are rows of R73's table, and each body is the link, then one
conditional write of `pc` whose condition reads the register before the link. -/
theorem linkingBranchesAlwaysLink : Obligations.LinkingBranchesAlwaysLink := by
  unfold Obligations.LinkingBranchesAlwaysLink
  refine ⟨⟨.of_row fun w hrt => ?bltzal, .of_row fun w hrt => ?bgezal⟩, fun rs imm s => ?effect⟩
  case bltzal | bgezal => simp only [decodeRegimm, hrt]
  case effect =>
    exact ⟨.of_link_branchIf (exec_bltzal rs imm s), .of_link_branchIf (exec_bgezal rs imm s)⟩

end Sys2Proof.Machine

/-! ## Proofs: loads and stores (spec/47_loadstore.md) -/

/-! ### The word each load writes -/

namespace Sys2Proof.Machine

/-- The low field of a number's word is the word of that number, as wide as the field. -/
theorem extractLsb'_zero_ofNat {w : Nat} (hw : w ≤ 32) (x : Nat) :
    (BitVec.ofNat 32 x).extractLsb' 0 w = BitVec.ofNat w x := by
  rw [← BitVec.setWidth_eq_extractLsb' hw, BitVec.setWidth_ofNat_of_le hw]

/-- The extension of lb (R201). -/
theorem signByte_ofNat (x : Nat) : signByte (BitVec.ofNat 32 x) = (BitVec.ofNat 8 x).signExtend 32 := by
  rw [signByte, extractLsb'_zero_ofNat (w := 8) (by decide)]

/-- The extension of lh (R202). -/
theorem signHalf_ofNat (x : Nat) : signHalf (BitVec.ofNat 32 x) = (BitVec.ofNat 16 x).signExtend 32 := by
  rw [signHalf, extractLsb'_zero_ofNat (w := 16) (by decide)]

/-- The extension of lbu keeps a number that one byte holds (R204). -/
theorem zeroByte_ofNat {x : Nat} (hx : x < 2 ^ 8) : zeroByte (BitVec.ofNat 32 x) = BitVec.ofNat 32 x := by
  rw [zeroByte, extractLsb'_zero_ofNat (w := 8) (by decide),
    BitVec.setWidth_ofNat_of_le_of_lt (by decide) hx]

/-- The extension of lhu keeps a number that two bytes hold (R205). -/
theorem zeroHalf_ofNat {x : Nat} (hx : x < 2 ^ 16) : zeroHalf (BitVec.ofNat 32 x) = BitVec.ofNat 32 x := by
  rw [zeroHalf, extractLsb'_zero_ofNat (w := 16) (by decide),
    BitVec.setWidth_ofNat_of_le_of_lt (by decide) hx]

/-- The effective address, as the rule states it (R200). -/
theorem State.effAddr_eq_wrap32 (s : State) (rs : Reg) (imm : BitVec 16) :
    s.effAddr rs imm = wrap32 (((s.reg rs).toNat : Int) + (imm.signExtend 32).toNat) := by
  rw [wrap32_add, State.effAddr, signedImm]

end Sys2Proof.Machine

/-! ### Loads (R201 to R205) -/

namespace Sys2Proof.Machine

section Load
variable {i : Instr} {s : State} {rt rs : Reg} {imm : BitVec 16} {n : Nat} {ext : Word → Word}
  (h : exec i s = .next (s.load rt rs imm n ext))
include h

/-- A load in range writes the extended little-endian number of its bytes, and nothing else changes. -/
theorem Completes.of_load_inRange (hn : n ≤ 4) (hin : (s.effAddr rs imm).toNat + n ≤ s.mem.size) :
    Completes i s
      (WritesReg rt (ext (BitVec.ofNat 32 (s.mem.number (s.effAddr rs imm).toNat n))) s) := by
  refine .of_setReg ?_
  rw [h, State.load_of_inRange s rt rs imm ext hin, Memory.littleEndian_eq_number _ _ hn]

/-- A load out of range ends the run at `pc_i`, and nothing is written. -/
theorem Completes.of_load_outside (hout : s.mem.size < (s.effAddr rs imm).toNat + n) :
    Completes i s
      (EndsFaulted (.memoryFault (s.effAddr rs imm).toNat n .load) (s.pc - 4) s) :=
  .of_eq (by rw [h, State.load_of_outside s rt rs imm ext hout]) (.raise s _)

/-- Both cases of a load whose extended number is `v`. -/
theorem completes_of_load (hn : n ≤ 4) {v : Word}
    (hv : ext (BitVec.ofNat 32 (s.mem.number (s.effAddr rs imm).toNat n)) = v) :
    ((s.effAddr rs imm).toNat + n ≤ s.mem.size → Completes i s (WritesReg rt v s)) ∧
    (s.mem.size < (s.effAddr rs imm).toNat + n → Completes i s
      (EndsFaulted (.memoryFault (s.effAddr rs imm).toNat n .load) (s.pc - 4) s)) := by
  subst hv
  exact ⟨.of_load_inRange h hn, .of_load_outside h⟩

end Load

/-- Settles O23: the five opcodes are rows of R71's table, and each body is one load, whose extension
of its bytes' number is the rule's value. -/
theorem loadsReadLittleEndianMemory : Obligations.LoadsReadLittleEndianMemory := by
  unfold Obligations.LoadsReadLittleEndianMemory
  refine ⟨?selection, fun rt rs imm s => ⟨s.effAddr_eq_wrap32 rs imm, ?effect⟩⟩
  case selection =>
    refine ⟨?_, ?_, ?_, ?_, ?_⟩ <;>
    · intro w hop
      simp only [decode, hop]
  case effect =>
    exact ⟨completes_of_load (exec_lb rt imm rs s) (by decide) (signByte_ofNat _),
      completes_of_load (exec_lh rt imm rs s) (by decide) (signHalf_ofNat _),
      completes_of_load (exec_lw rt imm rs s) (by decide) rfl,
      completes_of_load (exec_lbu rt imm rs s) (by decide) (zeroByte_ofNat (s.mem.number_lt _ 1)),
      completes_of_load (exec_lhu rt imm rs s) (by decide) (zeroHalf_ofNat (s.mem.number_lt _ 2))⟩

end Sys2Proof.Machine

/-! ### Stores (R206 to R208) -/

namespace Sys2Proof.Machine

/-- The `n` bytes at `a` take the low bytes of `v`, lowest first; nothing else changes. -/
def WritesBytes (a n : Nat) (v : Word) (s t : State) : Prop :=
  (∀ k, k < n → t.mem.byte (a + k) = v.extractLsb' (8 * k) 8) ∧
  KeepsMemoryOutside a n s t ∧ KeepsRegs [] s t ∧ t.pc = s.pc ∧ KeepsHiLo s t ∧
  KeepsRun s t ∧ KeepsSnapshot s t ∧ KeepsHost s t

/-- The written memory holds the bytes of `v` at `a` and what it held everywhere else. -/
theorem WritesBytes.setMem_setBytes (s : State) (a n : Nat) (v : Word) :
    WritesBytes a n v s (s.setMem (s.mem.setBytes a (Memory.bytesOf v n))) := by
  have houtside : KeepsMemoryOutside a n s (s.setMem (s.mem.setBytes a (Memory.bytesOf v n))) :=
    ⟨Memory.setBytes_size .., fun b hb =>
      s.mem.byte_setBytes_outside a _ (by rwa [Memory.bytesOf_length])⟩
  exact ⟨fun k hk => s.mem.byte_setBytes_bytesOf a v hk, houtside, fun _ _ => rfl, rfl, ⟨rfl, rfl⟩,
    ⟨rfl, rfl, rfl⟩, ⟨rfl, rfl⟩, ⟨rfl, rfl⟩⟩

section Store
variable {i : Instr} {s : State} {rt rs : Reg} {imm : BitVec 16} {n : Nat}
  (h : exec i s = .next (s.store rt rs imm n))
include h

/-- A store in range writes the low bytes of `x[rt]`, and nothing else changes. -/
theorem Completes.of_store_inRange (hin : (s.effAddr rs imm).toNat + n ≤ s.mem.size) :
    Completes i s (WritesBytes (s.effAddr rs imm).toNat n (s.reg rt) s) :=
  .of_eq (by rw [h, State.store_of_inRange s rt rs imm hin]) (.setMem_setBytes s _ n _)

/-- A store out of range ends the run at `pc_i`, and nothing is written. -/
theorem Completes.of_store_outside (hout : s.mem.size < (s.effAddr rs imm).toNat + n) :
    Completes i s
      (EndsFaulted (.memoryFault (s.effAddr rs imm).toNat n .store) (s.pc - 4) s) :=
  .of_eq (by rw [h, State.store_of_outside s rt rs imm hout]) (.raise s _)

end Store

/-- Settles O24: the three opcodes are rows of R71's table, and each body is one store of its width. -/
theorem storesWriteOnlyTheirBytes : Obligations.StoresWriteOnlyTheirBytes := by
  unfold Obligations.StoresWriteOnlyTheirBytes
  refine ⟨⟨fun w hop => ?sb, fun w hop => ?sh, fun w hop => ?sw⟩, fun rt rs imm s => ?effect⟩
  case sb | sh | sw => simp only [decode, hop]
  case effect =>
    have hsb := exec_sb rt imm rs s
    have hsh := exec_sh rt imm rs s
    have hsw := exec_sw rt imm rs s
    exact ⟨⟨.of_store_inRange hsb, .of_store_outside hsb⟩,
      ⟨.of_store_inRange hsh, .of_store_outside hsh⟩,
      ⟨.of_store_inRange hsw, .of_store_outside hsw⟩⟩

end Sys2Proof.Machine

/-! ### Round trips of the codec (R67, R69, R81) -/

namespace Sys2Proof

/-- The four bytes of a word that decodes, in front of any others, decode to its instruction (R60, R77). -/
theorem decodeBytes_bytesOfWord_append {w : Word} {i : Instr} (h : decode w = .ok i) (rest : List Byte) :
    decodeBytes (bytesOfWord w ++ rest) = .ok (i, rest) := by
  simp only [bytesOfWord, List.cons_append, List.nil_append, decodeBytes, wordOfBytes_bytesOfWord, h]

/-- A word of opcode 0 is read by the table of R72. -/
theorem decode_encodeSpecial (rs rt rd : Reg) (sh : BitVec 5) (fn : Int) :
    decode (encodeSpecial rs rt rd sh fn) = decodeSpecial (encodeSpecial rs rt rd sh fn) := by
  rw [decode, getOpcode_encodeSpecial]
  rfl

/-- A word of opcode 1 is read by the table of R73. -/
theorem decode_encodeImm_one (rs rt : Reg) (imm : BitVec 16) :
    decode (encodeImm 0x01 rs rt imm) = decodeRegimm (encodeImm 0x01 rs rt imm) := by
  rw [decode, getOpcode_encodeImm]
  rfl

/-- The encoder writes the key of the instruction's row and its operands in the fields that row reads: of
opcode 0 (R72), of opcode 1 (R73), and of every other opcode (R71). -/
theorem decode_encode (i : Instr) : decode (encode i) = .ok i := by
  cases i
  case sll | srl | sra | sllv | srlv | srav | jr | syscall | brk | mfhi | mflo | mult | multu | div | divu |
      add | addu | sub | subu | and | or | xor | nor | slt | sltu =>
    simp [encode, decode_encodeSpecial, decodeSpecial]
  case bltz | bgez | bltzal | bgezal => simp [encode, decode_encodeImm_one, decodeRegimm]
  all_goals simp [encode, decode]

/-- Settles O2: the bytes of the instruction are those of its word, which decodes to it. -/
theorem decodeInvertsEncode : Obligations.DecodeInvertsEncode := by
  unfold Obligations.DecodeInvertsEncode
  exact fun i rest => decodeBytes_bytesOfWord_append (decode_encode i) rest

/-- A value that fits an unsigned field is stored exactly (R66, R69). -/
theorem toNat_ofInt_of_fieldFits {width : Nat} {v : Int} (h : WellFormed.fieldFits width v = true) :
    ((BitVec.ofInt width v).toNat : Int) = v := by
  obtain ⟨hlow, hhigh⟩ : 0 ≤ v ∧ v < 2 ^ width := by simpa [WellFormed.fieldFits] using h
  rw [BitVec.toNat_ofInt, Int.toNat_of_nonneg (Int.emod_nonneg _ (by positivity))]
  exact Int.emod_eq_of_lt hlow (by exact_mod_cast hhigh)

/-- The getter of an unsigned field reads back what its setter stored. -/
theorem toNat_extract_setField {lo width : Nat} (hw : lo + width ≤ 32) {v : Int}
    (h : WellFormed.fieldFits width v = true) :
    (((setField lo width v).extractLsb' lo width).toNat : Int) = v := by
  rw [extract_setField_same hw, toNat_ofInt_of_fieldFits h]

theorem immFits_iff (v : Int) : WellFormed.immFits v = true ↔ -32768 ≤ v ∧ v ≤ 32767 := by
  simp [WellFormed.immFits]

/-- A signed 16-bit value survives its field (R64, R69). -/
theorem toInt_ofInt_of_immFits {v : Int} (h : WellFormed.immFits v = true) :
    (BitVec.ofInt 16 v).toInt = v := by
  obtain ⟨hlow, hhigh⟩ := (immFits_iff v).1 h
  exact BitVec.toInt_ofInt_eq_self (by decide) (by omega) (by omega)

/-- The sign extension of the immediate field keeps its signed value. -/
theorem getImm_toInt (w : Word) : (getImm w).toInt = (getImmField w).toInt :=
  BitVec.toInt_signExtend_of_le (by decide)

/-- A setter puts a field read from a word back where it stood: it is the word under the field's mask. -/
theorem setField_extract (w : Word) (lo width : Nat) :
    setField lo width (w.extractLsb' lo width).toNat =
      w &&& ((BitVec.allOnes width).setWidth 32 <<< lo) := by
  rw [Laws.EncodesRow.and_field, setField, BitVec.ofInt_natCast, BitVec.ofNat_toNat, BitVec.setWidth_eq]

/-- The same of the signed 16-bit field. -/
theorem setImm_getImm (w : Word) : setImm (getImm w).toInt = setField 0 16 (getImmField w).toNat := by
  rw [getImm_toInt, setImm, setField, setField, BitVec.ofInt_toInt, BitVec.ofInt_natCast, BitVec.ofNat_toNat,
    BitVec.setWidth_eq]

/-- Words under masks that together cover the word make it up. -/
theorem and_eq_self_of_eq_allOnes (w : Word) {m : Word} (h : m = BitVec.allOnes 32) : w &&& m = w := by
  rw [h, BitVec.and_allOnes]

/-- A word is rebuilt from the fields of the R form: their masks cover it. -/
theorem encodeR_fields (w : Word) : encodeR (getOpcode w).toNat (getRs w).val (getRt w).val (getRd w).val
    (getShamt w).toNat (getFunct w).toNat = w := by
  simp only [encodeR, setOpcode, setRs, setRt, setRd, setShamt, setFunct, getOpcode, getRs, getRt, getRd,
    getShamt, getFunct, BitVec.val_toFin, setField_extract, ← BitVec.and_or_distrib_left]
  exact and_eq_self_of_eq_allOnes w (by decide)

/-- A word is rebuilt from the fields of the I form. -/
theorem encodeI_fields (w : Word) :
    encodeI (getOpcode w).toNat (getRs w).val (getRt w).val (getImm w).toInt = w := by
  simp only [encodeI, setImm_getImm, setOpcode, setRs, setRt, getOpcode, getRs, getRt, getImmField,
    BitVec.val_toFin, setField_extract, ← BitVec.and_or_distrib_left]
  exact and_eq_self_of_eq_allOnes w (by decide)

/-- A word is rebuilt from the fields of the J form. -/
theorem encodeJ_fields (w : Word) : encodeJ (getOpcode w).toNat (getTarget w).toNat = w := by
  simp only [encodeJ, setOpcode, setTarget, getOpcode, getTarget, setField_extract,
    ← BitVec.and_or_distrib_left]
  exact and_eq_self_of_eq_allOnes w (by decide)

/-- Settles O5: a getter extracts the bits its setter placed, and the masks of each form's fields cover the
word. -/
theorem fieldGettersInvertSetters : Obligations.FieldGettersInvertSetters := by
  unfold Obligations.FieldGettersInvertSetters
  refine ⟨fun v h => ?six, fun v h => ?five, fun v h => ?target, fun v h => ?imm, encodeR_fields,
    encodeI_fields, encodeJ_fields⟩
  case six => exact ⟨toNat_extract_setField (by decide) h, toNat_extract_setField (by decide) h⟩
  case five =>
    exact ⟨toNat_extract_setField (by decide) h, toNat_extract_setField (by decide) h,
      toNat_extract_setField (by decide) h, toNat_extract_setField (by decide) h⟩
  case target => exact toNat_extract_setField (by decide) h
  case imm =>
    have hfield : getImmField (setImm v) = BitVec.ofInt 16 v := extract_setField_same (by decide) v
    rw [getImm_toInt, hfield, toInt_ofInt_of_immFits h]

end Sys2Proof

/-! ## Proofs: what a body does to the run, said once (spec/60_exceptions.md R221, R222) -/

namespace Sys2Proof.Machine

/-! ### Service 18: only the snapshot, its mark and the requests can change -/

@[simp] theorem State.serviceSnapshot_regs (s : State) : s.serviceSnapshot.regs = s.regs := by
  unfold State.serviceSnapshot; dsimp only; split <;> rfl
@[simp] theorem State.serviceSnapshot_hi (s : State) : s.serviceSnapshot.hi = s.hi := by
  unfold State.serviceSnapshot; dsimp only; split <;> rfl
@[simp] theorem State.serviceSnapshot_lo (s : State) : s.serviceSnapshot.lo = s.lo := by
  unfold State.serviceSnapshot; dsimp only; split <;> rfl
@[simp] theorem State.serviceSnapshot_pc (s : State) : s.serviceSnapshot.pc = s.pc := by
  unfold State.serviceSnapshot; dsimp only; split <;> rfl
@[simp] theorem State.serviceSnapshot_mem (s : State) : s.serviceSnapshot.mem = s.mem := by
  unfold State.serviceSnapshot; dsimp only; split <;> rfl
@[simp] theorem State.serviceSnapshot_status (s : State) : s.serviceSnapshot.status = s.status := by
  unfold State.serviceSnapshot; dsimp only; split <;> rfl
@[simp] theorem State.serviceSnapshot_refused (s : State) : s.serviceSnapshot.refused = s.refused := by
  unfold State.serviceSnapshot; dsimp only; split <;> rfl
@[simp] theorem State.serviceSnapshot_stepping (s : State) : s.serviceSnapshot.stepping = s.stepping := by
  unfold State.serviceSnapshot; dsimp only; split <;> rfl
@[simp] theorem State.serviceSnapshot_draws (s : State) : s.serviceSnapshot.draws = s.draws := by
  unfold State.serviceSnapshot; dsimp only; split <;> rfl

/-! ### Faults, the end of the run, suspension -/

/-- The faults an instruction body raises in `s`, each with the condition of R221's table. -/
inductive Raises (s : State) (i : Instr) : FaultKind → Prop where
  | overflow (r : Reg) (n : Int) (hi : CheckedResult s i r n) (hn : n < -2 ^ 31 ∨ 2 ^ 31 - 1 < n) :
    Raises s i (.integerOverflow s.pcI)
  | divideByZero (rs rt : Reg) (hi : i = .div rs rt ∨ i = .divu rs rt) (hz : s.reg rt = 0) :
    Raises s i (.divideByZero s.pcI)
  | load (rs : Reg) (imm : BitVec 16) (n : Nat) (hi : Loads i rs imm n)
    (hr : s.mem.size < (s.effAddr rs imm).toNat + n) :
    Raises s i (.memoryFault (s.effAddr rs imm).toNat n .load)
  | store (rt rs : Reg) (imm : BitVec 16) (n : Nat) (hi : Stores i rt rs imm n)
    (hr : s.mem.size < (s.effAddr rs imm).toNat + n) :
    Raises s i (.memoryFault (s.effAddr rs imm).toNat n .store)
  | service (a n : Nat) (hi : i = .syscall) (hc : (s.reg 2).toNat ∈ [4, 8, 13, 14, 15])
    (hr : s.mem.size < a + n) : Raises s i (.memoryFault a n .syscall)

/-- What a body does to the run status and the refused mark. -/
inductive RunEffect (s : State) (i : Instr) : State → Prop where
  | goesOn {t : State} (hs : t.status = s.status) (hr : t.refused = s.refused) : RunEffect s i t
  | suspends {t : State} (hi : i = .brk) (hs : t.status = .suspended) (hr : t.refused = s.refused) :
    RunEffect s i t
  | exits {t : State} (c : Word) (hi : i = .syscall) (hs : t.status = .exited c)
    (hr : t.refused = s.refused) : RunEffect s i t
  | faults (k : FaultKind) (hk : Raises s i k) : RunEffect s i (s.raise k)
  | refuses (hi : i = .syscall) (hc : s.reg 2 = 9) : RunEffect s i s.refuse

theorem RunEffect.of_service {s t : State} (h : ServiceEffect s (s.reg 2).toNat t) :
    RunEffect s .syscall t := by
  cases h with
  | refuses hc => exact .refuses rfl (BitVec.eq_of_toNat_eq hc)
  | exits c => exact .exits c rfl rfl rfl
  | snapshots => exact .goesOn s.serviceSnapshot_status s.serviceSnapshot_refused
  | faults a n hc hr => exact .faults _ (.service a n rfl hc hr)
  | _ => exact .goesOn rfl rfl

/-- Every body has one of these effects on the run. -/
theorem exec_run {i : Instr} {s t : State} (h : exec i s = .next t) : RunEffect s i t := by
  cases exec_effect h with
  | overflows r n hi hn => exact .faults _ (.overflow r n hi hn)
  | dividesByZero rs rt hi hz => exact .faults _ (.divideByZero rs rt hi hz)
  | loadFaults rs imm n hi hr => exact .faults _ (.load rs imm n hi hr)
  | storeFaults rt rs imm n hi hr => exact .faults _ (.store rt rs imm n hi hr)
  | suspends hi => exact .suspends hi rfl rfl
  | serves t hi ht =>
    subst hi
    exact .of_service ht
  | _ => exact .goesOn rfl rfl

/-- A body that leaves a running state faulted raised the fault there, or is service 9: nothing else has
happened. -/
theorem exec_faulted {i : Instr} {s t : State} {k : FaultKind} {p : Word} (hrun : s.status = .running)
    (h : exec i s = .next t) (hf : t.status = .faulted k p) :
    (Raises s i k ∧ t = s.raise k) ∨
      (k = .unimplementedSyscall s.pcI ∧ i = .syscall ∧ s.reg 2 = 9 ∧ t = s.refuse) := by
  cases exec_run h with
  | goesOn hs => simp [hs, hrun] at hf
  | suspends _ hs => simp [hs] at hf
  | exits _ _ hs => simp [hs] at hf
  | faults k' hk =>
    cases hf
    exact .inl ⟨hk, rfl⟩
  | refuses hi hc =>
    cases hf
    exact .inr ⟨rfl, hi, hc, rfl⟩

/-- Settles O44: such a body is a raise or the refusal, and both write the record only. -/
theorem faultingBodiesWriteNothing : Obligations.FaultingBodiesWriteNothing := by
  unfold Obligations.FaultingBodiesWriteNothing
  intro i s t k p hrun hexec hfault
  rcases exec_faulted hrun hexec hfault with ⟨-, rfl⟩ | ⟨-, -, -, rfl⟩ <;> cases hfault <;>
    exact ⟨rfl, .refl s, ⟨rfl, rfl⟩, rfl⟩

/-- Settles O51: every instruction's equation answers a next state. -/
theorem everyBodyAnswersANextState : Obligations.EveryBodyAnswersANextState := by
  unfold Obligations.EveryBodyAnswersANextState
  intro i s
  cases i <;> exact ⟨_, rfl⟩

end Sys2Proof.Machine

/-! ### Every fault and its record (R221, R222) -/

namespace Sys2Proof.Machine

/-- A step that leaves the run faulted did so before its end: `afterStep` faults nothing. -/
theorem State.afterStep_faulted {v : State} {k : FaultKind} {p : Word}
    (h : v.afterStep.status = .faulted k p) : v.status = .faulted k p := by
  rw [State.afterStep_status] at h
  split at h
  · cases h
  · exact h

section Table
variable {i : Instr} {R : Instr → Prop} (hR : R i)
include hR

/-- The instructions that check a result are add, sub and addi: what holds of one that does holds of one of
these, with the result it checks. -/
theorem CheckedResult.table {s : State} {r : Reg} {n : Int} (h : CheckedResult s i r n) :
    (∃ rd rs rt, R (.add rd rs rt) ∧ n = (s.reg rs).toInt + (s.reg rt).toInt) ∨
    (∃ rd rs rt, R (.sub rd rs rt) ∧ n = (s.reg rs).toInt - (s.reg rt).toInt) ∨
    (∃ rt rs imm, R (.addi rt rs imm) ∧ n = (s.reg rs).toInt + (signedImm imm).toInt) := by
  cases h with
  | add => exact .inl ⟨_, _, _, hR, rfl⟩
  | sub => exact .inr (.inl ⟨_, _, _, hR, rfl⟩)
  | addi => exact .inr (.inr ⟨_, _, _, hR, rfl⟩)

/-- The loads by the width they read. -/
theorem Loads.table {rs : Reg} {imm : BitVec 16} {n : Nat} (h : Loads i rs imm n) :
    ∃ rt, (n = 1 ∧ (R (.lb rt imm rs) ∨ R (.lbu rt imm rs))) ∨
      (n = 2 ∧ (R (.lh rt imm rs) ∨ R (.lhu rt imm rs))) ∨ (n = 4 ∧ R (.lw rt imm rs)) := by
  cases h with
  | lb => exact ⟨_, .inl ⟨rfl, .inl hR⟩⟩
  | lbu => exact ⟨_, .inl ⟨rfl, .inr hR⟩⟩
  | lh => exact ⟨_, .inr (.inl ⟨rfl, .inl hR⟩)⟩
  | lhu => exact ⟨_, .inr (.inl ⟨rfl, .inr hR⟩)⟩
  | lw => exact ⟨_, .inr (.inr ⟨rfl, hR⟩)⟩

/-- The stores by the width they write. -/
theorem Stores.table {rt rs : Reg} {imm : BitVec 16} {n : Nat} (h : Stores i rt rs imm n) :
    (n = 1 ∧ R (.sb rt imm rs)) ∨ (n = 2 ∧ R (.sh rt imm rs)) ∨ (n = 4 ∧ R (.sw rt imm rs)) := by
  cases h with
  | sb => exact .inl ⟨rfl, hR⟩
  | sh => exact .inr (.inl ⟨rfl, hR⟩)
  | sw => exact .inr (.inr ⟨rfl, hR⟩)

end Table

/-- The step of `s` fetches and runs `i`. -/
def Runs (s : State) (i : Instr) : Prop := ∃ w, Fetches s w ∧ decode w = .ok i

/-- Settles O45: the two fetch faults and an illegal word are cases of the step; every other fault is one a
body raises in the advanced state, or service 9's. -/
theorem faultsArisePerTheTable : Obligations.FaultsArisePerTheTable := by
  unfold Obligations.FaultsArisePerTheTable
  intro s t k p hrun hstep hfault
  have hpcI := s.advance_pcI
  have hpcEnd := State.afterStep_pc
  dsimp only
  rcases step_cases hstep with ⟨hs, -⟩ | ⟨-, hpc, rfl⟩ | ⟨-, hpc, hout, rfl⟩ | ⟨w, e, hw, hd, rfl⟩ |
    ⟨w, i, v, hw, hd, hexec, rfl⟩
  · exact absurd (hrun.symm.trans hs) (by decide)
  all_goals have hrec := State.afterStep_faulted hfault
  · cases hrec
    exact ⟨rfl, hpcEnd _, rfl, rfl, hpc⟩
  · cases hrec
    exact ⟨rfl, hpcEnd _, rfl, hout, rfl, rfl⟩
  · rw [State.raise_status, hpcI] at hrec
    cases hrec
    exact ⟨rfl, hpcEnd _, rfl, rfl, hw, (decode_error_iff w).1 ⟨e, hd⟩⟩
  · have hruns : Runs s i := ⟨w, hw, hd⟩
    rcases exec_faulted (s := s.advance) hrun hexec hrec with ⟨hk, rfl⟩ | ⟨rfl, rfl, hc, rfl⟩
    · cases hrec
      refine ⟨hpcI, ?_⟩
      cases hk with
      | overflow r n hi hn =>
        refine ⟨hpcEnd _, rfl, hpcI, ?_⟩
        rcases hi.table hruns with ⟨rd, rs, rt, hadd, rfl⟩ | ⟨rd, rs, rt, hsub, rfl⟩ |
          ⟨rt, rs, imm, haddi, rfl⟩
        · exact .inl ⟨rd, rs, rt, hadd, hn⟩
        · exact .inr (.inl ⟨rd, rs, rt, hsub, hn⟩)
        · exact .inr (.inr ⟨rt, rs, imm, haddi, hn⟩)
      | divideByZero rs rt hi hz =>
        have hdiv : Runs s (.div rs rt) ∨ Runs s (.divu rs rt) := by
          rcases hi with rfl | rfl
          · exact .inl hruns
          · exact .inr hruns
        exact ⟨hpcEnd _, rfl, hpcI, rs, rt, hz, hdiv⟩
      | load rs imm n hi hr =>
        obtain ⟨rt, hload⟩ := hi.table hruns
        exact ⟨hpcEnd _, rfl, hr, rt, rs, imm, rfl, hload⟩
      | store rt rs imm n hi hr => exact ⟨hpcEnd _, rfl, hr, rt, rs, imm, rfl, hi.table hruns⟩
      | service a n hi hc hr =>
        subst hi
        exact ⟨hpcEnd _, rfl, hr, hruns, hc⟩
    · cases hrec
      exact ⟨hpcI, hpcEnd _, rfl, hpcI, hruns, hc⟩

end Sys2Proof.Machine

/-! ## Proofs: rules over every step (spec/10_state.md) -/

/-! ### What only some instructions change -/

namespace Sys2Proof.Machine

/-- What a body does to the snapshot and its mark: nothing; service 18 copies and clears the mark; service 19
sets the mark of a snapshot that exists (R173). -/
theorem exec_snapshot {i : Instr} {s t : State} (h : exec i s = .next t) :
    (t.snap = s.snap ∧ t.snapCompared = s.snapCompared) ∨
    (i = .syscall ∧ (s.reg 2).toNat = 18 ∧ t.snap = some s.takeSnapshot ∧ t.snapCompared = false) ∨
    (i = .syscall ∧ s.snap.isSome = true ∧ t.snap = s.snap ∧ t.snapCompared = true) := by
  cases exec_effect h with
  | serves t hi ht =>
    cases ht with
    | snapshots hc =>
      obtain ⟨q, hq⟩ := s.serviceSnapshot_eq
      rw [hq]
      exact .inr (.inl ⟨hi, hc, rfl, rfl⟩)
    | compares k r hk => exact .inr (.inr ⟨hi, by simp [hk], rfl, rfl⟩)
    | _ => exact .inl ⟨rfl, rfl⟩
  | _ => exact .inl ⟨rfl, rfl⟩

/-- A body changes memory only as a store or as one of the two services that read into a buffer. -/
theorem exec_keeps_mem {i : Instr} {s t : State} (h : exec i s = .next t) :
    t.mem = s.mem ∨ IsStore i ∨
      (i = .syscall ∧ ((s.reg 2).toNat = 8 ∨ (s.reg 2).toNat = 14)) := by
  cases exec_effect h with
  | stores rt rs imm n hi => cases hi <;> exact .inr (.inl trivial)
  | serves t hi ht =>
    cases ht with
    | readsLine r a bytes hc => exact .inr (.inr ⟨hi, .inl hc⟩)
    | readsFile r a bytes v hc => exact .inr (.inr ⟨hi, .inr hc⟩)
    | snapshots => exact .inl s.serviceSnapshot_mem
    | _ => exact .inl rfl
  | _ => exact .inl rfl

/-- A body changes HI and LO only as a multiplication or a division. -/
theorem exec_keeps_hiLo {i : Instr} {s t : State} (h : exec i s = .next t) :
    (t.hi = s.hi ∧ t.lo = s.lo) ∨ IsMulDiv i := by
  cases exec_effect h with
  | writesHiLo _ _ hi => exact .inr hi
  | drawsHiLo _ _ hi => exact .inr hi
  | serves t hi ht =>
    cases ht with
    | snapshots => exact .inl ⟨s.serviceSnapshot_hi, s.serviceSnapshot_lo⟩
    | _ => exact .inl ⟨rfl, rfl⟩
  | _ => exact .inl ⟨rfl, rfl⟩

/-- A body that is not jr leaves an aligned `pc` aligned. -/
theorem exec_keeps_aligned {i : Instr} {s t : State} (hpc : s.pc.toNat % 4 = 0)
    (h : exec i s = .next t) : t.pc.toNat % 4 = 0 ∨ ∃ rs, i = .jr rs := by
  cases exec_effect h with
  | jumps p hp => exact .inl (hp hpc)
  | linksAndJumps p hp => exact .inl (hp hpc)
  | returns rs hi => exact .inr ⟨rs, hi⟩
  | serves t hi ht =>
    cases ht with
    | snapshots => exact .inl (by rwa [s.serviceSnapshot_pc])
    | _ => exact .inl hpc
  | _ => exact .inl hpc

/-- A body that is neither syscall nor break asks the host nothing. -/
theorem exec_keeps_requests {i : Instr} {s t : State} (hsys : i ≠ .syscall) (hbrk : i ≠ .brk)
    (h : exec i s = .next t) : t.requests = s.requests := by
  cases exec_effect h with
  | suspends hi => exact absurd hi hbrk
  | serves t hi => exact absurd hi hsys
  | _ => rfl

/-- Settles O50: the requests and the snapshot are those of a body that is no syscall, and of what a body
does to the run only going on and a fault are left. -/
theorem onlySyscallAndBreakReachTheHost : Obligations.OnlySyscallAndBreakReachTheHost := by
  unfold Obligations.OnlySyscallAndBreakReachTheHost
  intro i s t hsys hbrk hexec
  obtain ⟨hsnap, hcompared⟩ : t.snap = s.snap ∧ t.snapCompared = s.snapCompared := by
    rcases exec_snapshot hexec with hkeeps | ⟨hi, -⟩ | ⟨hi, -⟩
    · exact hkeeps
    all_goals exact absurd hi hsys
  refine ⟨exec_keeps_requests hsys hbrk hexec, hsnap, hcompared, ?_⟩
  cases exec_run hexec with
  | goesOn hs => exact .inl hs
  | faults k => exact .inr ⟨k, s.pcI, rfl⟩
  | suspends hi => exact absurd hi hbrk
  | exits c hi => exact absurd hi hsys
  | refuses hi => exact absurd hi hsys

/-! ### What a step keeps when it runs no instruction -/

/-- HI, LO, memory and the snapshot are unchanged, and `pc` is unchanged or advanced. -/
def OnlyAdvances (s t : State) : Prop :=
  t.hi = s.hi ∧ t.lo = s.lo ∧ t.mem = s.mem ∧ t.snap = s.snap ∧ t.snapCompared = s.snapCompared ∧
    (t.pc = s.pc ∨ t.pc = s.pc + 4)

theorem OnlyAdvances.debuggerTurn (s : State) : OnlyAdvances s s.debuggerTurn := by
  rcases s.debuggerTurn_cases with ⟨-, hturn⟩ | ⟨-, hturn⟩ | ⟨-, hturn⟩ <;> rw [hturn] <;>
    exact ⟨rfl, rfl, rfl, rfl, rfl, .inl rfl⟩

theorem OnlyAdvances.afterStep {s v : State} (h : OnlyAdvances s v) : OnlyAdvances s v.afterStep := by
  simpa [OnlyAdvances] using h

/-- A step only advances, or it ran the body of the instruction it fetched. -/
theorem step_advances_or_runs {s t : State} (h : step s = .next t) :
    OnlyAdvances s t ∨ ∃ w i v, Fetches s w ∧ decode w = .ok i ∧ exec i s.advance = .next v ∧
      t = v.afterStep := by
  rcases step_cases h with ⟨-, rfl⟩ | ⟨-, -, rfl⟩ | ⟨-, -, -, rfl⟩ | ⟨w, e, -, -, rfl⟩ | hruns
  · exact .inl (.debuggerTurn s)
  · exact .inl (OnlyAdvances.afterStep ⟨rfl, rfl, rfl, rfl, rfl, .inl rfl⟩)
  · exact .inl (OnlyAdvances.afterStep ⟨rfl, rfl, rfl, rfl, rfl, .inl rfl⟩)
  · exact .inl (OnlyAdvances.afterStep ⟨rfl, rfl, rfl, rfl, rfl, .inr rfl⟩)
  · exact .inr hruns

/-- Settles O46: the end of the step and the advance keep memory, so a change is the body's. -/
theorem onlyStoresAndReadServicesChangeMemory : Obligations.OnlyStoresAndReadServicesChangeMemory := by
  unfold Obligations.OnlyStoresAndReadServicesChangeMemory
  intro s t hstep
  rcases step_advances_or_runs hstep with ⟨-, -, hmem, -⟩ | ⟨w, i, v, hw, hd, hexec, rfl⟩
  · exact .inl hmem
  rcases exec_keeps_mem hexec with hmem | hstore | ⟨hi, hcode⟩
  · exact .inl (v.afterStep_mem.trans hmem)
  · exact .inr ⟨w, i, hw, hd, .inl hstore⟩
  · have hservice : s.reg 2 = 8 ∨ s.reg 2 = 14 :=
      hcode.imp BitVec.eq_of_toNat_eq BitVec.eq_of_toNat_eq
    exact .inr ⟨w, i, hw, hd, .inr ⟨hi, hservice⟩⟩

/-- Settles O47: the end of the step and the advance keep HI and LO, so a change is the body's. -/
theorem onlyMultiplyAndDivideChangeHiLo : Obligations.OnlyMultiplyAndDivideChangeHiLo := by
  unfold Obligations.OnlyMultiplyAndDivideChangeHiLo
  intro s t hstep
  rcases step_advances_or_runs hstep with ⟨hhi, hlo, -⟩ | ⟨w, i, v, hw, hd, hexec, rfl⟩
  · exact .inl ⟨hhi, hlo⟩
  rcases exec_keeps_hiLo hexec with ⟨hhi, hlo⟩ | hi
  · exact .inl ⟨v.afterStep_hi.trans hhi, v.afterStep_lo.trans hlo⟩
  · exact .inr ⟨w, i, hw, hd, hi⟩

/-- Settles O48: service 18 is the only body that replaces the snapshot; 19 sets its mark only. -/
theorem onlyServiceEighteenChangesTheSnapshot : Obligations.OnlyServiceEighteenChangesTheSnapshot := by
  unfold Obligations.OnlyServiceEighteenChangesTheSnapshot
  intro s t hstep
  rcases step_advances_or_runs hstep with ⟨-, -, -, hsnap, -⟩ | ⟨w, i, v, hw, hd, hexec, rfl⟩
  · exact .inl hsnap
  rcases exec_snapshot hexec with ⟨hsnap, -⟩ | ⟨rfl, hcode, -⟩ | ⟨-, -, hsnap, -⟩
  · exact .inl (v.afterStep_snap.trans hsnap)
  · exact .inr ⟨w, hw, hd, BitVec.eq_of_toNat_eq hcode⟩
  · exact .inl (v.afterStep_snap.trans hsnap)

/-- The advance keeps an aligned `pc` aligned, where it wraps as elsewhere. -/
theorem toNat_add_four_aligned {a : Word} (h : a.toNat % 4 = 0) : (a + 4).toNat % 4 = 0 := by
  rw [BitVec.toNat_add]
  simp only [BitVec.reduceToNat]
  omega

/-- Settles O49: the advance keeps the alignment, and of the bodies only jr may not. -/
theorem onlyJrMisalignsThePc : Obligations.OnlyJrMisalignsThePc := by
  unfold Obligations.OnlyJrMisalignsThePc
  intro s t hpc hstep
  have hadvanced := toNat_add_four_aligned hpc
  rcases step_advances_or_runs hstep with ⟨-, -, -, -, -, hsame | hadv⟩ | ⟨w, i, v, hw, hd, hexec, rfl⟩
  · exact .inl (by rwa [hsame])
  · exact .inl (by rwa [hadv])
  rcases exec_keeps_aligned (s := s.advance) hadvanced hexec with haligned | ⟨rs, rfl⟩
  · exact .inl (by rwa [v.afterStep_pc])
  · exact .inr ⟨w, rs, hw, hd⟩

end Sys2Proof.Machine

/-! ### The invariant: what is stored, and the end of the run -/

namespace Sys2Proof.Machine

/-- The part of the invariant about memory and the snapshot. -/
structure State.StoredInv (s : State) : Prop where
  memWf : s.mem.wf
  sizeOk : 0 < s.mem.size ∧ s.mem.size ≤ 2 ^ 32
  snapWf : ∀ k, s.snap = some k → k.mem.wf ∧ k.mem.size = s.mem.size
  comparedSome : s.snapCompared = true → s.snap.isSome = true

/-- The part of the invariant about the fault record and the refused mark. -/
structure State.EndInv (s : State) : Prop where
  record : ∀ k p, s.status = .faulted k p → k.Recorded p s.pc s.mem.size
  refusedIff : s.refused = true ↔ ∃ p, s.status = .faulted (.unimplementedSyscall p) p

theorem State.inv_iff (s : State) :
    s.Inv ↔ s.StoredInv ∧ s.EndInv ∧ (s.stepping = true → s.status = .running) :=
  ⟨fun ⟨hmem, hsize, hsnap, hcompared, hstepping, hrecord, hrefused⟩ =>
      ⟨⟨hmem, hsize, hsnap, hcompared⟩, ⟨hrecord, hrefused⟩, hstepping⟩,
    fun ⟨⟨hmem, hsize, hsnap, hcompared⟩, ⟨hrecord, hrefused⟩, hstepping⟩ =>
      ⟨hmem, hsize, hsnap, hcompared, hstepping, hrecord, hrefused⟩⟩

/-! ### What is stored -/

/-- It depends on memory, the snapshot and its mark only. -/
theorem State.StoredInv.of_same {s t : State} (h : s.StoredInv) (hmem : t.mem = s.mem)
    (hsnap : t.snap = s.snap) (hcompared : t.snapCompared = s.snapCompared) : t.StoredInv := by
  obtain ⟨hwf, hsize, hsnapWf, hsome⟩ := h
  rw [← hmem] at hwf hsize hsnapWf
  rw [← hsnap] at hsnapWf hsome
  rw [← hcompared] at hsome
  exact ⟨hwf, hsize, hsnapWf, hsome⟩

/-- A body writes bytes inside memory, if any, which keeps the canonical form and the size. -/
theorem exec_keeps_wf {i : Instr} {s t : State} (h : exec i s = .next t) (hwf : s.mem.wf) :
    t.mem.wf ∧ t.mem.size = s.mem.size := by
  rcases exec_mem h with hmem | ⟨a, bytes, hin, hmem⟩ <;> rw [hmem]
  · exact ⟨hwf, rfl⟩
  · exact ⟨Memory.wf_setBytes hwf bytes hin, Memory.setBytes_size ..⟩

/-- A snapshot that a body takes is of the memory it ran on, and only an existing one is marked. -/
theorem State.StoredInv.exec {i : Instr} {s t : State} (hs : s.StoredInv) (h : exec i s = .next t) :
    t.StoredInv := by
  obtain ⟨hwf, hsize, hsnapWf, hsome⟩ := hs
  obtain ⟨hwf', hsame⟩ := exec_keeps_wf h hwf
  refine ⟨hwf', by rwa [hsame], fun k hk => ?snap, fun hc => ?compared⟩
  case snap =>
    rw [hsame]
    rcases exec_snapshot h with ⟨hsnap, -⟩ | ⟨-, -, hsnap, -⟩ | ⟨-, -, hsnap, -⟩ <;> rw [hsnap] at hk
    · exact hsnapWf k hk
    · cases hk
      exact ⟨hwf, rfl⟩
    · exact hsnapWf k hk
  case compared =>
    rcases exec_snapshot h with ⟨hsnap, hmark⟩ | ⟨-, -, -, hmark⟩ | ⟨-, hexists, hsnap, -⟩
    · rw [hsnap]
      exact hsome (hmark ▸ hc)
    · rw [hmark] at hc
      cases hc
    · rwa [hsnap]

/-! ### The end of the run -/

/-- A run that no fault has ended has nothing recorded, and no mark. -/
theorem State.EndInv.of_unfaulted {s : State} (hr : s.refused = false)
    (h : ∀ k p, s.status ≠ .faulted k p) : s.EndInv :=
  ⟨fun k p hk => absurd hk (h k p), by simp [hr, h]⟩

/-- A fault recorded where it fits, service 9's apart, leaves the run without the mark. -/
theorem State.EndInv.endFaulted {s : State} {k : FaultKind} {p : Word} (hr : s.refused = false)
    (hk : k.Recorded p s.pc s.mem.size) (hne : ∀ q, k ≠ .unimplementedSyscall q) :
    (s.endFaulted k p).EndInv := by
  refine ⟨fun k' p' h => ?_, by simp [hr, hne]⟩
  cases h
  exact hk

/-- The `pc` of a body stands 4 past `pc_i`. -/
theorem State.pc_eq_pcI_add_four (s : State) : s.pc = s.pcI + 4 := by
  rw [State.pcI, BitVec.sub_add_cancel]

/-- The refusal of service 9 is recorded and marked. -/
theorem State.EndInv.refuse (s : State) : s.refuse.EndInv := by
  refine ⟨fun k p h => ?_, by simp⟩
  cases h
  exact ⟨rfl, s.pc_eq_pcI_add_four⟩

/-- A fault that a body raises fits the state: `pc` stands 4 past `pc_i`, and an access that faults is not in
memory. -/
theorem Raises.recorded {s : State} {i : Instr} {k : FaultKind} (h : Raises s i k) :
    k.Recorded s.pcI s.pc s.mem.size := by
  have hpc := s.pc_eq_pcI_add_four
  cases h with
  | overflow => exact ⟨rfl, hpc⟩
  | divideByZero => exact ⟨rfl, hpc⟩
  | load _ _ _ _ hr => exact ⟨hpc, hr⟩
  | store _ _ _ _ _ hr => exact ⟨hpc, hr⟩
  | service _ _ _ _ hr => exact ⟨hpc, hr⟩

theorem Raises.ne_unimplementedSyscall {s : State} {i : Instr} {k : FaultKind} (h : Raises s i k)
    (q : Word) : k ≠ .unimplementedSyscall q := by
  cases h <;> exact fun hk => nomatch hk

/-- A body that runs in a running, unmarked state ends the run as the invariant has it, if it ends it. -/
theorem State.EndInv.exec {i : Instr} {s t : State} (hrun : s.status = .running)
    (hr : s.refused = false) (h : exec i s = .next t) : t.EndInv := by
  cases exec_run h with
  | goesOn hs hr' => exact .of_unfaulted (hr'.trans hr) (by simp [hs, hrun])
  | suspends _ hs hr' => exact .of_unfaulted (hr'.trans hr) (by simp [hs])
  | exits c _ hs hr' => exact .of_unfaulted (hr'.trans hr) (by simp [hs])
  | faults k hk => exact .endFaulted hr hk.recorded hk.ne_unimplementedSyscall
  | refuses => exact .refuse s

/-! ### Every step -/

/-- The end of a step restores the rule on single steps and keeps the others. -/
theorem State.Inv.afterStep {v : State} (hstored : v.StoredInv) (hend : v.EndInv) : v.afterStep.Inv := by
  have hfaulted (k : FaultKind) (p : Word) :
      v.afterStep.status = .faulted k p ↔ v.status = .faulted k p := by
    refine ⟨State.afterStep_faulted, fun h => ?_⟩
    rw [State.afterStep_status, if_neg (by simp [h]), h]
  refine v.afterStep.inv_iff.2 ⟨hstored.of_same v.afterStep_mem v.afterStep_snap v.afterStep_snapCompared,
    ⟨fun k p h => ?record, ?refused⟩, fun h => ?stepping⟩
  case record =>
    rw [State.afterStep_pc, State.afterStep_mem]
    exact hend.record k p ((hfaulted k p).1 h)
  case refused => simpa only [State.afterStep_refused, hfaulted] using hend.refusedIff
  case stepping =>
    rw [State.afterStep_stepping] at h
    cases h

/-- A run that no fault has ended is not marked. -/
theorem State.Inv.not_refused {s : State} (h : s.Inv) (hs : s.status = .running ∨ s.status = .suspended) :
    s.refused = false := by
  have hrefused := h.refusedIff
  rcases hs with hs | hs <;> simpa [hs] using hrefused

/-- The debugger's turn answers a run that goes on, and marks a single step only when it does. -/
theorem State.Inv.debuggerTurn {s : State} (h : s.Inv) (hs : s.status = .suspended) :
    s.debuggerTurn.Inv := by
  have hr := h.not_refused (.inr hs)
  obtain ⟨hstored, -, hstepping⟩ := s.inv_iff.1 h
  refine s.debuggerTurn.inv_iff.2 ?_
  rcases s.debuggerTurn_cases with ⟨-, hturn⟩ | ⟨-, hturn⟩ | ⟨-, hturn⟩ <;> rw [hturn]
  · exact ⟨hstored.of_same rfl rfl rfl, .of_unfaulted hr (by simp [hs]), hstepping⟩
  · exact ⟨hstored.of_same rfl rfl rfl, .of_unfaulted hr (by simp), fun _ => rfl⟩
  · exact ⟨hstored.of_same rfl rfl rfl, .of_unfaulted hr (by simp), fun _ => rfl⟩

/-- Settles O41: the parts of the invariant hold of the state a fetch fault, an illegal word or a body leaves,
and the end of the step adds the rule on single steps. -/
theorem everyStepKeepsTheInvariant : Obligations.EveryStepKeepsTheInvariant := by
  unfold Obligations.EveryStepKeepsTheInvariant
  intro s t hinv hstep
  obtain ⟨hstored, -, -⟩ := s.inv_iff.1 hinv
  have hunmarked (hrun : s.status = .running) : s.refused = false := hinv.not_refused (.inl hrun)
  rcases step_cases hstep with ⟨hs, rfl⟩ | ⟨hrun, hpc, rfl⟩ | ⟨hrun, hpc, hout, rfl⟩ |
    ⟨w, e, ⟨hrun, -⟩, hd, rfl⟩ | ⟨w, i, v, ⟨hrun, -⟩, -, hexec, rfl⟩
  · exact hinv.debuggerTurn hs
  · exact .afterStep (hstored.of_same rfl rfl rfl)
      (.endFaulted (hunmarked hrun) ⟨rfl, rfl, hpc⟩ fun _ h => nomatch h)
  · exact .afterStep (hstored.of_same rfl rfl rfl)
      (.endFaulted (hunmarked hrun) ⟨rfl, rfl, rfl, hpc, hout⟩ fun _ h => nomatch h)
  · have hkey : IllegalKey w := (decode_error_iff w).1 ⟨e, hd⟩
    have hpcI : s.pc = s.advance.pcI := s.advance_pcI.symm
    exact .afterStep (hstored.of_same rfl rfl rfl)
      (.endFaulted (hunmarked hrun) ⟨hpcI, s.advance.pc_eq_pcI_add_four, hkey⟩ fun _ h => nomatch h)
  · have hadvanced : s.advance.StoredInv := hstored.of_same rfl rfl rfl
    exact .afterStep (hadvanced.exec hexec) (.exec (s := s.advance) hrun (hunmarked hrun) hexec)

/-- Settles O42: `State.reset` lists no cell and is running, without a snapshot. -/
theorem resetMeetsTheInvariant : Obligations.ResetMeetsTheInvariant := by
  unfold Obligations.ResetMeetsTheInvariant
  exact State.reset.inv_iff.2
    ⟨⟨Memory.wf_empty _, by decide, fun _ h => (nomatch h), fun h => (nomatch h)⟩,
      .of_unfaulted rfl (fun _ _ h => nomatch h), fun h => nomatch h⟩

end Sys2Proof.Machine

/-! ## Proofs: the step (spec/40_dispatch.md) -/

namespace Sys2Proof.Machine

/-- Settles O1: each word's key is a row of the decoder's tables. -/
theorem wordsDecodeAsTheSpecEncodesThem : Obligations.WordsDecodeAsTheSpecEncodesThem := by
  unfold Obligations.WordsDecodeAsTheSpecEncodesThem
  decide

/-- When no single step is under way, the step of a decoded word is its body in the advanced state. -/
theorem step_of_decoded_of_not_stepping {s : State} {w : Word} {i : Instr} (hns : s.stepping = false)
    (h : Fetches s w) (hd : decode w = .ok i) : step s = exec i s.advance := by
  obtain ⟨v, hexec⟩ := everyBodyAnswersANextState i s.advance
  have hv : v.afterStep = v := State.afterStep_of_not_stepping ((exec_stepping hexec).trans hns)
  rw [step_of_decoded h hd, hexec, mapNext, hv]

/-- The advance, as the rule states it (R101). -/
theorem State.advance_eq_wrap32 (s : State) :
    s.advance = { s with pc := wrap32 ((s.pc.toNat + 4 : Nat) : Int) } := by
  have hpc : wrap32 ((s.pc.toNat + 4 : Nat) : Int) = s.pc + 4 := wrap32_add s.pc 4
  rw [hpc]
  rfl

/-- Settles O6: the step of a decoded word is its body in the advanced state, and the end of the step. -/
theorem stepRunsTheDecodedInstruction : Obligations.StepRunsTheDecodedInstruction := by
  unfold Obligations.StepRunsTheDecodedInstruction
  intro s w i hw hd
  rw [← s.advance_eq_wrap32]
  exact ⟨step_of_decoded hw hd, fun hns => step_of_decoded_of_not_stepping hns hw hd⟩

theorem step_of_exited {s : State} {c : Word} (h : s.status = .exited c) :
    step s = .fault (.runExited c) := by
  simp [step, stepOnce, h]

theorem step_of_faulted {s : State} {k : FaultKind} {p : Word} (h : s.status = .faulted k p)
    (hr : s.refused = false) : step s = .fault (.runFaulted k p) := by
  simp [step, stepOnce, h, hr]

theorem step_of_refused {s : State} {k : FaultKind} {p : Word} (h : s.status = .faulted k p)
    (hr : s.refused = true) : step s = .refused (.unimplementedSyscall p) := by
  simp [step, stepOnce, h, hr]

/-- Settles O9: the step of an ended run is one of its three named answers. -/
theorem endedRunsTakeNoStep : Obligations.EndedRunsTakeNoStep := by
  unfold Obligations.EndedRunsTakeNoStep
  exact ⟨fun _ _ => step_of_exited, fun _ _ _ => step_of_faulted, fun _ _ _ => step_of_refused⟩

/-- Settles O18: the word 0 is sll of register 0 by 0, whose body is the identity on states. -/
theorem zeroWordOnlyAdvances : Obligations.ZeroWordOnlyAdvances := by
  unfold Obligations.ZeroWordOnlyAdvances
  have hzero : decode 0 = .ok (.sll 0 0 0) := by decide
  refine ⟨hzero, fun s hw => ⟨s.advance.afterStep, ?step, State.afterStep_pc _,
    fun k _ => State.reg_afterStep _ k, ⟨State.afterStep_hi _, State.afterStep_lo _⟩, ?memory⟩⟩
  case step => rw [step_of_decoded hw hzero, exec_sll_zero, mapNext]
  case memory =>
    rw [KeepsMemory, State.afterStep_mem]
    exact ⟨rfl, fun _ => rfl⟩

/-- A step of a running state ends with `afterStep`, and nothing before that touches the single-step
mark. -/
theorem step_ends_afterStep {s t : State} (hrun : s.status = .running) (h : step s = .next t) :
    ∃ v : State, v.stepping = s.stepping ∧ t = v.afterStep := by
  rcases step_cases h with ⟨hs, -⟩ | ⟨-, -, rfl⟩ | ⟨-, -, -, rfl⟩ | ⟨_, _, -, -, rfl⟩ |
    ⟨_, _, v, -, -, hexec, rfl⟩
  · exact absurd (hrun.symm.trans hs) (by decide)
  · exact ⟨s.endFaulted _ _, rfl, rfl⟩
  · exact ⟨s.endFaulted _ _, rfl, rfl⟩
  · exact ⟨s.advance.raise _, rfl, rfl⟩
  · exact ⟨v, exec_stepping (s := s.advance) hexec, rfl⟩

/-- After a single step the run is not running: it is suspended again, or was over (R165). -/
theorem State.afterStep_not_running {s : State} (h : s.stepping = true) :
    s.afterStep.status ≠ .running := by
  rw [State.afterStep_status]
  by_cases hrun : s.status = .running <;> simp [h, hrun]

/-- Settles O8: the debugger's turn has one case per answer, and a single step ends with `afterStep`. -/
theorem debuggerTurnsAndSingleSteps : Obligations.DebuggerTurnsAndSingleSteps := by
  unfold Obligations.DebuggerTurnsAndSingleSteps
  refine ⟨fun s hs => ⟨_, step_of_suspended hs, .debuggerTurn s, ?turn⟩,
    fun s t hrun hstepping hstep => ?step⟩
  case turn =>
    rcases s.debuggerTurn_cases with ⟨hanswer, hturn⟩ | ⟨hanswer, hturn⟩ | ⟨hanswer, hturn⟩ <;>
      rw [hanswer, hturn]
    · exact ⟨rfl, hs, rfl⟩
    · exact ⟨rfl, rfl, rfl⟩
    · exact ⟨rfl, rfl, rfl⟩
  case step =>
    obtain ⟨v, hv, rfl⟩ := step_ends_afterStep hrun hstep
    exact ⟨State.afterStep_not_running (hv.trans hstepping), v.afterStep_stepping⟩

/-- Where a word was written, it is read back (R45). -/
theorem Memory.read_setBytes_word {m : Memory} {a : Nat} (v : Word) (h : a + 4 ≤ m.size) :
    (m.setBytes a (Memory.bytesOf v 4)).read a 4 = some v := by
  simpa using Memory.read_of_write (Memory.write_eq_some.2 ⟨h, rfl⟩) (v := v) (k := 0) (w := 4) (by omega)

/-- Settles O26: the store leaves `pc` and the run as they were, so the next step fetches at the address just
written. -/
theorem storedWordIsFetchedNext : Obligations.StoredWordIsFetchedNext := by
  unfold Obligations.StoredWordIsFetchedNext
  intro rt rs imm s i hrun hns hpc hin haddr hd
  rw [← haddr] at hin
  refine .of_eq (by rw [exec_sw, State.store_of_inRange s rt rs imm hin]) ?_
  refine step_of_decoded_of_not_stepping hns ⟨hrun, hpc, ?_⟩ hd
  rw [State.setMem_pc, State.setMem_mem, ← haddr]
  exact Memory.read_setBytes_word _ hin

end Sys2Proof.Machine

/-! ## Proofs: services and break (spec/44_r_control_system.md) -/

namespace Sys2Proof.Machine

/-- Settles O31: 13 and 15 are one answered request, after the string or the range is found in memory, and 16
is one request. -/
theorem fileServicesPassHandlesInRegisters : Obligations.FileServicesPassHandlesInRegisters := by
  unfold Obligations.FileServicesPassHandlesInRegisters
  exact fun s =>
    ⟨fun n h hn hne hz => .of_terminated (exec_syscall_of_code h) hn hne hz
        (AnswersInCodeReg.ask_setReg_drew s _ _),
      fun h hin => .of_inRange (exec_syscall_of_code h) hin (AnswersInCodeReg.ask_setReg_drew s _ _),
      fun h => .of_ask (exec_syscall_of_code h)⟩

/-- Settles O32: service 9 is the refusal, which writes the record and the mark, and a marked run is refused
its next step. -/
theorem allocatorServiceIsRefused : Obligations.AllocatorServiceIsRefused := by
  unfold Obligations.AllocatorServiceIsRefused
  exact fun s h => .of_eq (exec_syscall_of_code h)
    ⟨rfl, rfl, .refl s, ⟨rfl, rfl⟩, step_of_refused s.refuse_status s.refuse_refused⟩

/-- What service 18 leaves of the snapshot, and what it asks (R173). -/
theorem State.serviceSnapshot_takes (s : State) :
    s.serviceSnapshot.snap = some s.takeSnapshot ∧ s.serviceSnapshot.snapCompared = false ∧
      s.serviceSnapshot.requests = if s.snap.isSome = true ∧ s.snapCompared = false
        then .snapshotNeverCompared :: s.requests else s.requests := by
  by_cases h : s.snap.isSome = true ∧ s.snapCompared = false <;>
    simp [State.serviceSnapshot, h]

/-- Settles O34: 18 copies the state it runs in, and 19 counts against the copy, if there is one. -/
theorem snapshotServicesCopyAndCompare : Obligations.SnapshotServicesCopyAndCompare := by
  unfold Obligations.SnapshotServicesCopyAndCompare
  refine fun s => ⟨fun h => .of_eq (exec_syscall_of_code h) ⟨?frame, s.serviceSnapshot_takes⟩,
    fun k h hk => ?compare, fun h hnone => ?nothing⟩
  case frame =>
    have hmem := s.serviceSnapshot_mem
    exact ⟨fun r _ => congrArg (·[r]) s.serviceSnapshot_regs, s.serviceSnapshot_pc,
      ⟨s.serviceSnapshot_hi, s.serviceSnapshot_lo⟩,
      ⟨congrArg Memory.size hmem, fun a => congrArg (Memory.byte · a) hmem⟩,
      ⟨s.serviceSnapshot_status, s.serviceSnapshot_refused, s.serviceSnapshot_stepping⟩,
      s.serviceSnapshot_draws⟩
  case compare =>
    have hserve : s.serviceCompare = { s with snapCompared := true }.ask (.snapshotDiff
        (s.countRegDiff k) (s.countSpecialDiff k) (s.mem.countDiff k.mem)) := by
      rw [State.serviceCompare, hk]
    refine .of_eq ((exec_syscall_of_code h).trans (congrArg _ hserve)) ?_
    exact ⟨⟨fun _ _ => rfl, rfl, ⟨rfl, rfl⟩, ⟨rfl, fun _ => rfl⟩, ⟨rfl, rfl, rfl⟩, rfl⟩, rfl, rfl, _, rfl⟩
  case nothing =>
    have hserve : s.serviceCompare = s := by rw [State.serviceCompare, hnone]
    exact (exec_syscall_of_code h).trans (congrArg _ hserve)

/-- The status the debugger's turn of a suspended run leaves. -/
theorem State.debuggerTurn_status {s : State} (h : s.status = .suspended) :
    s.debuggerTurn.status = if Config.drawDebug s.draws = none then .suspended else .running := by
  rcases s.debuggerTurn_cases with ⟨hanswer, hturn⟩ | ⟨hanswer, hturn⟩ | ⟨hanswer, hturn⟩ <;>
    simp [hanswer, hturn, h]

/-- Settles O36: break is the suspension, and the step after it is the debugger's turn. -/
theorem breakSuspendsForTheDebugger : Obligations.BreakSuspendsForTheDebugger := by
  unfold Obligations.BreakSuspendsForTheDebugger
  refine ⟨.of_row fun w hfunct => ?selection, fun s => .of_eq (exec_brk s) ?effect⟩
  case selection => simp only [decodeSpecial, hfunct]
  case effect =>
    exact ⟨rfl, rfl, rfl, .refl s, rfl, rfl, _, step_of_suspended s.suspend_status, .debuggerTurn _,
      State.debuggerTurn_status s.suspend_status⟩

end Sys2Proof.Machine

/-! ## Proofs: past requests (spec/10_state.md R30) -/

/-! ### The shared operations -/

namespace Sys2Proof.Machine

/-- `t` is `s` but for the list of past requests. -/
def SameButRequests (s t : State) : Prop := ∃ q, t = { s with requests := q }

section Operations
variable {s t : State} (h : SameButRequests s t)
include h

theorem SameButRequests.setRegChecked (r : Reg) (n : Int) :
    SameButRequests (s.setRegChecked r n) (t.setRegChecked r n) := by
  obtain ⟨q, rfl⟩ := h
  unfold State.setRegChecked
  split <;> exact ⟨q, rfl⟩

theorem SameButRequests.branchIf (c : Bool) (imm : BitVec 16) :
    SameButRequests (s.branchIf c imm) (t.branchIf c imm) := by
  obtain ⟨q, rfl⟩ := h
  cases c <;> exact ⟨q, rfl⟩

theorem SameButRequests.divSigned (a b : Int) :
    SameButRequests (s.divSigned a b) (t.divSigned a b) := by
  obtain ⟨q, rfl⟩ := h
  unfold State.divSigned
  split
  · exact ⟨q, rfl⟩
  · split <;> exact ⟨q, rfl⟩

theorem SameButRequests.divUnsigned (a b : Nat) :
    SameButRequests (s.divUnsigned a b) (t.divUnsigned a b) := by
  obtain ⟨q, rfl⟩ := h
  unfold State.divUnsigned
  split <;> exact ⟨q, rfl⟩

theorem SameButRequests.load (rt rs : Reg) (imm : BitVec 16) (n : Nat) (ext : Word → Word) :
    SameButRequests (s.load rt rs imm n ext) (t.load rt rs imm n ext) := by
  obtain ⟨q, rfl⟩ := h
  rcases Nat.lt_or_ge s.mem.size ((s.effAddr rs imm).toNat + n) with hout | hin
  · rw [s.load_of_outside rt rs imm ext hout,
      State.load_of_outside { s with requests := q } rt rs imm ext hout]
    exact ⟨q, rfl⟩
  · rw [s.load_of_inRange rt rs imm ext hin,
      State.load_of_inRange { s with requests := q } rt rs imm ext hin]
    exact ⟨q, rfl⟩

theorem SameButRequests.store (rt rs : Reg) (imm : BitVec 16) (n : Nat) :
    SameButRequests (s.store rt rs imm n) (t.store rt rs imm n) := by
  obtain ⟨q, rfl⟩ := h
  rcases Nat.lt_or_ge s.mem.size ((s.effAddr rs imm).toNat + n) with hout | hin
  · rw [s.store_of_outside rt rs imm hout,
      State.store_of_outside { s with requests := q } rt rs imm hout]
    exact ⟨q, rfl⟩
  · rw [s.store_of_inRange rt rs imm hin,
      State.store_of_inRange { s with requests := q } rt rs imm hin]
    exact ⟨q, rfl⟩

theorem SameButRequests.afterStep : SameButRequests s.afterStep t.afterStep := by
  obtain ⟨q, rfl⟩ := h
  unfold State.afterStep
  dsimp only
  split <;> exact ⟨q, rfl⟩

theorem SameButRequests.debuggerTurn : SameButRequests s.debuggerTurn t.debuggerTurn := by
  obtain ⟨q, rfl⟩ := h
  unfold State.debuggerTurn
  dsimp only
  split <;> exact ⟨q, rfl⟩

/-! ### The services -/

/-- The range check reads memory only. -/
theorem SameButRequests.withRange (a n : Nat) {body body' : State} (hbody : SameButRequests body body') :
    SameButRequests (s.withRange a n body) (t.withRange a n body') := by
  obtain ⟨q, rfl⟩ := h
  unfold State.withRange
  dsimp only
  split
  · exact hbody
  · exact ⟨q, rfl⟩

/-- The string check reads memory only. -/
theorem SameButRequests.withString (a : Nat) {body body' : List Byte → State}
    (hbody : ∀ bytes, SameButRequests (body bytes) (body' bytes)) :
    SameButRequests (s.withString a body) (t.withString a body') := by
  obtain ⟨q, rfl⟩ := h
  unfold State.withString
  dsimp only
  split
  · exact hbody _
  · exact ⟨q, rfl⟩

theorem SameButRequests.serviceSnapshot : SameButRequests s.serviceSnapshot t.serviceSnapshot := by
  obtain ⟨q, rfl⟩ := h
  unfold State.serviceSnapshot
  dsimp only
  split <;> exact ⟨_, rfl⟩

theorem SameButRequests.serviceCompare : SameButRequests s.serviceCompare t.serviceCompare := by
  obtain ⟨q, rfl⟩ := h
  unfold State.serviceCompare
  dsimp only
  split <;> exact ⟨_, rfl⟩

/-- Services 4, 8, 13, 14 and 15 do so after their check, and every other one at once. -/
theorem SameButRequests.service (code : Nat) : SameButRequests (s.service code) (t.service code) := by
  obtain ⟨q, rfl⟩ := h
  have hsame : SameButRequests s { s with requests := q } := ⟨q, rfl⟩
  unfold State.service
  split
  case h_2 | h_9 => exact hsame.withString _ fun _ => ⟨_, rfl⟩
  case h_4 | h_10 | h_11 => exact hsame.withRange _ _ ⟨_, rfl⟩
  case h_14 => exact hsame.serviceSnapshot
  case h_15 => exact hsame.serviceCompare
  all_goals exact ⟨_, rfl⟩

/-! ### The bodies and the step -/

/-- Every body, by its equation. -/
theorem SameButRequests.exec {i : Instr} {s' : State} (hexec : exec i s = .next s') :
    ∃ t', Machine.exec i t = .next t' ∧ SameButRequests s' t' := by
  obtain ⟨q, rfl⟩ := h
  have hsame : SameButRequests s { s with requests := q } := ⟨q, rfl⟩
  have hlinked : SameButRequests s.link { s.link with requests := q } := ⟨q, rfl⟩
  cases i <;> cases hexec <;> refine ⟨_, rfl, ?_⟩
  case add | sub | addi => exact hsame.setRegChecked ..
  case beq | bne | blez | bgtz | bltz | bgez => exact hsame.branchIf ..
  case bltzal | bgezal => exact hlinked.branchIf ..
  case div => exact hsame.divSigned ..
  case divu => exact hsame.divUnsigned ..
  case lb | lh | lw | lbu | lhu => exact hsame.load ..
  case sb | sh | sw => exact hsame.store ..
  case syscall => exact hsame.service _
  all_goals exact ⟨_, rfl⟩

/-- Every step: no case of it depends on the list, and each ends in the same state but for it. -/
theorem SameButRequests.step {s' : State} (hstep : step s = .next s') :
    ∃ t', Machine.step t = .next t' ∧ SameButRequests s' t' := by
  obtain ⟨q, rfl⟩ := h
  have hsame : SameButRequests s { s with requests := q } := ⟨q, rfl⟩
  rcases step_cases hstep with ⟨hs, rfl⟩ | ⟨hrun, hpc, rfl⟩ | ⟨hrun, hpc, hout, rfl⟩ | ⟨w, e, hw, hd, rfl⟩ |
    ⟨w, i, v, hw, hd, hexec, rfl⟩
  · exact ⟨_, step_of_suspended hs, hsame.debuggerTurn⟩
  · exact ⟨_, step_of_fetch_error hrun (State.fetch_of_misaligned hpc), .afterStep ⟨q, rfl⟩⟩
  · exact ⟨_, step_of_fetch_error hrun (State.fetch_of_outside hpc hout), .afterStep ⟨q, rfl⟩⟩
  · exact ⟨_, step_of_illegal hw hd, .afterStep ⟨q, rfl⟩⟩
  · have hadvanced : SameButRequests s.advance { s.advance with requests := q } := ⟨q, rfl⟩
    obtain ⟨v', hexec', hv⟩ := hadvanced.exec hexec
    have hstep' := step_of_decoded (s := { s with requests := q }) hw hd
    exact ⟨_, hstep'.trans (congrArg (mapNext _) hexec'), hv.afterStep⟩

end Operations

/-- Settles O52: the state with another list is the same but for it, and so is the step's. -/
theorem pastRequestsInfluenceNothing : Obligations.PastRequestsInfluenceNothing := by
  unfold Obligations.PastRequestsInfluenceNothing
  intro s t q hstep
  have hsame : SameButRequests s { s with requests := q } := ⟨q, rfl⟩
  obtain ⟨t', hstep', q', rfl⟩ := hsame.step hstep
  exact ⟨q', hstep'⟩

end Sys2Proof.Machine

/-! ## Proofs: construction (spec/70_reset_and_hazards.md) -/

/-! ### The load constraints -/

namespace Sys2Proof.Machine

/-- A segment lies in memory (R242). -/
theorem segmentInside_iff (memSize : Nat) (base : Int) (len : Nat) :
    WellFormed.segmentInside memSize base len = true ↔ 0 ≤ base ∧ base + len ≤ memSize := by
  simp [WellFormed.segmentInside]

/-- The two constraints on the data segment, which hold where there is none (R242). -/
theorem dataInside_and_segmentsDisjoint_iff (memSize : Nat) (img : Config.Image) :
    WellFormed.dataInside memSize img = true ∧ WellFormed.segmentsDisjoint img = true ↔
      ∀ bytes base, img.data = some (bytes, base) →
        0 ≤ base ∧ base + bytes.length ≤ memSize ∧
        (0 < bytes.length →
          img.progBase + img.text.length ≤ base ∨ base + bytes.length ≤ img.progBase) := by
  unfold WellFormed.dataInside WellFormed.segmentsDisjoint
  rcases img.data with _ | ⟨bytes, base⟩
  · simp
  · simp only [segmentInside_iff, Bool.or_eq_true, decide_eq_true_eq, Option.some.injEq, Prod.mk.injEq]
    constructor
    · rintro ⟨⟨hlow, hhigh⟩, hdisjoint⟩ _ _ ⟨rfl, rfl⟩
      exact ⟨hlow, hhigh, by omega⟩
    · intro h
      obtain ⟨hlow, hhigh, hdisjoint⟩ := h bytes base ⟨rfl, rfl⟩
      exact ⟨⟨hlow, hhigh⟩, by omega⟩

/-- The constraints of R242 and R245 on an image, as propositions. -/
theorem image_wellFormed_iff (p : Config.Params) (img : Config.Image) : WellFormed.image p img = true ↔
    (0 < p.memSize ∧ p.memSize ≤ 2 ^ 32) ∧
    (0 < img.text.length ∧ img.text.length % 4 = 0) ∧ img.progBase % 4 = 0 ∧
    (0 ≤ img.progBase ∧ img.progBase + img.text.length ≤ p.memSize) ∧
    (∀ bytes base, img.data = some (bytes, base) →
      0 ≤ base ∧ base + bytes.length ≤ p.memSize ∧
      (0 < bytes.length →
        img.progBase + img.text.length ≤ base ∨ base + bytes.length ≤ img.progBase)) ∧
    p.initPc = img.progBase := by
  rw [← dataInside_and_segmentsDisjoint_iff, ← segmentInside_iff]
  simp only [WellFormed.image, WellFormed.memSize, WellFormed.textLength, WellFormed.progBaseAligned,
    Bool.and_eq_true, decide_eq_true_eq, and_assoc]

/-- A check in front of others answers no error when it holds and the others answer none. -/
theorem ite_not_some_eq_none_iff {b : Bool} {e : LoadError} {rest : Option LoadError} :
    (if !b then some e else rest) = none ↔ b = true ∧ rest = none := by
  cases b <;> simp

/-- The error is the first constraint that fails: there is none exactly when all hold. -/
theorem imageError_eq_none_iff (p : Config.Params) (img : Config.Image) :
    imageError p img = none ↔ WellFormed.image p img = true := by
  have hlast : (if p.initPc ≠ img.progBase then some LoadError.initPcMismatch else none) = none ↔
      p.initPc = img.progBase := by simp
  simp only [imageError, ite_not_some_eq_none_iff, hlast, WellFormed.image, Bool.and_eq_true,
    decide_eq_true_eq, and_assoc]

/-- What construction answers. -/
theorem construct_eq_ok_iff (p : Config.Params) (img : Config.Image) (s : State) :
    construct p img = .ok s ↔ WellFormed.image p img = true ∧ s = initialState p img := by
  rw [← imageError_eq_none_iff, construct]
  cases imageError p img <;> simp [eq_comm]

/-- Settles O38: construction answers exactly when no constraint fails. -/
theorem loadConstraintsAreExact : Obligations.LoadConstraintsAreExact := by
  unfold Obligations.LoadConstraintsAreExact
  intro p img
  rw [← image_wellFormed_iff]
  simp only [construct_eq_ok_iff, exists_and_left, exists_eq, and_true]

/-! ### The state construction builds -/

/-- Settles O40: each value is the reset state's own. -/
theorem resetStateIsAsTheSpecGives : Obligations.ResetStateIsAsTheSpecGives := by
  unfold Obligations.ResetStateIsAsTheSpecGives
  decide

theorem initialState_reg (p : Config.Params) (img : Config.Image) (r : Reg) :
    (initialState p img).reg r = if r = 0 then 0 else p.initGpr r := by
  simp [State.reg, initialState]

section Memory
variable {p : Config.Params} {img : Config.Image} (h : WellFormed.image p img = true)

@[simp] theorem imageMemory_size : (imageMemory p img).size = p.memSize := by
  unfold imageMemory
  split <;> simp [Memory.ofFn]

/-- The memory with the text, before the data (R240). -/
theorem imageMemory_of_data {bytes : List Byte} {base : Int} (hd : img.data = some (bytes, base)) :
    imageMemory p img = ((Memory.ofFn p.memSize p.initMem).setBytes img.progBase.toNat img.text).setBytes
      base.toNat bytes := by
  rw [imageMemory, hd]

theorem imageMemory_of_no_data (hd : img.data = none) :
    imageMemory p img = (Memory.ofFn p.memSize p.initMem).setBytes img.progBase.toNat img.text := by
  rw [imageMemory, hd]

/-- A byte that the data segment does not cover is that of the memory with the text. -/
theorem imageMemory_byte_outside_data {a : Nat} (ha : ∀ bytes base, img.data = some (bytes, base) →
      a < base.toNat ∨ base.toNat + bytes.length ≤ a) :
    (imageMemory p img).byte a =
      ((Memory.ofFn p.memSize p.initMem).setBytes img.progBase.toNat img.text).byte a := by
  rcases hd : img.data with _ | ⟨bytes, base⟩
  · rw [imageMemory_of_no_data hd]
  · rw [imageMemory_of_data hd, Memory.byte_setBytes_outside _ _ _ (ha bytes base hd)]

/-- The data stands at its address. -/
theorem imageMemory_data {bytes : List Byte} {base : Int} (hd : img.data = some (bytes, base)) {k : Nat}
    (hk : k < bytes.length) : (imageMemory p img).byte (base.toNat + k) = bytes.getD k 0 := by
  rw [imageMemory_of_data hd, Memory.byte_setBytes, if_pos (by omega), Nat.add_sub_cancel_left]

include h

/-- The segments are written inside memory, which keeps the canonical form. -/
theorem imageMemory_wf : (imageMemory p img).wf := by
  obtain ⟨-, -, -, ⟨hlow, hhigh⟩, hdata, -⟩ := (image_wellFormed_iff p img).1 h
  have htext : ((Memory.ofFn p.memSize p.initMem).setBytes img.progBase.toNat img.text).wf := by
    refine Memory.wf_setBytes (Memory.wf_ofFn ..) _ ?_
    simp only [Memory.ofFn]
    omega
  rcases hd : img.data with _ | ⟨bytes, base⟩
  · rwa [imageMemory_of_no_data hd]
  · obtain ⟨hdlow, hdhigh, -⟩ := hdata bytes base hd
    rw [imageMemory_of_data hd]
    refine Memory.wf_setBytes htext _ ?_
    simp only [Memory.setBytes_size, Memory.ofFn]
    omega

/-- The text stands at its address: the data, if there is any, lies elsewhere. -/
theorem imageMemory_text {k : Nat} (hk : k < img.text.length) :
    (imageMemory p img).byte (img.progBase.toNat + k) = img.text.getD k 0 := by
  obtain ⟨-, -, -, ⟨hlow, hhigh⟩, hdata, -⟩ := (image_wellFormed_iff p img).1 h
  have hout : ∀ bytes base, img.data = some (bytes, base) →
      img.progBase.toNat + k < base.toNat ∨ base.toNat + bytes.length ≤ img.progBase.toNat + k := by
    intro bytes base hd
    obtain ⟨hdlow, -, hdisjoint⟩ := hdata bytes base hd
    omega
  rw [imageMemory_byte_outside_data hout, Memory.byte_setBytes, if_pos (by omega), Nat.add_sub_cancel_left]

/-- `init_mem` stands everywhere else. -/
theorem imageMemory_elsewhere {a : Nat} (ha : a < p.memSize)
    (htext : (a : Int) < img.progBase ∨ img.progBase + img.text.length ≤ a)
    (hdata : ∀ bytes base, img.data = some (bytes, base) → (a : Int) < base ∨ base + bytes.length ≤ a) :
    (imageMemory p img).byte a = p.initMem a := by
  obtain ⟨-, -, -, ⟨hlow, -⟩, hdataIn, -⟩ := (image_wellFormed_iff p img).1 h
  have hout : ∀ bytes base, img.data = some (bytes, base) →
      a < base.toNat ∨ base.toNat + bytes.length ≤ a := by
    intro bytes base hd
    have hbase := (hdataIn bytes base hd).1
    have hside := hdata bytes base hd
    omega
  rw [imageMemory_byte_outside_data hout, Memory.byte_setBytes_outside _ _ _ (by omega),
    Memory.byte_ofFn _ _ ha]

/-- The load address fits a word. -/
theorem initialState_pc : ((initialState p img).pc.toNat : Int) = img.progBase := by
  obtain ⟨⟨-, hsize⟩, ⟨hlen, -⟩, -, ⟨hlow, hhigh⟩, -⟩ := (image_wellFormed_iff p img).1 h
  rw [initialState, wrap32_toNat]
  omega

end Memory

/-- Settles O37: the constructed state is `initialState`, field by field. -/
theorem constructionBuildsTheResetState : Obligations.ConstructionBuildsTheResetState := by
  unfold Obligations.ConstructionBuildsTheResetState
  intro p img h
  exact ⟨initialState p img, (construct_eq_ok_iff p img _).2 ⟨h, rfl⟩, initialState_reg p img 0,
    fun r hr => (initialState_reg p img r).trans (if_neg hr), rfl, rfl, initialState_pc h, imageMemory_size,
    fun k hk => imageMemory_text h hk, fun bytes base hd k hk => imageMemory_data hd hk,
    fun a ha htext hdata => imageMemory_elsewhere h ha htext hdata, rfl, rfl, rfl⟩

/-- Settles O43: the constructed memory is canonical and of the size that was asked for, and the run goes on,
without a snapshot. -/
theorem constructionMeetsTheInvariant : Obligations.ConstructionMeetsTheInvariant := by
  unfold Obligations.ConstructionMeetsTheInvariant
  intro p img s hs
  obtain ⟨h, rfl⟩ := (construct_eq_ok_iff p img s).1 hs
  obtain ⟨hsize, -⟩ := (image_wellFormed_iff p img).1 h
  have hsize' : 0 < (imageMemory p img).size ∧ (imageMemory p img).size ≤ 2 ^ 32 := by
    rwa [imageMemory_size]
  exact (initialState p img).inv_iff.2
    ⟨⟨imageMemory_wf h, hsize', fun _ hk => (nomatch hk), fun hc => (nomatch hc)⟩,
      .of_unfaulted rfl (fun _ _ hf => nomatch hf), fun hc => nomatch hc⟩

end Sys2Proof.Machine

/-! ### Containers (R241) -/

namespace Sys2Proof.Machine

/-- An int32 value in its field reads back, and the bytes after it are left. -/
theorem readInt32_int32Bytes_append {v : Int} (h : -2 ^ 31 ≤ v ∧ v < 2 ^ 31) (rest : List Byte) :
    readInt32 (int32Bytes v ++ rest) = .ok (v, rest) := by
  simp only [int32Bytes, bytesOfWord, List.cons_append, List.nil_append, readInt32, wordOfBytes_bytesOfWord,
    wrap32_toInt h]

/-- As many bytes as a segment has split that segment off. -/
theorem splitBytes_append (bytes rest : List Byte) :
    splitBytes bytes.length (bytes ++ rest) = .ok (bytes, rest) := by
  simp [splitBytes]

/-- The bytes of the data part of a container (R241). -/
def dataPart (data : Option (List Byte × Int)) : List Byte :=
  match data with
  | none => []
  | some (bytes, base) => dataMagic ++ int32Bytes bytes.length ++ int32Bytes base ++ bytes

theorem containerBytes_eq (img : Config.Image) : containerBytes img =
    textMagic ++ int32Bytes img.text.length ++ int32Bytes img.progBase ++ img.text ++ dataPart img.data := rfl

/-- The data part reads back, with or without data. -/
theorem parseData_dataPart {data : Option (List Byte × Int)}
    (h : ∀ bytes base, data = some (bytes, base) →
      bytes.length < 2 ^ 31 ∧ -2 ^ 31 ≤ base ∧ base < 2 ^ 31) :
    parseData (dataPart data) = .ok data := by
  rcases data with _ | ⟨bytes, base⟩
  · rfl
  · obtain ⟨hlen, hbase⟩ := h bytes base rfl
    have hmagic (l : List Byte) : (dataMagic ++ l).take 5 = dataMagic := rfl
    have hafter (l : List Byte) : (dataMagic ++ l).drop 5 = l := rfl
    have hfield := readInt32_int32Bytes_append (v := bytes.length) (by omega)
    have hrest := splitBytes_append bytes []
    have hlen' : ¬((bytes.length : Int) < 0) := by omega
    rw [List.append_nil] at hrest
    simp only [dataPart, List.append_assoc]
    rw [parseData, if_neg (by simp [dataMagic]), hmagic, hafter, if_neg (by simp)]
    simp only [hfield, readInt32_int32Bytes_append hbase, bind, Except.bind, hlen', if_false,
      Int.toNat_natCast, hrest, if_true]

/-- Settles O39: each field and each segment reads back what was written, and leaves the rest. -/
theorem containerRoundTrips : Obligations.ContainerRoundTrips := by
  unfold Obligations.ContainerRoundTrips
  intro img hpos hlen hlow hhigh hdata
  have hmagic (l : List Byte) : (textMagic ++ l).take 5 = textMagic := rfl
  have hafter (l : List Byte) : (textMagic ++ l).drop 5 = l := rfl
  have hfield := readInt32_int32Bytes_append (v := img.text.length) (by omega)
  have hbase := readInt32_int32Bytes_append ⟨hlow, hhigh⟩
  have hlen' : ¬((img.text.length : Int) ≤ 0) := by omega
  rw [containerBytes_eq]
  simp only [List.append_assoc]
  rw [parseContainer, hmagic, hafter, if_neg (by simp)]
  simp only [hfield, hbase, bind, Except.bind, hlen', if_false, Int.toNat_natCast, splitBytes_append,
    parseData_dataPart hdata]

end Sys2Proof.Machine

/-! ## Proofs: the encoding side of the assembler (spec/30_encoding.md sections 5 and 6) -/

/-! ### The words of the relocated instructions -/

namespace Sys2Proof.Machine

theorem decode_lui (rd : Reg) (v : Int) :
    decode (encodeI 0x0F (0 : Reg).val rd.val v) = .ok (.lui rd (BitVec.ofInt 16 v)) := by
  simp [decode]

theorem decode_ori (rt rs : Reg) (v : Int) :
    decode (encodeI 0x0D rs.val rt.val v) = .ok (.ori rt rs (BitVec.ofInt 16 v)) := by
  simp [decode]

theorem decode_beq (rs rt : Reg) (v : Int) :
    decode (encodeI 0x04 rs.val rt.val v) = .ok (.beq rs rt (BitVec.ofInt 16 v)) := by
  simp [decode]

theorem decode_j (v : Int) : decode (encodeJ 0x02 v) = .ok (.j (BitVec.ofInt 26 v)) := by
  simp [decode]

theorem decode_jal (v : Int) : decode (encodeJ 0x03 v) = .ok (.jal (BitVec.ofInt 26 v)) := by
  simp [decode]

/-- A relocation fills the immediate field that the assembler left 0 (R84, R86). -/
theorem encodeI_zero_or_setImm (op rs rt v : Int) : encodeI op rs rt 0 ||| setImm v = encodeI op rs rt v := by
  have hzero : setImm 0 = 0#32 := by decide
  rw [encodeI, hzero, BitVec.or_zero, encodeI]

/-- A relocation fills the target field that the assembler left 0 (R85). -/
theorem encodeJ_zero_or_setTarget (op v : Int) : encodeJ op 0 ||| setTarget v = encodeJ op v := by
  have hzero : setTarget 0 = 0#32 := by decide
  rw [encodeJ, hzero, BitVec.or_zero, encodeJ]

/-! ### Constants in two halves (R82, R86) -/

/-- An upper and a lower immediate make up a word. -/
theorem upperImm_or_zeroImm (high low : BitVec 16) : upperImm high ||| zeroImm low = high ++ low := by
  apply BitVec.eq_of_toNat_eq
  rw [BitVec.toNat_or, upperImm_toNat, zeroImm, BitVec.toNat_setWidth_of_le (by decide),
    BitVec.toNat_append, Nat.shiftLeft_eq]

/-- The two halves of a number's word. -/
theorem ofInt_shiftRight_append_ofInt (n : Int) :
    BitVec.ofInt 16 (n >>> (16 : Nat)) ++ BitVec.ofInt 16 n = wrap32 n := by
  apply BitVec.eq_of_toNat_eq
  have hword := wrap32_toNat n
  have hlow : (BitVec.ofInt 16 n).toNat < 2 ^ 16 := BitVec.isLt _
  rw [BitVec.toNat_append, ← Nat.shiftLeft_add_eq_or_of_lt hlow, BitVec.toNat_ofInt, BitVec.toNat_ofInt,
    Int.shiftRight_eq_div_pow, Nat.shiftLeft_eq]
  omega

/-- lui and then ori of one register leave the two halves in it, and change no other register and no byte. -/
theorem completes_lui_ori (rd : Reg) (high low : BitVec 16) (s : State) :
    Completes (.lui rd high) s (fun t => Completes (.ori rd rd low) t (fun v =>
      v.reg rd = high ++ low ∧ KeepsRegs [rd] s v ∧ KeepsMemory s v)) := by
  refine .of_eq (exec_lui rd high s) (.of_eq (exec_ori rd rd low _) ⟨?_, ?_, rfl, fun _ => rfl⟩)
  · rw [State.reg_setReg_same, State.reg_setReg_same, upperImm_or_zeroImm]
  · intro k hk
    exact (KeepsRegs.setReg _ rd _ k hk).trans (KeepsRegs.setReg s rd _ k hk)

/-- Settles O53: the two words are lui and ori of the constant's halves. -/
theorem liBuildsEveryConstant : Obligations.LiBuildsEveryConstant := by
  unfold Obligations.LiBuildsEveryConstant
  intro rd imm _ _
  refine ⟨_, _, congrArg₂ (fun i j => [i, j]) (decode_lui rd _) (decode_ori rd rd imm), fun s => ?_⟩
  rw [← ofInt_shiftRight_append_ofInt]
  exact completes_lui_ori rd _ _ s

/-- A data-address relocation of a word of lui or ori fills its immediate field. -/
theorem relocateData_eq (p : Config.AsmParams) {op : Int} (hop : op = 0x0F ∨ op = 0x0D) (rs rt : Int)
    (labelOff : Nat) :
    relocateData p (encodeI op rs rt 0) (some .high) labelOff =
        .ok (encodeI op rs rt ((p.dataBase + labelOff) >>> 16 : Nat)) ∧
      relocateData p (encodeI op rs rt 0) (some .low) labelOff =
        .ok (encodeI op rs rt ((p.dataBase + labelOff) &&& 0xFFFF : Nat)) := by
  have hformat : decodeFormat (encodeI op rs rt 0) = .i := by
    rw [decodeFormat, getOpcode_encodeI]
    rcases hop with rfl | rfl <;> decide
  simp only [relocateData, hformat, encodeI_zero_or_setImm]
  exact ⟨rfl, rfl⟩

/-- The two halves of an address, as its relocations cut them. -/
theorem ofInt_shiftRight_append_ofInt_and (n : Nat) :
    BitVec.ofInt 16 ((n >>> 16 : Nat) : Int) ++ BitVec.ofInt 16 ((n &&& 0xFFFF : Nat) : Int) = wrap32 n := by
  have hmask : n &&& 0xFFFF = n % 2 ^ 16 := Nat.and_two_pow_sub_one_eq_mod n 16
  have hlow : BitVec.ofInt 16 ((n &&& 0xFFFF : Nat) : Int) = BitVec.ofInt 16 n := by
    apply BitVec.eq_of_toNat_eq
    rw [BitVec.ofInt_natCast, BitVec.ofInt_natCast, BitVec.toNat_ofNat, BitVec.toNat_ofNat, hmask,
      Nat.mod_mod]
  rw [hlow]
  exact ofInt_shiftRight_append_ofInt n

/-- Settles O56: the relocated words are lui and ori of the address's halves, and the address fits a word. -/
theorem laBuildsTheDataAddress : Obligations.LaBuildsTheDataAddress := by
  unfold Obligations.LaBuildsTheDataAddress
  intro p rd labelOff hfits
  refine ⟨_, _, _, _, (relocateData_eq p (.inl rfl) _ _ labelOff).1,
    (relocateData_eq p (.inr rfl) _ _ labelOff).2, decode_lui rd _, decode_ori rd rd _, fun s => ?_⟩
  obtain ⟨t, hlui, v, hori, hreg, -⟩ := completes_lui_ori rd
    (BitVec.ofInt 16 ((p.dataBase + labelOff) >>> 16 : Nat))
    (BitVec.ofInt 16 ((p.dataBase + labelOff) &&& 0xFFFF : Nat)) s
  refine ⟨t, hlui, v, hori, ?_⟩
  dsimp only
  rw [hreg, ofInt_shiftRight_append_ofInt_and, wrap32_toNat_of_fits hfits]

/-! ### Branches (R84) -/

/-- A displacement fits exactly when the distance in bytes lies in its range. -/
theorem branchDisplacement_fits_iff {off labelOff : Nat} (hoff : off % 4 = 0) (hlabel : labelOff % 4 = 0) :
    WellFormed.immFits (branchDisplacement off labelOff) = true ↔
      -32768 * 4 ≤ (labelOff : Int) - (off + 4) ∧ (labelOff : Int) - (off + 4) ≤ 32767 * 4 := by
  rw [immFits_iff, branchDisplacement]
  omega

/-- What the relocation of beq answers. -/
theorem relocateBranch_beq_eq_ok_iff {rs rt : Reg} {off labelOff : Nat} {w : Word} :
    relocateBranch (encodeI 0x04 rs.val rt.val 0) off labelOff = .ok w ↔
      WellFormed.immFits (branchDisplacement off labelOff) = true ∧
        w = encodeI 0x04 rs.val rt.val (branchDisplacement off labelOff) := by
  have hformat : decodeFormat (encodeI 0x04 rs.val rt.val 0) = .i := by
    rw [decodeFormat, getOpcode_encodeI]
    decide
  simp only [relocateBranch, hformat, encodeI_zero_or_setImm]
  by_cases h : WellFormed.immFits (branchDisplacement off labelOff) = true <;> simp [h, eq_comm]

/-- From the word after the branch, the displacement leads to the label, wherever the text is loaded. -/
theorem wrap32_branchDisplacement {off labelOff : Nat} (hoff : off % 4 = 0) (hlabel : labelOff % 4 = 0)
    (base : Nat) :
    wrap32 ((BitVec.ofNat 32 (base + off + 4)).toNat + 4 * branchDisplacement off labelOff) =
      BitVec.ofNat 32 (base + labelOff) := by
  apply BitVec.eq_of_toNat_eq
  have hword := wrap32_toNat ((BitVec.ofNat 32 (base + off + 4)).toNat + 4 * branchDisplacement off labelOff)
  simp only [BitVec.toNat_ofNat, branchDisplacement] at hword ⊢
  omega

/-- Settles O54: the relocation answers exactly when the displacement fits its field, which then holds it. -/
theorem resolvedBranchesLandOnTheirLabels : Obligations.ResolvedBranchesLandOnTheirLabels := by
  unfold Obligations.ResolvedBranchesLandOnTheirLabels
  intro rs rt off labelOff hoff hlabel
  refine ⟨?resolves, fun w hw => ?lands⟩
  case resolves =>
    simp only [relocateBranch_beq_eq_ok_iff, exists_and_left, exists_eq, and_true,
      branchDisplacement_fits_iff hoff hlabel]
  case lands =>
    obtain ⟨hfits, rfl⟩ := relocateBranch_beq_eq_ok_iff.1 hw
    refine ⟨_, decode_beq rs rt _, fun base s hpc htaken => ?_⟩
    obtain ⟨t, hexec, htarget, -⟩ := Completes.of_branchIf (exec_beq rs rt _ s)
    refine ⟨t, hexec, htarget.trans ?_⟩
    rw [if_pos htaken, hpc, toInt_ofInt_of_immFits hfits, wrap32_branchDisplacement hoff hlabel]

/-! ### Jumps (R85) -/

/-- The address a jump word goes to is that of the jump run from it. -/
theorem State.jumpTarget_eq_jumpReaches {s : State} {addr : Nat} (hpc : s.pc = BitVec.ofNat 32 (addr + 4))
    (field : BitVec 26) : s.jumpTarget field = jumpReaches addr field := by
  rw [State.jumpTarget, hpc, jumpReaches]

/-- The field that the relocation places for a label. -/
theorem getTarget_setTarget (v : Int) : getTarget (setTarget v) = BitVec.ofInt 26 v :=
  extract_setField_same (by decide) v

/-- What the relocation of j and jal answers. -/
theorem relocateJump_eq_ok_iff (p : Config.AsmParams) {op : Int} (hop : op = 0x02 ∨ op = 0x03)
    {off labelOff : Nat} {w : Word} :
    relocateJump p (encodeJ op 0) off labelOff = .ok w ↔
      (jumpReaches (p.progBase + off) (BitVec.ofInt 26 ((p.progBase + labelOff) / 4 : Nat))).toNat =
          p.progBase + labelOff ∧
        w = encodeJ op ((p.progBase + labelOff) / 4 : Nat) := by
  have hformat : decodeFormat (encodeJ op 0) = .j := by
    rw [decodeFormat, getOpcode_encodeJ]
    rcases hop with rfl | rfl <;> decide
  rw [relocateJump, if_neg (by simp [hformat]), getTarget_setTarget, encodeJ_zero_or_setTarget]
  split
  case isTrue h => exact ⟨fun hw => ⟨h, (Except.ok.inj hw).symm⟩, fun ⟨_, hw⟩ => congrArg _ hw.symm⟩
  case isFalse h => exact ⟨fun hw => (nomatch hw), fun ⟨hreaches, _⟩ => absurd hreaches h⟩

/-- The field reaches the label exactly from its own 2^28-byte region (R210). -/
theorem jumpReaches_label_iff {addr label : Nat} (haddr : addr + 4 < 2 ^ 32) (hlabel : label % 4 = 0) :
    (jumpReaches addr (BitVec.ofInt 26 (label / 4 : Nat))).toNat = label ↔
      (addr + 4) / 2 ^ 28 = label / 2 ^ 28 := by
  have hreaches := (State.reset.setPc (BitVec.ofNat 32 (addr + 4))).jumpTarget_toNat
    (BitVec.ofInt 26 (label / 4 : Nat))
  rw [State.jumpTarget_eq_jumpReaches (State.setPc_pc ..), State.setPc_pc, BitVec.toNat_ofNat,
    BitVec.ofInt_natCast, BitVec.toNat_ofNat] at hreaches
  rw [BitVec.ofInt_natCast, hreaches]
  omega

/-- Settles O55: a resolved jump's field reaches its label from the word after the jump, and jal links that
word first. -/
theorem resolvedJumpsReachTheirLabels : Obligations.ResolvedJumpsReachTheirLabels := by
  unfold Obligations.ResolvedJumpsReachTheirLabels
  intro p off labelOff
  refine ⟨fun w hw => ?j, fun w hw => ?jal, fun hbase hlabel haddr op hop => ?resolves⟩
  case j =>
    obtain ⟨hreaches, rfl⟩ := (relocateJump_eq_ok_iff p (.inl rfl)).1 hw
    refine ⟨_, decode_j _, fun s hpc => .of_eq (exec_j _ s) ?_⟩
    rw [State.setPc_pc, State.jumpTarget_eq_jumpReaches hpc, hreaches]
  case jal =>
    obtain ⟨hreaches, rfl⟩ := (relocateJump_eq_ok_iff p (.inr rfl)).1 hw
    refine ⟨_, decode_jal _, fun s hpc => .of_eq (exec_jal _ s) ⟨?_, s.reg_setReg_same 31 s.pc⟩⟩
    rw [State.setPc_pc, State.jumpTarget_eq_jumpReaches hpc, hreaches]
  case resolves =>
    simp only [relocateJump_eq_ok_iff p hop, exists_and_left, exists_eq, and_true]
    exact jumpReaches_label_iff haddr (by omega)

end Sys2Proof.Machine
